-- ==== Sys2Proof/Word.lean ====
section
/-! DEFINITION. The two word types of RBSE: the byte (`BYTE_W` = 8) and the index (`IDX_W` = 16), rule R10. -/

namespace Sys2Proof

/-- A byte, a slot, `tx_buf`, `rx_buf` (rule R10, `BYTE_W` = 8). -/
abbrev Byte := BitVec 8

/-- `head`, `tail`, `count`, `cap`, `rx_drop` and the 16-bit operands and results (rule R10, `IDX_W` = `DROP_W` = 16). -/
abbrev Idx := BitVec 16

end Sys2Proof
end

