-- ==== Sys2Proof/Config.lean ====
section
/-! DEFINITION. What an RBSE instance fixes (rule R10) and the one free value (rule R21).
The parameters are a record that `State` carries and no step changes, so that a statement over every state is a
statement over every instance; log entries 1, 2 and 3. -/

namespace Sys2Proof.Config

/-- `RB_VARIANT` (rule R10, D5): how occupancy is represented. -/
inductive RbVariant
  | explicit
  | derived
  deriving DecidableEq, Repr

/-- Which context holds a port of the standalone RB unit (rule R101: FG or IRQ, fixed for the life of the unit). -/
inductive Holder
  | fg
  | irq
  deriving DecidableEq, Repr

/-- One condition on the six operands of `BAUD_OK`: a named byte, or any byte where the field is `none`. -/
structure BaudPattern where
  clockSource      : Option Byte
  baudDivisorLow   : Option Byte
  baudDivisorHigh  : Option Byte
  modulationA      : Option Byte
  modulationB      : Option Byte
  oversamplingMode : Option Byte
  deriving DecidableEq, Repr

/-- The open parameters of one RBSE instance (rule R10).
`baudRejects` is `BAUD_OK` as plain data: the operands it answers false for, as a list of patterns; every total
Boolean function of the six operands is one such list (`Machine.baudRejects_complete`), log entry 2.
`variant` is the variant of all three ring buffers. Rule R10 and D5 give one value to the two buffers of an SE unit and
leave open whether a standalone RB unit beside it may have the other: DESIGN CHOICE, log entry 20. -/
structure Params where
  variant     : RbVariant
  slots       : Idx
  txCap       : Idx
  rxCap       : Idx
  baudRejects : List BaudPattern
  producer    : Holder
  consumer    : Holder
  deriving DecidableEq, Repr

/-- The three ring buffers of the model: the RB unit's own, and the engine's `txq` and `rxq` (rules R20, R32). -/
inductive BufId
  | rb
  | txq
  | rxq
  deriving DecidableEq, Repr

/-- FREE VALUE. The byte a slot holds that no push has written since reset (rule R21: "a model takes it as any
byte"; UV1). It has no body, so no proof can rest on a value of it; log entry 4. -/
opaque unwrittenSlot : BufId → Nat → Byte

end Sys2Proof.Config
end

