-- ==== Sys2Proof/Syntax.lean ====
section
/-! DEFINITION. The twenty operations of RBSE (rules R3, R106), their formats (rule R104), and the agents and ports
that carry them (rules R8, R101). -/

namespace Sys2Proof

/-- The twenty operations, one constructor a row of the opcode table. -/
inductive Instr
  | rbInit (cap : Idx)
  | rbEmpty
  | rbFull
  | rbPeek
  | rbPush (b : Byte)
  | rbPop
  | rbOcc
  | seInit (p0 p1 p2 p3 p4 p5 p6 p7 : Byte)
  | seSend (b : Byte)
  | seRecv
  | seEi
  | seDi
  | seRxempty
  | seStatus
  | seRxdrop
  | seCfgrd (i : Byte)
  | seTxisr
  | seRxisr
  | lineTxdone
  | lineRxbyte (b : Byte)
  deriving DecidableEq, Repr

/-- The four command formats (rule R104). -/
inductive Format
  | f0
  | f1
  | f2
  | f8
  deriving DecidableEq, Repr

/-- The length in bytes of a command of each format, the opcode byte counted (rule R104). -/
def Format.length : Format → Nat
  | .f0 => 1
  | .f1 => 2
  | .f2 => 3
  | .f8 => 9

/-- The format column of the opcode map (rule R106). -/
def Instr.format : Instr → Format
  | .rbInit _ => .f2
  | .rbEmpty => .f0
  | .rbFull => .f0
  | .rbPeek => .f0
  | .rbPush _ => .f1
  | .rbPop => .f0
  | .rbOcc => .f0
  | .seInit _ _ _ _ _ _ _ _ => .f8
  | .seSend _ => .f1
  | .seRecv => .f0
  | .seEi => .f0
  | .seDi => .f0
  | .seRxempty => .f0
  | .seStatus => .f0
  | .seRxdrop => .f0
  | .seCfgrd _ => .f1
  | .seTxisr => .f0
  | .seRxisr => .f0
  | .lineTxdone => .f0
  | .lineRxbyte _ => .f1

/-- The three agents (rule R8). -/
inductive Agent
  | fg
  | irq
  | line
  deriving DecidableEq, Repr

/-- The five ports (rule R101): two of the RB unit, three of the SE unit. -/
inductive Port
  | rbProducer
  | rbConsumer
  | seForeground
  | seInterrupt
  | seLine
  deriving DecidableEq, Repr

end Sys2Proof
end

