-- ==== Sys2Proof/WellFormed.lean ====
section
/-! DEFINITION. Which operations are legal encodings (rule R107): every one, but SE.CFGRD with an index above 7. -/

namespace Sys2Proof

/-- Rule R107: "In SE.CFGRD an operand `d > 7` is illegal"; "In every other command every value of every operand byte
is legal as an encoding". -/
def Instr.wellFormed : Instr → Bool
  | .rbInit _ => true
  | .rbEmpty => true
  | .rbFull => true
  | .rbPeek => true
  | .rbPush _ => true
  | .rbPop => true
  | .rbOcc => true
  | .seInit _ _ _ _ _ _ _ _ => true
  | .seSend _ => true
  | .seRecv => true
  | .seEi => true
  | .seDi => true
  | .seRxempty => true
  | .seStatus => true
  | .seRxdrop => true
  | .seCfgrd i => decide (i.toNat ≤ 7)
  | .seTxisr => true
  | .seRxisr => true
  | .lineTxdone => true
  | .lineRxbyte _ => true

end Sys2Proof
end

