-- ==== Sys2Proof/Decode.lean ====
section
/-! DEFINITION. From command bytes to operations (rules R102 to R107, R110) and back.
The decoder is total: it answers an operation with the bytes that follow it, or a refusal by name. -/

namespace Sys2Proof

/-- Why the decoder gives no operation: `illegalOpcode` is rule R107's reserved opcode; `incomplete` is a command
whose operand bytes are not all there, which no rule describes (log entry 8). -/
inductive DecodeError
  | illegalOpcode
  | incomplete
  deriving DecidableEq, Repr

/-- `op[7:4]`, the class field (rule R102). -/
def opClass (op : Byte) : Nat := (op.extractLsb' 4 4).toNat

/-- `op[3:0]`, the func field (rule R102). -/
def opFunc (op : Byte) : Nat := (op.extractLsb' 0 4).toNat

/-- `imm16 = {hi, lo}`, the little-endian operand of format F2 (rule R105). -/
def imm16 (lo hi : Byte) : Idx := hi ++ lo

/-- `v[7:0]` of a 16-bit value (rule R105). -/
def lowByte (v : Idx) : Byte := v.extractLsb' 0 8

/-- `v[15:8]` of a 16-bit value (rule R105). -/
def highByte (v : Idx) : Byte := v.extractLsb' 8 8

/-- Format F0: no operand byte. -/
def takeF0 (i : Instr) (operands : List Byte) : Except DecodeError (Instr × List Byte) :=
  .ok (i, operands)

/-- Format F1: one operand byte. -/
def takeF1 (mk : Byte → Instr) : List Byte → Except DecodeError (Instr × List Byte)
  | d :: rest => .ok (mk d, rest)
  | [] => .error .incomplete

/-- Format F2: two operand bytes, low byte first. -/
def takeF2 (mk : Idx → Instr) : List Byte → Except DecodeError (Instr × List Byte)
  | lo :: hi :: rest => .ok (mk (imm16 lo hi), rest)
  | _ => .error .incomplete

/-- Format F8: eight operand bytes, in the order of rule R105. -/
def takeF8 (mk : Byte → Byte → Byte → Byte → Byte → Byte → Byte → Byte → Instr) :
    List Byte → Except DecodeError (Instr × List Byte)
  | p0 :: p1 :: p2 :: p3 :: p4 :: p5 :: p6 :: p7 :: rest => .ok (mk p0 p1 p2 p3 p4 p5 p6 p7, rest)
  | _ => .error .incomplete

/-- The opcode map (rule R106) read by class and func (rule R102). A reserved opcode is refused (rule R107); the
opcode alone decides how many operand bytes are taken (rule R110). -/
def decode : List Byte → Except DecodeError (Instr × List Byte)
  | [] => .error .incomplete
  | op :: operands =>
    match opClass op, opFunc op with
    | 0x0, 0x0 => takeF2 .rbInit operands
    | 0x0, 0x1 => takeF0 .rbEmpty operands
    | 0x0, 0x2 => takeF0 .rbFull operands
    | 0x0, 0x3 => takeF0 .rbPeek operands
    | 0x0, 0x4 => takeF1 .rbPush operands
    | 0x0, 0x5 => takeF0 .rbPop operands
    | 0x0, 0x6 => takeF0 .rbOcc operands
    | 0x8, 0x0 => takeF8 .seInit operands
    | 0x8, 0x1 => takeF1 .seSend operands
    | 0x8, 0x2 => takeF0 .seRecv operands
    | 0x8, 0x3 => takeF0 .seEi operands
    | 0x8, 0x4 => takeF0 .seDi operands
    | 0x8, 0x5 => takeF0 .seRxempty operands
    | 0x8, 0x6 => takeF0 .seStatus operands
    | 0x8, 0x7 => takeF0 .seRxdrop operands
    | 0x8, 0x8 => takeF1 .seCfgrd operands
    | 0x9, 0x0 => takeF0 .seTxisr operands
    | 0x9, 0x1 => takeF0 .seRxisr operands
    | 0xA, 0x0 => takeF0 .lineTxdone operands
    | 0xA, 0x1 => takeF1 .lineRxbyte operands
    | _, _ => .error .illegalOpcode

/-- The opcode column of the opcode map (rule R106). -/
def Instr.opcode : Instr → Byte
  | .rbInit _ => 0x00#8
  | .rbEmpty => 0x01#8
  | .rbFull => 0x02#8
  | .rbPeek => 0x03#8
  | .rbPush _ => 0x04#8
  | .rbPop => 0x05#8
  | .rbOcc => 0x06#8
  | .seInit _ _ _ _ _ _ _ _ => 0x80#8
  | .seSend _ => 0x81#8
  | .seRecv => 0x82#8
  | .seEi => 0x83#8
  | .seDi => 0x84#8
  | .seRxempty => 0x85#8
  | .seStatus => 0x86#8
  | .seRxdrop => 0x87#8
  | .seCfgrd _ => 0x88#8
  | .seTxisr => 0x90#8
  | .seRxisr => 0x91#8
  | .lineTxdone => 0xA0#8
  | .lineRxbyte _ => 0xA1#8

/-- The operand bytes of a command, in the order sent (rules R104, R105). -/
def Instr.operandBytes : Instr → List Byte
  | .rbInit cap => [lowByte cap, highByte cap]
  | .rbEmpty => []
  | .rbFull => []
  | .rbPeek => []
  | .rbPush b => [b]
  | .rbPop => []
  | .rbOcc => []
  | .seInit p0 p1 p2 p3 p4 p5 p6 p7 => [p0, p1, p2, p3, p4, p5, p6, p7]
  | .seSend b => [b]
  | .seRecv => []
  | .seEi => []
  | .seDi => []
  | .seRxempty => []
  | .seStatus => []
  | .seRxdrop => []
  | .seCfgrd i => [i]
  | .seTxisr => []
  | .seRxisr => []
  | .lineTxdone => []
  | .lineRxbyte b => [b]

/-- The bytes of a command, byte 0 first (rule R104). -/
def encode (i : Instr) : List Byte := i.opcode :: i.operandBytes

/-- The longest command, SE.INIT (rule R110). -/
def maxCommandLength : Nat := 9

/-- `n` bytes of a number, least significant byte first. -/
def bytesOfNat : Nat → Nat → List Byte
  | 0, _ => []
  | n + 1, w => BitVec.ofNat 8 w :: bytesOfNat n (w / 256)

/-- A word of the opcode table laid out as command bytes: the table's bit 0 is bit 0 of byte 0, and every bit from
`nbits` up is 0. -/
def tableBytes (nbits w : Nat) : List Byte := bytesOfNat maxCommandLength (w % 2 ^ nbits)

/-- What the decoder reads from a word of the opcode table. -/
def decodeTableWord (nbits w : Nat) : Option Instr :=
  match decode (tableBytes nbits w) with
  | .ok (i, _) => some i
  | .error _ => none

end Sys2Proof
end

