-- ==== Sys2Proof/Machine/State.lean ====
section
/-! DEFINITION. The state of RBSE as plain data (rules R20, R31, R32), the reasons a step stops (rules R220, R224),
and the state after reset (rule R260). -/

namespace Sys2Proof.Machine

open Sys2Proof.Config

/-- The slots of one ring buffer that a push has written, as (index, byte) pairs with indices strictly rising. A slot
not listed has no value of its own (rule R21); what reading it gives is `slotByte` in `Machine/Ops.lean`. -/
abbrev Memory := List Host.Cell

/-- The canonical form: indices strictly rising. -/
abbrev Memory.wf (m : Memory) : Prop := m.Pairwise (fun x y => x.1 < y.1)

/-- One ring buffer (rule R20). `count` exists in the EXPLICIT variant only: no rule reads it in the DERIVED
variant, where it stays 0 (log entry 5). -/
structure RingBuf where
  slots : Memory
  cap   : Idx
  head  : Idx
  tail  : Idx
  count : Idx
  bound : Bool
  deriving DecidableEq, Repr

/-- The eight configuration bytes `cfg[0..7]`, each under its own name (rule R36). -/
structure SerialConfig where
  clockSource      : Byte
  baudDivisorLow   : Byte
  baudDivisorHigh  : Byte
  modulationA      : Byte
  modulationB      : Byte
  parityMode       : Byte
  bitOrder         : Byte
  oversamplingMode : Byte
  deriving DecidableEq, Repr

/-- One SE unit (rule R32), with the traces of rule R41. -/
structure SerialEngine where
  txq          : RingBuf
  rxq          : RingBuf
  transmitting : Bool
  inited       : Bool
  cfgErr       : Bool
  cfg          : SerialConfig
  txBuf        : Byte
  txReady      : Bool
  txIe         : Bool
  rxBuf        : Byte
  rxFull       : Bool
  rxIe         : Bool
  rxOvr        : Bool
  rxDrop       : Idx
  txLine       : List Byte
  rxLine       : List Byte
  deriving DecidableEq, Repr

/-- The foreground operations that are made of micro-steps (rule R78): six on the RB unit, and SE.RECV on `rxq`. -/
inductive MicroOp
  | push (b : Byte)
  | pop
  | peek
  | empty
  | full
  | occ
  | recv
  deriving DecidableEq, Repr

/-- `fg.upc`, which micro-step comes next, 1 to 4 (rule R31). -/
inductive Upc
  | u1
  | u2
  | u3
  | u4
  deriving DecidableEq, Repr

/-- The foreground's operation in progress (rule R31): `fg.op`, `fg.upc`, `fg.flag`, `fg.val`, and the port whose
response it owes. -/
structure Progress where
  op   : MicroOp
  port : Port
  upc  : Upc
  flag : Bool
  val  : Byte
  deriving DecidableEq, Repr

/-- Which agent presents the command being executed, and on which port (rules R100, R101). -/
structure Issue where
  agent : Agent
  port  : Port
  deriving DecidableEq, Repr

/-- A response (rule R108): the port it is given on, and the completion code followed by the result bytes. -/
structure Response where
  port  : Port
  bytes : List Byte
  deriving DecidableEq, Repr

/-- What the environment does next (rules R113, R286); log entry 6.
`command`: an agent presents command bytes on a port, and the operation runs as one atomic step.
`start`: FG presents command bytes, and an operation that has micro-steps begins without running one.
`resume`: FG takes the next micro-step of its operation in progress. -/
inductive Input
  | command (agent : Agent) (port : Port) (bytes : List Byte)
  | start (port : Port) (bytes : List Byte)
  | resume
  deriving DecidableEq, Repr

/-- The whole machine: one RB unit, one SE unit, the foreground's operation in progress, and the command interface.
`params` is the instance (rule R10), changed by no step; `issue`, `responses` and `inputs` are the model's own
(log entry 6). -/
structure State where
  params    : Params
  rb        : RingBuf
  se        : SerialEngine
  fg        : Option Progress
  issue     : Issue
  responses : List Response
  inputs    : List Input
  deriving DecidableEq, Repr

/-- The machine stops with a fault.
`txOverwrite`: raised by `TxWrite` with a byte in flight (rule R37), which the rules call unreachable (rule R44). Safe.
`slotOutOfRange`: raised by `MemRead` and `MemWrite` at an index that is not below `cap`, or with `cap` above the
number of slots; rule R11 requires both and rule R72 says the requirement always holds. Safe. -/
inductive Fault
  | txOverwrite
  | slotOutOfRange
  deriving DecidableEq, Repr

/-- The model gives the operation no meaning (rule R224); no state changes. All are safe.
`notModelled`: raised by `exec` for an instruction without a meaning.
`illegalOpcode`: raised by the decoder on a reserved opcode (rule R107).
`incomplete`: raised by the decoder on a command whose operand bytes are not all there (log entry 8).
`wrongPort`: raised on a port that does not accept the operation, or for an agent that does not own the port.
`unbound`: raised by every ring-buffer operation but RB.INIT on an unbound buffer (rule R26).
`capExceedsSlots`: raised by RB.INIT (rule R134).
`role`: raised for a third party on the RB unit, for a foreground command while the foreground is busy, and for
RB.INIT while an operation on the buffer is in progress (rule R135).
`notInited`: raised by the engine's foreground operations before SE.INIT (rule R35).
`cfgIndex`: raised by SE.CFGRD with an index above 7 (rule R184).
`notEnabled`: raised for a handler, a LINE.TXDONE or a micro-step that has no step in this state (rule R228). -/
inductive Refusal
  | notModelled (mnemonic : String)
  | illegalOpcode
  | incomplete
  | wrongPort
  | unbound
  | capExceedsSlots
  | role
  | notInited
  | cfgIndex
  | notEnabled
  deriving DecidableEq, Repr

/-- A ring buffer after reset (rule R20): unbound, every register 0, no slot written. -/
def resetRingBuf : RingBuf :=
  { slots := [], cap := 0, head := 0, tail := 0, count := 0, bound := false }

/-- The unspecified `cfg[0..7]` after reset (UV4): DESIGN CHOICE 0x00 each, log entry 7. -/
def resetConfig : SerialConfig :=
  { clockSource := 0, baudDivisorLow := 0, baudDivisorHigh := 0, modulationA := 0, modulationB := 0
    parityMode := 0, bitOrder := 0, oversamplingMode := 0 }

/-- An SE unit after reset (rule R32). `txBuf` and `rxBuf` are unspecified (UV2, UV3): DESIGN CHOICE 0x00, log
entry 7. -/
def resetEngine : SerialEngine :=
  { txq := resetRingBuf, rxq := resetRingBuf, transmitting := false, inited := false, cfgErr := false
    cfg := resetConfig, txBuf := 0, txReady := true, txIe := false, rxBuf := 0, rxFull := false, rxIe := false
    rxOvr := false, rxDrop := 0, txLine := [], rxLine := [] }

/-- The instance of `State.reset`: the parameters of the spec's test vectors (`RB_VARIANT = EXPLICIT`, `SLOTS = 8`,
`TX_CAP = RX_CAP = 2`, `BAUD_OK` constantly true, one issuer holding both ports). DESIGN CHOICE, log entry 1. -/
def resetParams : Params :=
  { variant := .explicit, slots := 8, txCap := 2, rxCap := 2, baudRejects := [], producer := .fg, consumer := .fg }

/-- The machine right after reset (rule R260). -/
def State.reset : State :=
  { params := resetParams, rb := resetRingBuf, se := resetEngine, fg := none
    issue := { agent := .fg, port := .seForeground }, responses := [], inputs := [] }

end Sys2Proof.Machine
end

