-- ==== Sys2Proof/Machine/Operands.lean ====
section
/-! DEFINITION. Operand forms and their arithmetic: the circular advance (rule R130), the saturating count (rule R11),
the result bytes of a response (rules R105, R108), the configuration bytes (rule R36), and the ports an operation is
accepted on (rule R101). -/

namespace Sys2Proof.Machine

open Sys2Proof.Config

/-- `next(i, cap)`, the wrap by comparison (rule R130). -/
def nextIdx (i cap : Idx) : Idx :=
  if i.toNat + 1 ≥ cap.toNat then 0 else i + 1

/-- `sat_add1` (rule R11). -/
def satAdd1 (v : Idx) : Idx :=
  if v.toNat = 65535 then v else v + 1

/-- `DEFAULT_BYTE` (rule R10). -/
def defaultByte : Byte := 0x00

/-- The completion codes (rule R108). -/
def ccDone : Byte := 0x00
def ccHeld : Byte := 0x01
def ccCfgErr : Byte := 0x02

/-- A Boolean result byte (rule R105). -/
def boolByte (p : Bool) : Byte := if p then 0x01 else 0x00

/-- A 16-bit result, low byte first (rule R105). -/
def idxBytes (v : Idx) : List Byte := [lowByte v, highByte v]

/-- `cfg[i]` (rule R36); SE.CFGRD reads it with `i` at most 7 only. -/
def SerialConfig.byte (c : SerialConfig) (i : Byte) : Byte :=
  match i.toNat with
  | 0 => c.clockSource
  | 1 => c.baudDivisorLow
  | 2 => c.baudDivisorHigh
  | 3 => c.modulationA
  | 4 => c.modulationB
  | 5 => c.parityMode
  | 6 => c.bitOrder
  | _ => c.oversamplingMode

/-- Whether a pattern field takes in a byte. -/
def fieldTakes : Option Byte → Byte → Bool
  | none, _ => true
  | some v, b => v == b

/-- Whether a pattern takes in the operands p0, p1, p2, p3, p4 and p7 of SE.INIT. -/
def patternTakes (r : BaudPattern) (p0 p1 p2 p3 p4 p7 : Byte) : Bool :=
  fieldTakes r.clockSource p0 && fieldTakes r.baudDivisorLow p1 && fieldTakes r.baudDivisorHigh p2 &&
    fieldTakes r.modulationA p3 && fieldTakes r.modulationB p4 && fieldTakes r.oversamplingMode p7

/-- `BAUD_OK` of an instance (rule R10). -/
def baudOk (P : Params) (p0 p1 p2 p3 p4 p7 : Byte) : Bool :=
  !P.baudRejects.any (fun r => patternTakes r p0 p1 p2 p3 p4 p7)

/-- `SLOTS` of each ring buffer (rules R20, R32). -/
def slotsOf (P : Params) : BufId → Idx
  | .rb => P.slots
  | .txq => P.txCap
  | .rxq => P.rxCap

/-- The context of a holder, as an agent. -/
def holderAgent : Holder → Agent
  | .fg => .fg
  | .irq => .irq

/-- The agent that owns a port (rule R101). -/
def portOwner (P : Params) : Port → Agent
  | .rbProducer => holderAgent P.producer
  | .rbConsumer => holderAgent P.consumer
  | .seForeground => .fg
  | .seInterrupt => .irq
  | .seLine => .line

/-- Whether a port belongs to the RB unit. -/
def isRbPort : Port → Bool
  | .rbProducer => true
  | .rbConsumer => true
  | .seForeground => false
  | .seInterrupt => false
  | .seLine => false

/-- The ports that accept an operation (rules R101, R106). -/
def portsOf : Instr → List Port
  | .rbInit _ => [.rbProducer, .rbConsumer]
  | .rbEmpty => [.rbProducer, .rbConsumer]
  | .rbFull => [.rbProducer, .rbConsumer]
  | .rbPeek => [.rbConsumer]
  | .rbPush _ => [.rbProducer]
  | .rbPop => [.rbConsumer]
  | .rbOcc => [.rbProducer, .rbConsumer]
  | .seInit _ _ _ _ _ _ _ _ => [.seForeground]
  | .seSend _ => [.seForeground]
  | .seRecv => [.seForeground]
  | .seEi => [.seForeground]
  | .seDi => [.seForeground]
  | .seRxempty => [.seForeground]
  | .seStatus => [.seForeground]
  | .seRxdrop => [.seForeground]
  | .seCfgrd _ => [.seForeground]
  | .seTxisr => [.seInterrupt]
  | .seRxisr => [.seInterrupt]
  | .lineTxdone => [.seLine]
  | .lineRxbyte _ => [.seLine]

/-- The operations that have micro-steps when the foreground issues them preemptibly (rule R78). -/
def microOpOf : Instr → Option MicroOp
  | .rbInit _ => none
  | .rbEmpty => some .empty
  | .rbFull => some .full
  | .rbPeek => some .peek
  | .rbPush b => some (.push b)
  | .rbPop => some .pop
  | .rbOcc => some .occ
  | .seInit _ _ _ _ _ _ _ _ => none
  | .seSend _ => none
  | .seRecv => some .recv
  | .seEi => none
  | .seDi => none
  | .seRxempty => none
  | .seStatus => none
  | .seRxdrop => none
  | .seCfgrd _ => none
  | .seTxisr => none
  | .seRxisr => none
  | .lineTxdone => none
  | .lineRxbyte _ => none

/-- The buffer a micro-stepped operation works on. -/
def microBuf : MicroOp → BufId
  | .push _ => .rb
  | .pop => .rb
  | .peek => .rb
  | .empty => .rb
  | .full => .rb
  | .occ => .rb
  | .recv => .rxq

end Sys2Proof.Machine
end

