-- ==== Sys2Proof/Machine/Flags.lean ====
section
/-! DEFINITION. Everything the rules compute from the state as a flag: occupancy, empty, full and usable capacity in
both variants (rules R24, R25), the STATUS byte (rule R40), the enabling conditions (rules R228, R208) and the
validity of a configuration (rule R171). -/

namespace Sys2Proof.Machine

open Sys2Proof.Config

/-- `Occ(rb)` (rules R24, R25), computed in the natural numbers because `head + cap` can pass 16 bits (rule R152). -/
def RingBuf.occ (v : RbVariant) (q : RingBuf) : Nat :=
  match v with
  | .explicit => q.count.toNat
  | .derived =>
    if q.cap = 0 then 0
    else if q.head.toNat ≥ q.tail.toNat then q.head.toNat - q.tail.toNat
    else q.head.toNat + q.cap.toNat - q.tail.toNat

/-- `Empty(rb)` (rules R24, R25). -/
def RingBuf.isEmpty (v : RbVariant) (q : RingBuf) : Bool :=
  match v with
  | .explicit => q.count == 0
  | .derived => q.head == q.tail

/-- `Full(rb)` (rules R24, R25). -/
def RingBuf.isFull (v : RbVariant) (q : RingBuf) : Bool :=
  match v with
  | .explicit => q.count == q.cap
  | .derived => nextIdx q.head q.cap == q.tail

/-- `UsableOf(c)` (rule R171): all of a capacity, or one slot less in the DERIVED variant. -/
def usableOf (v : RbVariant) (c : Idx) : Nat :=
  match v with
  | .explicit => c.toNat
  | .derived => c.toNat - 1

/-- `Usable(rb)` (rules R24, R25). -/
def RingBuf.usable (v : RbVariant) (q : RingBuf) : Nat := usableOf v q.cap

/-- The STATUS byte (rule R40), INITED in bit 7 down to TRANSMITTING in bit 0. -/
def SerialEngine.status (e : SerialEngine) : Byte :=
  BitVec.ofBool e.inited ++ BitVec.ofBool e.cfgErr ++ BitVec.ofBool e.rxOvr ++ BitVec.ofBool e.rxFull ++
    BitVec.ofBool e.txReady ++ BitVec.ofBool e.rxIe ++ BitVec.ofBool e.txIe ++ BitVec.ofBool e.transmitting

/-- SE.TXISR is enabled (rule R228). -/
def SerialEngine.txisrEnabled (e : SerialEngine) : Bool := e.inited && e.txIe && e.txReady

/-- SE.RXISR is enabled (rule R228). -/
def SerialEngine.rxisrEnabled (e : SerialEngine) : Bool := e.inited && e.rxIe && e.rxFull

/-- LINE.TXDONE is enabled: a byte is in flight (rule R208). -/
def SerialEngine.txdoneEnabled (e : SerialEngine) : Bool := !e.txReady

/-- `ConfigValid(p0..p7)` (rule R171): usable capacities, and `BAUD_OK`; p5 and p6 are not validated. -/
def configValid (P : Params) (p0 p1 p2 p3 p4 p7 : Byte) : Bool :=
  decide (usableOf P.variant P.txCap ≥ 1) && decide (usableOf P.variant P.rxCap ≥ 1) && baudOk P p0 p1 p2 p3 p4 p7

end Sys2Proof.Machine
end

