-- ==== Sys2Proof/Machine/Ops.lean ====
section
/-! DEFINITION. The named operations over ring buffers, the port hardware and the command interface that the meanings
are written with. -/

namespace Sys2Proof.Machine

open Sys2Proof.Config

/-- An operation's answer: a value, or one of the two ways to stop. -/
abbrev Result (α : Type) := Host.Outcome α Fault Refusal

/-- Run `k` on the value of `r`; a stop of `r` is the stop of the whole. -/
def andThen {α β : Type} (r : Result α) (k : α → Result β) : Result β :=
  match r with
  | .next a => k a
  | .fault f => .fault f
  | .refused f => .refused f

/-- Refuse with reason `r` where `p` holds, else go on. -/
def refuseIf {α : Type} (p : Bool) (r : Refusal) (k : Result α) : Result α :=
  if p then .refused r else k

/-! ### Slots -/

/-- What reading slot `i` gives: the byte written last, or the free value where no push has written (rule R21). -/
def slotByte (id : BufId) (m : Memory) (i : Nat) : Byte :=
  match Memory.read? m i with
  | some v => v
  | none => unwrittenSlot id i

/-- `MemRead` and `MemWrite` require `i < cap` and `cap <= SLOTS` (rule R11). -/
def slotExists (P : Params) (id : BufId) (q : RingBuf) (i : Idx) : Bool :=
  decide (i.toNat < q.cap.toNat) && decide (q.cap.toNat ≤ (slotsOf P id).toNat)

/-- `MemRead(rb, i, 1)` (rule R11). -/
def memRead (P : Params) (id : BufId) (q : RingBuf) (i : Idx) : Result Byte :=
  if slotExists P id q i then .next (slotByte id q.slots i.toNat) else .fault .slotOutOfRange

/-- `MemWrite(rb, i, 1, v)` (rule R11). -/
def memWrite (P : Params) (id : BufId) (q : RingBuf) (i : Idx) (v : Byte) : Result RingBuf :=
  if slotExists P id q i then .next { q with slots := Memory.write q.slots i.toNat v } else .fault .slotOutOfRange

/-! ### Ring buffers -/

/-- `head <- next(head, cap)` (rule R71). -/
def RingBuf.advanceHead (q : RingBuf) : RingBuf := { q with head := nextIdx q.head q.cap }

/-- `tail <- next(tail, cap)` (rule R71). -/
def RingBuf.advanceTail (q : RingBuf) : RingBuf := { q with tail := nextIdx q.tail q.cap }

/-- `count <- count + 1`, EXPLICIT variant only (rule R80). -/
def RingBuf.countUp (v : RbVariant) (q : RingBuf) : RingBuf :=
  match v with
  | .explicit => { q with count := q.count + 1 }
  | .derived => q

/-- `count <- count - 1`, EXPLICIT variant only (rule R80). -/
def RingBuf.countDown (v : RbVariant) (q : RingBuf) : RingBuf :=
  match v with
  | .explicit => { q with count := q.count - 1 }
  | .derived => q

/-- `Init(rb, cap)` (rule R132); the slots are not written (rule R21), and `count` is, in the EXPLICIT variant only. -/
def RingBuf.init (v : RbVariant) (c : Idx) (q : RingBuf) : RingBuf :=
  { q with
    cap := c, head := 0, tail := 0, bound := true
    count := match v with
      | .explicit => 0
      | .derived => q.count }

/-- SE.INIT's return of a ring buffer to the unbound state (rule R170); the slots are not written. -/
def RingBuf.unbind (q : RingBuf) : RingBuf :=
  { q with bound := false, cap := 0, head := 0, tail := 0, count := 0 }

/-- Every ring-buffer operation but RB.INIT requires a bound buffer (rule R131). -/
def requireBound {α : Type} (q : RingBuf) (k : Result α) : Result α :=
  refuseIf (!q.bound) .unbound k

/-- `Push(rb, b)` (rule R144): the buffer after it, and whether it succeeded. -/
def RingBuf.push (P : Params) (id : BufId) (b : Byte) (q : RingBuf) : Result (RingBuf × Bool) :=
  requireBound q <|
    if q.isFull P.variant then .next (q, false)
    else andThen (memWrite P id q q.head b) fun q' => .next (q'.advanceHead.countUp P.variant, true)

/-- `Pop(rb)` (rule R148): the buffer after it, and the byte. -/
def RingBuf.pop (P : Params) (id : BufId) (q : RingBuf) : Result (RingBuf × Byte) :=
  requireBound q <|
    if q.isEmpty P.variant then .next (q, defaultByte)
    else andThen (memRead P id q q.tail) fun v => .next (q.advanceTail.countDown P.variant, v)

/-- `Peek(rb)` (rule R140): the byte. -/
def RingBuf.peek (P : Params) (id : BufId) (q : RingBuf) : Result Byte :=
  requireBound q <|
    if q.isEmpty P.variant then .next defaultByte
    else memRead P id q q.tail

/-! ### The port hardware -/

/-- `TxWrite(se, b)` (rule R37). -/
def SerialEngine.txWrite (e : SerialEngine) (b : Byte) : Result SerialEngine :=
  if e.txReady then .next { e with txBuf := b, txReady := false } else .fault .txOverwrite

/-- `RxRead(se)` (rule R38): the engine after it, and the byte. -/
def SerialEngine.rxRead (e : SerialEngine) : SerialEngine × Byte :=
  ({ e with rxFull := false }, e.rxBuf)

/-- Part 1 of SE.INIT (rule R170): the engine and the port hardware back to the reset state; `cfg`, `cfgErr`,
`tx_buf`, `rx_buf`, the slots and the traces stay. -/
def SerialEngine.restart (e : SerialEngine) : SerialEngine :=
  { e with
    txIe := false, rxIe := false, transmitting := false, txReady := true, rxFull := false, rxOvr := false
    rxDrop := 0, txq := e.txq.unbind, rxq := e.rxq.unbind, inited := false }

/-- Part 3 of SE.INIT (rule R170): configure, and construct both ring buffers. -/
def SerialEngine.configure (P : Params) (c : SerialConfig) (e : SerialEngine) : SerialEngine :=
  { e with
    cfg := c, txq := e.txq.init P.variant P.txCap, rxq := e.rxq.init P.variant P.rxCap
    cfgErr := false, inited := true }

/-! ### The command interface -/

/-- `respond(b0, b1, ...)`: a response on the port of the command being executed (rule R108). -/
def State.respond (s : State) (bytes : List Byte) : State :=
  { s with responses := s.responses ++ [{ port := s.issue.port, bytes := bytes }] }

/-- The state with another RB unit. -/
def State.withRb (s : State) (q : RingBuf) : State := { s with rb := q }

/-- The state with another SE unit. -/
def State.withSe (s : State) (e : SerialEngine) : State := { s with se := e }

/-- The state with another outbound buffer. -/
def State.withTxq (s : State) (q : RingBuf) : State := { s with se := { s.se with txq := q } }

/-- The state with another inbound buffer. -/
def State.withRxq (s : State) (q : RingBuf) : State := { s with se := { s.se with rxq := q } }

/-- The state with another foreground operation in progress. -/
def State.withFg (s : State) (f : Option Progress) : State := { s with fg := f }

/-- Whether the foreground is between two micro-steps of an operation on buffer `id` (rule R28). -/
def State.inProgressOn (s : State) (id : BufId) : Bool :=
  match s.fg with
  | some f => microBuf f.op == id
  | none => false

/-- RB.INIT while an operation on the same buffer is in progress (rule R135). -/
def initDuringOperation (i : Instr) (s : State) : Bool :=
  match i with
  | .rbInit _ => s.inProgressOn .rb
  | _ => false

/-- Why the port turns a command away before its own rule is looked at (rules R101, R224, R238), if it does: the port
does not accept the operation; the agent does not own the port; the foreground has a command in progress; RB.INIT on a
buffer that is not quiescent. The order and the reasons are log entry 9. -/
def admissionRefusal (i : Instr) (s : State) : Option Refusal :=
  if !(portsOf i).contains s.issue.port then some .wrongPort
  else if s.issue.agent ≠ portOwner s.params s.issue.port then
    some (if isRbPort s.issue.port then .role else .wrongPort)
  else if s.issue.agent = .fg ∧ s.fg.isSome then some .role
  else if initDuringOperation i s then some .role
  else none

/-- Run `k` where the port admits the command. -/
def whenAdmitted (i : Instr) (s : State) (k : Result State) : Result State :=
  match admissionRefusal i s with
  | some r => .refused r
  | none => k

/-- The engine's foreground operations need a successful SE.INIT before them (rule R35). -/
def requireInited (s : State) (k : Result State) : Result State :=
  refuseIf (!s.se.inited) .notInited k

/-- Taking an interrupt, and the return from it, as one shared operation. The handler runs only where its condition
holds (rule R228). Entry saves nothing and changes nothing, the foreground's operation in progress included (rule
R234); the handler's end is the return, and nothing is restored (rule R236). -/
def runHandler (enabled : Bool) (handler : State → Result State) (s : State) : Result State :=
  refuseIf (!enabled) .notEnabled (handler s)

end Sys2Proof.Machine
end

