-- ==== Sys2Proof/Machine/Foreground.lean ====
section
/-! DEFINITION. The nine foreground operations of the SE unit (41_engine_foreground_ops.md), each one atomic step. -/

namespace Sys2Proof.Machine

/-- SE.INIT (rules R170, R171): restart, validate, then configure or answer CFGERR. -/
def execSeInit (p0 p1 p2 p3 p4 p5 p6 p7 : Byte) (s : State) : Result State :=
  whenAdmitted (.seInit p0 p1 p2 p3 p4 p5 p6 p7) s <|
    .next <|
      if configValid s.params p0 p1 p2 p3 p4 p7 then
        (s.withSe (s.se.restart.configure s.params
          { clockSource := p0, baudDivisorLow := p1, baudDivisorHigh := p2, modulationA := p3, modulationB := p4
            parityMode := p5, bitOrder := p6, oversamplingMode := p7 })).respond [ccDone]
      else (s.withSe { s.se.restart with cfgErr := true }).respond [ccCfgErr]

/-- SE.SEND, one attempt (rule R172): Idle writes directly, Draining enqueues, a full buffer holds the command. -/
def execSeSend (b : Byte) (s : State) : Result State :=
  whenAdmitted (.seSend b) s <| requireInited s <|
    if !s.se.transmitting then
      andThen (s.se.txWrite b) fun e =>
        .next ((s.withSe { e with transmitting := true, txIe := true }).respond [ccDone])
    else if !s.se.txq.isFull s.params.variant then
      andThen (s.se.txq.push s.params .txq b) fun r => .next ((s.withTxq r.1).respond [ccDone])
    else .next (s.respond [ccHeld])

/-- SE.RECV (rule R174). -/
def execSeRecv (s : State) : Result State :=
  whenAdmitted .seRecv s <| requireInited s <|
    andThen (s.se.rxq.pop s.params .rxq) fun r => .next ((s.withRxq r.1).respond [ccDone, r.2])

/-- SE.EI (rule R176). -/
def execSeEi (s : State) : Result State :=
  whenAdmitted .seEi s <| requireInited s <|
    .next ((s.withSe { s.se with rxIe := true }).respond [ccDone])

/-- SE.DI (rule R177): clears the enable, as the document rules, not as the source's code does (C3). -/
def execSeDi (s : State) : Result State :=
  whenAdmitted .seDi s <| requireInited s <|
    .next ((s.withSe { s.se with rxIe := false }).respond [ccDone])

/-- SE.RXEMPTY (rule R178). -/
def execSeRxempty (s : State) : Result State :=
  whenAdmitted .seRxempty s <| requireInited s <|
    .next (s.respond [ccDone, boolByte (s.se.rxq.isEmpty s.params.variant)])

/-- SE.STATUS (rule R180), legal in every state. -/
def execSeStatus (s : State) : Result State :=
  whenAdmitted .seStatus s <| .next (s.respond [ccDone, s.se.status])

/-- SE.RXDROP (rule R182), legal in every state. -/
def execSeRxdrop (s : State) : Result State :=
  whenAdmitted .seRxdrop s <| .next (s.respond (ccDone :: idxBytes s.se.rxDrop))

/-- SE.CFGRD (rule R184): the index is tested before `inited`. -/
def execSeCfgrd (i : Byte) (s : State) : Result State :=
  whenAdmitted (.seCfgrd i) s <| refuseIf (decide (i.toNat > 7)) .cfgIndex <| requireInited s <|
    .next (s.respond [ccDone, s.se.cfg.byte i])

end Sys2Proof.Machine
end

