-- ==== Sys2Proof/Machine/RingBuffer.lean ====
section
/-! DEFINITION. The seven operations of the RB unit, each in its atomic definition (40_ring_buffer_ops.md): what an
interrupt-context caller and a script execute. The micro-step form is `Machine/Micro.lean`. -/

namespace Sys2Proof.Machine

/-- RB.INIT (rules R132, R134). -/
def execRbInit (cap : Idx) (s : State) : Result State :=
  whenAdmitted (.rbInit cap) s <|
    refuseIf (decide (cap.toNat > s.params.slots.toNat)) .capExceedsSlots <|
      .next ((s.withRb (s.rb.init s.params.variant cap)).respond [ccDone])

/-- RB.EMPTY (rule R136). -/
def execRbEmpty (s : State) : Result State :=
  whenAdmitted .rbEmpty s <| requireBound s.rb <|
    .next (s.respond [ccDone, boolByte (s.rb.isEmpty s.params.variant)])

/-- RB.FULL (rule R138). -/
def execRbFull (s : State) : Result State :=
  whenAdmitted .rbFull s <| requireBound s.rb <|
    .next (s.respond [ccDone, boolByte (s.rb.isFull s.params.variant)])

/-- RB.PEEK (rule R140). -/
def execRbPeek (s : State) : Result State :=
  whenAdmitted .rbPeek s <|
    andThen (s.rb.peek s.params .rb) fun v => .next (s.respond [ccDone, v])

/-- RB.PUSH (rule R144). -/
def execRbPush (b : Byte) (s : State) : Result State :=
  whenAdmitted (.rbPush b) s <|
    andThen (s.rb.push s.params .rb b) fun r => .next ((s.withRb r.1).respond [ccDone, boolByte r.2])

/-- RB.POP (rule R148). -/
def execRbPop (s : State) : Result State :=
  whenAdmitted .rbPop s <|
    andThen (s.rb.pop s.params .rb) fun r => .next ((s.withRb r.1).respond [ccDone, r.2])

/-- RB.OCC (rule R142). -/
def execRbOcc (s : State) : Result State :=
  whenAdmitted .rbOcc s <| requireBound s.rb <|
    .next (s.respond (ccDone :: idxBytes (BitVec.ofNat 16 (s.rb.occ s.params.variant))))

end Sys2Proof.Machine
end

