-- ==== Sys2Proof/Machine/Signals.lean ====
section
/-! DEFINITION. The two handlers and the two line events (42_engine_signal_ops.md), each one atomic step with no
response. -/

namespace Sys2Proof.Machine

/-- The pseudocode of SE.TXISR (rule R200): feed the next byte, or return to Idle. -/
def txDrain (s : State) : Result State :=
  if !s.se.txq.isEmpty s.params.variant then
    andThen (s.se.txq.pop s.params .txq) fun r =>
      andThen ((s.withTxq r.1).se.txWrite r.2) fun e => .next (s.withSe e)
  else .next (s.withSe { s.se with txIe := false, transmitting := false })

/-- SE.TXISR (rules R200, R228). -/
def execSeTxisr (s : State) : Result State :=
  whenAdmitted .seTxisr s <| runHandler s.se.txisrEnabled txDrain s

/-- The pseudocode of SE.RXISR (rule R204): push the byte, or count it as dropped. -/
def rxEnqueue (s : State) : Result State :=
  let e := s.se.rxRead.1
  andThen (e.rxq.push s.params .rxq s.se.rxRead.2) fun r =>
    .next <|
      if r.2 then s.withSe { e with rxq := r.1 }
      else s.withSe { e with rxDrop := satAdd1 e.rxDrop }

/-- SE.RXISR (rules R204, R228). -/
def execSeRxisr (s : State) : Result State :=
  whenAdmitted .seRxisr s <| runHandler s.se.rxisrEnabled rxEnqueue s

/-- LINE.TXDONE (rule R208). -/
def execLineTxdone (s : State) : Result State :=
  whenAdmitted .lineTxdone s <| refuseIf (!s.se.txdoneEnabled) .notEnabled <|
    .next (s.withSe { s.se with txLine := s.se.txLine ++ [s.se.txBuf], txReady := true })

/-- LINE.RXBYTE (rule R210): discarded before SE.INIT; an unread byte is overwritten and the overrun recorded. -/
def execLineRxbyte (b : Byte) (s : State) : Result State :=
  whenAdmitted (.lineRxbyte b) s <|
    .next <|
      if !s.se.inited then s
      else s.withSe
        { s.se with rxLine := s.se.rxLine ++ [b], rxOvr := s.se.rxOvr || s.se.rxFull, rxBuf := b, rxFull := true }

end Sys2Proof.Machine
end

