-- ==== Sys2Proof/Machine/Dispatch.lean ====
section
/-! DEFINITION. One arm an operation: its atomic meaning. -/

namespace Sys2Proof.Machine

def exec (i : Instr) (s : State) : Host.Outcome State Fault Refusal :=
  match i with
  | .rbInit cap => Sys2Proof.Machine.execRbInit cap s
  | .rbEmpty => Sys2Proof.Machine.execRbEmpty s
  | .rbFull => Sys2Proof.Machine.execRbFull s
  | .rbPeek => Sys2Proof.Machine.execRbPeek s
  | .rbPush b => Sys2Proof.Machine.execRbPush b s
  | .rbPop => Sys2Proof.Machine.execRbPop s
  | .rbOcc => Sys2Proof.Machine.execRbOcc s
  | .seInit p0 p1 p2 p3 p4 p5 p6 p7 => Sys2Proof.Machine.execSeInit p0 p1 p2 p3 p4 p5 p6 p7 s
  | .seSend b => Sys2Proof.Machine.execSeSend b s
  | .seRecv => Sys2Proof.Machine.execSeRecv s
  | .seEi => Sys2Proof.Machine.execSeEi s
  | .seDi => Sys2Proof.Machine.execSeDi s
  | .seRxempty => Sys2Proof.Machine.execSeRxempty s
  | .seStatus => Sys2Proof.Machine.execSeStatus s
  | .seRxdrop => Sys2Proof.Machine.execSeRxdrop s
  | .seCfgrd d => Sys2Proof.Machine.execSeCfgrd d s
  | .seTxisr => Sys2Proof.Machine.execSeTxisr s
  | .seRxisr => Sys2Proof.Machine.execSeRxisr s
  | .lineTxdone => Sys2Proof.Machine.execLineTxdone s
  | .lineRxbyte b => Sys2Proof.Machine.execLineRxbyte b s

end Sys2Proof.Machine
end

