-- ==== Sys2Proof/Machine/Fetch.lean ====
section
/-! DEFINITION. How a command reaches the machine: the bytes of an input, decoded, and the table's words laid out as an
input. -/

namespace Sys2Proof.Machine

/-- The decoder's errors as refusals (rules R107, R224). -/
def decodeRefusal : DecodeError → Refusal
  | .illegalOpcode => .illegalOpcode
  | .incomplete => .incomplete

/-- The operation that command bytes hold, and the bytes after it. -/
def fetch (bytes : List Byte) : Result (Instr × List Byte) :=
  match decode bytes with
  | .ok r => .next r
  | .error e => .refused (decodeRefusal e)

/-- A command presented on a port is latched as the one being executed (rule R100). Bytes that follow it are the
port's next command, and `again` presents them. -/
def State.present (s : State) (a : Agent) (p : Port) (rest : List Byte) (again : List Byte → Input) : State :=
  { s with
    issue := { agent := a, port := p }
    inputs := match rest with
      | [] => s.inputs
      | b :: bs => again (b :: bs) :: s.inputs }

/-- The port on which an operation is presented by `withFetchWord`: the first that accepts it (rule R101). -/
def homePort (i : Instr) : Port :=
  match portsOf i with
  | [] => .seForeground
  | p :: _ => p

/-- The bytes of the one command that a list of bytes begins with; a reserved opcode is one byte long (rule R110). -/
def firstCommand (bytes : List Byte) : List Byte :=
  match decode bytes with
  | .ok (i, _) => bytes.take i.format.length
  | .error _ => bytes.take 1

/-- The input that presents the command of a table word, by the agent that owns its port. -/
def tableInput (P : Config.Params) (nbits w : Nat) : Input :=
  match decodeTableWord nbits w with
  | some i => .command (portOwner P (homePort i)) (homePort i) (firstCommand (tableBytes nbits w))
  | none => .command .fg .seForeground (firstCommand (tableBytes nbits w))

end Sys2Proof.Machine
end

