-- ==== Sys2Proof/Machine/Micro.lean ====
section
/-! DEFINITION. The micro-step form of the foreground's ring-buffer operations (rules R78, R146, R150, R151): beginning
one, and taking its next micro-step. -/

namespace Sys2Proof.Machine

open Sys2Proof.Config

/-- The condition an operation's own rule tests before anything else (rules R131, R174). -/
def requireReady (op : MicroOp) (s : State) (k : Result State) : Result State :=
  match op with
  | .push _ => requireBound s.rb k
  | .pop => requireBound s.rb k
  | .peek => requireBound s.rb k
  | .empty => requireBound s.rb k
  | .full => requireBound s.rb k
  | .occ => requireBound s.rb k
  | .recv => requireInited s (requireBound s.se.rxq k)

/-- FG begins a micro-stepped operation: every refusal is raised here, before any state is written (rule R224), and
the first micro-step is still to come (rule R31). -/
def beginMicro (i : Instr) (op : MicroOp) (s : State) : Result State :=
  whenAdmitted i s <| requireReady op s <|
    .next (s.withFg (some { op := op, port := s.issue.port, upc := .u1, flag := false, val := defaultByte }))

/-- The last micro-step of an operation: respond on its port, and no operation is in progress. -/
def State.finish (s : State) (f : Progress) (bytes : List Byte) : State :=
  { s with fg := none, responses := s.responses ++ [{ port := f.port, bytes := bytes }] }

/-- The buffer under its name. -/
def State.buf (s : State) : BufId → RingBuf
  | .rb => s.rb
  | .txq => s.se.txq
  | .rxq => s.se.rxq

/-- The state with another buffer of that name. -/
def State.withBuf (s : State) (id : BufId) (q : RingBuf) : State :=
  match id with
  | .rb => s.withRb q
  | .txq => s.withTxq q
  | .rxq => s.withRxq q

/-- P1 to P4 of RB.PUSH (rule R146). In the DERIVED variant P3 publishes and there is no P4. -/
def microPush (b : Byte) (f : Progress) (s : State) : Result State :=
  match f.upc with
  | .u1 =>
    let flag := s.rb.isFull s.params.variant
    .next (if flag then s.finish f [ccDone, boolByte false] else s.withFg (some { f with flag := flag, upc := .u2 }))
  | .u2 =>
    andThen (memWrite s.params .rb s.rb s.rb.head b) fun q =>
      .next ((s.withRb q).withFg (some { f with upc := .u3 }))
  | .u3 =>
    let s' := s.withRb s.rb.advanceHead
    .next <| match s.params.variant with
      | .explicit => s'.withFg (some { f with upc := .u4 })
      | .derived => s'.finish f [ccDone, boolByte true]
  | .u4 =>
    match s.params.variant with
    | .explicit => .next ((s.withRb (s.rb.countUp .explicit)).finish f [ccDone, boolByte true])
    | .derived => .refused .notEnabled

/-- C1 to C4 of RB.POP, and of SE.RECV on `rxq` (rules R150, R174). In the DERIVED variant C3 releases and there is
no C4. -/
def microPop (id : BufId) (f : Progress) (s : State) : Result State :=
  match f.upc with
  | .u1 =>
    let flag := (s.buf id).isEmpty s.params.variant
    .next (if flag then s.finish f [ccDone, defaultByte] else s.withFg (some { f with flag := flag, upc := .u2 }))
  | .u2 =>
    andThen (memRead s.params id (s.buf id) (s.buf id).tail) fun v =>
      .next (s.withFg (some { f with val := v, upc := .u3 }))
  | .u3 =>
    let s' := s.withBuf id (s.buf id).advanceTail
    .next <| match s.params.variant with
      | .explicit => s'.withFg (some { f with upc := .u4 })
      | .derived => s'.finish f [ccDone, f.val]
  | .u4 =>
    match s.params.variant with
    | .explicit => .next ((s.withBuf id ((s.buf id).countDown .explicit)).finish f [ccDone, f.val])
    | .derived => .refused .notEnabled

/-- K1 and K2 of RB.PEEK (rule R151). -/
def microPeek (f : Progress) (s : State) : Result State :=
  match f.upc with
  | .u1 =>
    let flag := s.rb.isEmpty s.params.variant
    .next (if flag then s.finish f [ccDone, defaultByte] else s.withFg (some { f with flag := flag, upc := .u2 }))
  | .u2 => andThen (memRead s.params .rb s.rb s.rb.tail) fun v => .next (s.finish f [ccDone, v])
  | .u3 => .refused .notEnabled
  | .u4 => .refused .notEnabled

/-- The one micro-step of RB.EMPTY, RB.FULL and RB.OCC (rule R151). -/
def microQuery (bytes : List Byte) (f : Progress) (s : State) : Result State :=
  match f.upc with
  | .u1 => .next (s.finish f bytes)
  | .u2 => .refused .notEnabled
  | .u3 => .refused .notEnabled
  | .u4 => .refused .notEnabled

/-- FG takes the next micro-step of its operation in progress (rule R31); with none in progress it has no such step. -/
def microStep (s : State) : Result State :=
  match s.fg with
  | none => .refused .notEnabled
  | some f =>
    match f.op with
    | .push b => microPush b f s
    | .pop => microPop .rb f s
    | .peek => microPeek f s
    | .empty => microQuery [ccDone, boolByte (s.rb.isEmpty s.params.variant)] f s
    | .full => microQuery [ccDone, boolByte (s.rb.isFull s.params.variant)] f s
    | .occ => microQuery (ccDone :: idxBytes (BitVec.ofNat 16 (s.rb.occ s.params.variant))) f s
    | .recv => microPop .rxq f s

end Sys2Proof.Machine
end

