-- ==== Sys2Proof/Machine/Step.lean ====
section
/-! DEFINITION. One step: the environment's next input, performed (rules R79, R113). With no input nothing executes
(rule R260). -/

namespace Sys2Proof.Machine

/-- FG presents an operation preemptibly: one that has micro-steps begins, any other is one atomic step (rule R78). -/
def startInstr (i : Instr) (s : State) : Result State :=
  match microOpOf i with
  | some op => beginMicro i op s
  | none => exec i s

/-- Perform one input. -/
def perform (x : Input) (s : State) : Result State :=
  match x with
  | .command a p bytes => andThen (fetch bytes) fun r => exec r.1 (s.present a p r.2 (.command a p))
  | .start p bytes => andThen (fetch bytes) fun r => startInstr r.1 (s.present .fg p r.2 (.start p))
  | .resume => microStep s

/-- One step of the machine. -/
def step (s : State) : Host.Outcome State Fault Refusal :=
  match s.inputs with
  | [] => .next s
  | x :: rest => perform x { s with inputs := rest }

/-- The state with a word of the opcode table as the environment's next input, presented on the port that accepts it
by the agent that owns that port; log entry 6. -/
def State.withFetchWord (s : State) (nbits w : Nat) : State :=
  { s with inputs := tableInput s.params nbits w :: s.inputs }

end Sys2Proof.Machine
end

