-- ==== Sys2Proof/Safety.lean ====
section
/-! DEFINITION. What the statements are made of: the contents of a ring buffer (rule R29), the invariants (rules R27,
R43, R45, R46), the presented command, runs of inputs, and the ledgers that the ordering rules R27 (d), R47 and R48
speak of. -/

namespace Sys2Proof.Machine

open Sys2Proof.Config

/-! ### A command that its port admits -/

/-- The command being executed arrived on port `p` from the agent that owns it (rule R101), and an owner that is the
foreground has no operation in progress (one command at a time, rule R286). -/
def State.Presented (s : State) (p : Port) : Prop :=
  s.issue = { agent := portOwner s.params p, port := p } ∧ (portOwner s.params p = .fg → s.fg = none)

/-! ### Ring buffers -/

/-- The slot that holds the `k`-th oldest byte. -/
def RingBuf.slotAt (q : RingBuf) (k : Nat) : Nat := (q.tail.toNat + k) % q.cap.toNat

/-- `Contents(rb)` (rule R29). -/
def RingBuf.contents (P : Params) (id : BufId) (q : RingBuf) : List Byte :=
  (List.range (q.occ P.variant)).map fun k => slotByte id q.slots (q.slotAt k)

/-- What holds of a ring buffer at every state: the canonical form of its slots, rule R22 (the capacity fits), rule
R27 (a) and (b), and the reset registers of an unbound buffer (rules R20, R170). -/
structure RingBuf.Sound (P : Params) (id : BufId) (q : RingBuf) : Prop where
  canonical    : Memory.wf q.slots
  inside       : ∀ c ∈ q.slots, c.1 < (slotsOf P id).toNat
  capFits      : q.cap.toNat ≤ (slotsOf P id).toNat
  indices      : 0 < q.cap.toNat → q.head.toNat < q.cap.toNat ∧ q.tail.toNat < q.cap.toNat
  degenerate   : q.cap = 0 → q.head = 0 ∧ q.tail = 0
  counted      : P.variant = .explicit → q.count.toNat ≤ q.cap.toNat
  uncounted    : P.variant = .derived → q.count = 0
  unboundReset : q.bound = false → q.cap = 0 ∧ q.head = 0 ∧ q.tail = 0 ∧ q.count = 0

/-- Rule R27 (c), with `w` bytes written and not yet counted by a push in progress and `r` bytes read and still
counted by a pop in progress; at a quiescent state both are 0. The DERIVED variant has no counter to lag behind. -/
structure RingBuf.Linked (P : Params) (w r : Nat) (q : RingBuf) : Prop where
  room    : P.variant = .explicit → q.count.toNat + w ≤ q.cap.toNat ∧ r ≤ q.count.toNat
  head    : P.variant = .explicit → 0 < q.cap.toNat →
    q.head.toNat = (q.tail.toNat + (q.count.toNat + w - r)) % q.cap.toNat
  written : ∀ k < q.occ P.variant + w - r, Memory.read? q.slots (q.slotAt k) ≠ none

/-! ### The foreground's operation in progress -/

/-- Bytes that a push in progress has written behind `head` and not yet counted (between P3 and P4, rule R146). -/
def uncountedPush (v : RbVariant) : Option Progress → Nat
  | some { op := .push _, port := _, upc := .u4, flag := _, val := _ } =>
    match v with
    | .explicit => 1
    | .derived => 0
  | _ => 0

/-- Bytes that a pop in progress on buffer `id` has passed with `tail` and not yet released (between C3 and C4,
rule R150). -/
def unreleasedPop (v : RbVariant) (id : BufId) : Option Progress → Nat
  | some { op := .pop, port := _, upc := .u4, flag := _, val := _ } =>
    match v, id with
    | .explicit, .rb => 1
    | _, _ => 0
  | some { op := .recv, port := _, upc := .u4, flag := _, val := _ } =>
    match v, id with
    | .explicit, .rxq => 1
    | _, _ => 0
  | _ => 0

/-- What each position of a push in progress knows (rules R82, R83). -/
def PushKnows (P : Params) (q : RingBuf) (b : Byte) : Upc → Prop
  | .u1 => True
  | .u2 => q.isFull P.variant = false
  | .u3 => q.isFull P.variant = false ∧ Memory.read? q.slots q.head.toNat = some b
  | .u4 => P.variant = .explicit

/-- What each position of a pop in progress knows (rules R82, R83). -/
def PopKnows (P : Params) (q : RingBuf) (v : Byte) : Upc → Prop
  | .u1 => True
  | .u2 => q.isEmpty P.variant = false
  | .u3 => q.isEmpty P.variant = false ∧ Memory.read? q.slots q.tail.toNat = some v
  | .u4 => P.variant = .explicit

/-- The operation in progress is one its port accepts, and stands at one of its own micro-steps (rules R146, R150,
R151). -/
def ProgressKnows (s : State) (f : Progress) : Prop :=
  match f.op with
  | .push b => f.port = .rbProducer ∧ s.rb.bound = true ∧ PushKnows s.params s.rb b f.upc
  | .pop => f.port = .rbConsumer ∧ s.rb.bound = true ∧ PopKnows s.params s.rb f.val f.upc
  | .peek => f.port = .rbConsumer ∧ s.rb.bound = true ∧
      (f.upc = .u1 ∨ f.upc = .u2 ∧ s.rb.isEmpty s.params.variant = false)
  | .empty => isRbPort f.port = true ∧ s.rb.bound = true ∧ f.upc = .u1
  | .full => isRbPort f.port = true ∧ s.rb.bound = true ∧ f.upc = .u1
  | .occ => isRbPort f.port = true ∧ s.rb.bound = true ∧ f.upc = .u1
  | .recv => f.port = .seForeground ∧ s.se.inited = true ∧ PopKnows s.params s.se.rxq f.val f.upc

/-! ### The engine -/

/-- Rules R43 (a), (b), R45 and R46. -/
structure EngineSound (s : State) : Prop where
  enabled  : s.se.txIe = s.se.transmitting
  idle     : s.se.transmitting = false → s.se.txq.isEmpty s.params.variant = true ∧ s.se.txReady = true
  before   : s.se.inited = false →
    s.se.transmitting = false ∧ s.se.rxIe = false ∧ s.se.txReady = true ∧ s.se.rxFull = false ∧
      s.se.rxOvr = false ∧ s.se.rxDrop = 0 ∧ s.se.txq.bound = false ∧ s.se.rxq.bound = false
  after    : s.se.inited = true →
    s.se.cfgErr = false ∧ s.se.txq.bound = true ∧ s.se.rxq.bound = true ∧
      s.se.txq.cap = s.params.txCap ∧ s.se.rxq.cap = s.params.rxCap
  usable   : s.se.inited = true →
    1 ≤ usableOf s.params.variant s.params.txCap ∧ 1 ≤ usableOf s.params.variant s.params.rxCap

/-- The invariant of the machine. -/
structure State.Inv (s : State) : Prop where
  rbSound  : s.rb.Sound s.params .rb
  txSound  : s.se.txq.Sound s.params .txq
  rxSound  : s.se.rxq.Sound s.params .rxq
  rbLinked : s.rb.Linked s.params (uncountedPush s.params.variant s.fg) (unreleasedPop s.params.variant .rb s.fg)
  txLinked : s.se.txq.Linked s.params 0 0
  rxLinked : s.se.rxq.Linked s.params 0 (unreleasedPop s.params.variant .rxq s.fg)
  engine   : EngineSound s
  progress : ∀ f, s.fg = some f → portOwner s.params f.port = .fg ∧ ProgressKnows s f

/-! ### What a step performs -/

/-- The operation that the next step executes as one atomic step: a command, or a start of an operation that has no
micro-steps. -/
def State.performs (s : State) : Option Instr :=
  match s.inputs with
  | .command _ _ bytes :: _ =>
    match decode bytes with
    | .ok (i, _) => some i
    | .error _ => none
  | .start _ bytes :: _ =>
    match decode bytes with
    | .ok (i, _) => if (microOpOf i).isNone then some i else none
    | .error _ => none
  | _ => none

/-- The operation in progress whose next micro-step the next step takes. -/
def State.resumes (s : State) : Option Progress :=
  match s.inputs with
  | .resume :: _ => s.fg
  | _ => none

/-- Whether the next step is an SE.INIT. -/
def State.initsEngine (s : State) : Bool :=
  match s.performs with
  | some (.seInit _ _ _ _ _ _ _ _) => true
  | _ => false

/-- Whether the next step is an RB.INIT. -/
def State.initsBuffer (s : State) : Bool :=
  match s.performs with
  | some (.rbInit _) => true
  | _ => false

/-- Whether the next step belongs to an RB.PUSH, atomic or in micro-steps. -/
def State.pushes (s : State) : Bool :=
  match s.performs, s.resumes with
  | some (.rbPush _), _ => true
  | _, some { op := .push _, port := _, upc := _, flag := _, val := _ } => true
  | _, _ => false

/-- Whether the next step belongs to an RB.POP, atomic or in micro-steps. -/
def State.pops (s : State) : Bool :=
  match s.performs, s.resumes with
  | some .rbPop, _ => true
  | _, some { op := .pop, port := _, upc := _, flag := _, val := _ } => true
  | _, _ => false

/-- Whether the next step belongs to an SE.RECV, atomic or in micro-steps. -/
def State.receives (s : State) : Bool :=
  match s.performs, s.resumes with
  | some .seRecv, _ => true
  | _, some { op := .recv, port := _, upc := _, flag := _, val := _ } => true
  | _, _ => false

/-- The bytes of the last response. -/
def State.lastResponse (s : State) : List Byte :=
  match s.responses.getLast? with
  | some r => r.bytes
  | none => []

/-- The first result byte of the last response. -/
def State.lastResult (s : State) : Byte := s.lastResponse.getD 1 defaultByte

/-- The slot an atomic operation stores a byte to, as its meaning computes it: `head` of the buffer it pushes to, where
that buffer is not full (rules R71, R144, R172, R204). Every other operation stores to no slot. -/
def storedSlot (i : Instr) (s : State) : Option (BufId × Nat) :=
  match i with
  | .rbPush _ => if s.rb.isFull s.params.variant then none else some (.rb, s.rb.head.toNat)
  | .seSend _ =>
    if s.se.transmitting && !s.se.txq.isFull s.params.variant then some (.txq, s.se.txq.head.toNat) else none
  | .seRxisr => if s.se.rxq.isFull s.params.variant then none else some (.rxq, s.se.rxq.head.toNat)
  | _ => none

/-- The byte it stores there. -/
def storedByte (i : Instr) (s : State) : Byte :=
  match i with
  | .rbPush b => b
  | .seSend b => b
  | _ => s.se.rxBuf

/-! ### Runs -/

/-- Perform inputs one after another, stopping at the first stop. -/
def performAll : List Input → State → Result State
  | [], s => .next s
  | x :: xs, s => andThen (perform x s) (performAll xs)

/-- An operation as a whole command on a port. -/
def commandOf (a : Agent) (p : Port) (i : Instr) : Input := .command a p (encode i)

/-- Commands of the interrupt context and of the line, as inputs. -/
def background (l : List (Bool × Port × Instr)) : List Input :=
  l.map fun x => commandOf (if x.1 then .irq else .line) x.2.1 x.2.2

/-- The schedule of a foreground operation with a gap before each of its micro-steps. -/
def preempted (gaps : List (List (Bool × Port × Instr))) : List Input :=
  gaps.flatMap fun g => background g ++ [.resume]

/-- `n` steps with a ledger kept beside the state; `none` if a step stops. -/
def ledgerRun {α : Type} (enter : α → State → State → α) : Nat → α → State → Option (α × State)
  | 0, l, s => some (l, s)
  | n + 1, l, s =>
    match step s with
    | .next s' => ledgerRun enter n (enter l s s') s'
    | _ => none

/-- Two states that differ at most in the latch, the pending inputs and the order of responses given on different
ports. -/
def SameButSchedule (s t : State) : Prop :=
  s.params = t.params ∧ s.rb = t.rb ∧ s.se = t.se ∧ s.fg = t.fg ∧
    ∀ p : Port, (s.responses.filter fun r => r.port = p) = (t.responses.filter fun r => r.port = p)

/-! ### Ledgers -/

/-- The bytes successfully pushed to the RB unit, and the bytes its pops returned, since the last RB.INIT. -/
structure RbLedger where
  pushed : List Byte
  popped : List Byte
  deriving DecidableEq, Repr

/-- Enter one step from `s` to `s'`. A push that began on a full buffer and a pop that began on an empty one move no
byte; a micro-stepped operation is entered at its last micro-step. -/
def RbLedger.enter (l : RbLedger) (s s' : State) : RbLedger :=
  match s.performs, s.resumes with
  | some (.rbInit _), _ => { pushed := [], popped := [] }
  | some (.rbPush b), _ =>
    if s.rb.isFull s.params.variant then l else { l with pushed := l.pushed ++ [b] }
  | some .rbPop, _ =>
    if s.rb.isEmpty s.params.variant then l else { l with popped := l.popped ++ [s'.lastResult] }
  | _, some f =>
    if f.upc ≠ .u1 ∧ s'.fg = none then
      match f.op with
      | .push b => { l with pushed := l.pushed ++ [b] }
      | .pop => { l with popped := l.popped ++ [s'.lastResult] }
      | _ => l
    else l
  | _, _ => l

/-- `Sent` and `L0` of rule R47. -/
structure TxLedger where
  sent  : List Byte
  start : Nat
  deriving DecidableEq, Repr

/-- Enter one step: a successful SE.INIT starts a new ledger, an SE.SEND that completed with DONE adds its byte. -/
def TxLedger.enter (l : TxLedger) (s s' : State) : TxLedger :=
  match s.performs with
  | some (.seInit _ _ _ _ _ _ _ _) =>
    if s'.se.inited then { sent := [], start := s'.se.txLine.length } else l
  | some (.seSend b) => if s'.lastResponse = [ccDone] then { l with sent := l.sent ++ [b] } else l
  | _ => l

/-- `InFlight` of rule R47. -/
def State.inFlight (s : State) : List Byte := if s.se.txReady then [] else [s.se.txBuf]

/-- The receive side of rule R48: the bytes that SE.RECV returned from a non-empty `rxq`, the arrivals that overwrote
an unread byte, the bytes SE.RXISR dropped, and the length of `rx_line`, since the last successful SE.INIT. -/
structure RxLedger where
  got         : List Byte
  overwritten : Nat
  dropped     : Nat
  start       : Nat
  deriving DecidableEq, Repr

/-- Enter one step. -/
def RxLedger.enter (l : RxLedger) (s s' : State) : RxLedger :=
  match s.performs, s.resumes with
  | some (.seInit _ _ _ _ _ _ _ _), _ =>
    if s'.se.inited then { got := [], overwritten := 0, dropped := 0, start := s'.se.rxLine.length } else l
  | some .seRecv, _ =>
    if s.se.rxq.isEmpty s.params.variant then l else { l with got := l.got ++ [s'.lastResult] }
  | some (.lineRxbyte _), _ =>
    if s.se.inited && s.se.rxFull then { l with overwritten := l.overwritten + 1 } else l
  | some .seRxisr, _ =>
    if s.se.rxq.isFull s.params.variant then { l with dropped := l.dropped + 1 } else l
  | _, some f =>
    if f.op = .recv ∧ f.upc ≠ .u1 ∧ s'.fg = none then { l with got := l.got ++ [s'.lastResult] } else l
  | _, _ => l

/-- The byte waiting in the input register (rule R48). -/
def State.waiting (s : State) : List Byte := if s.se.rxFull then [s.se.rxBuf] else []

/-- `drained` (rule R284). -/
def State.Drained (s : State) : Prop :=
  s.se.transmitting = false ∧ s.se.rxFull = false ∧ s.fg = none

end Sys2Proof.Machine
end

