-- ==== Sys2Proof/Certificates/Slice0/Obligations.lean ====
section
/-! DEFINITION. The statements for the provers. Each docstring names the rules of spec/ it formalises; "derived" says
that the rule is the spec's own derivation or inference, or that a clause is this model's choice, with its log entry. -/

open Sys2Proof Sys2Proof.Machine Sys2Proof.Config

/-! ### Encoding and the step -/

/-- Derived from rules R79, R100, R113, R260. What a step is: the decoded operation on the state with the command
latched and its bytes taken; a micro-step; or nothing where the environment has no input. The inputs are the model's
(log entry 6). -/
def Obligations.StepRunsDecodedCommand : Prop :=
  ∀ (s : State) (a : Agent) (p : Port) (bytes rest : List Byte) (i : Instr) (xs : List Input),
    decode bytes = .ok (i, rest) →
    (s.inputs = .command a p bytes :: xs →
      step s = exec i { s with
        issue := { agent := a, port := p }
        inputs := if rest = [] then xs else .command a p rest :: xs }) ∧
    (s.inputs = .start p bytes :: xs → microOpOf i = none →
      step s = exec i { s with
        issue := { agent := .fg, port := p }
        inputs := if rest = [] then xs else .start p rest :: xs }) ∧
    (∀ op, s.inputs = .start p bytes :: xs → microOpOf i = some op →
      step s = beginMicro i op { s with
        issue := { agent := .fg, port := p }
        inputs := if rest = [] then xs else .start p rest :: xs }) ∧
    (s.inputs = .resume :: xs → step s = microStep { s with inputs := xs }) ∧
    (s.inputs = [] → step s = .next s)

/-- Rule R106. One word of each format and of each unit, written out from the opcode map. -/
def Obligations.WordsOfTheOpcodeMapDecode : Prop :=
  decode [0b00000000#8, 0b00000010#8, 0b00000001#8] = .ok (.rbInit 258, []) ∧
  decode [0b00000001#8] = .ok (.rbEmpty, []) ∧
  decode [0b00000100#8, 0b01000001#8] = .ok (.rbPush 0x41, []) ∧
  decode [0b10000000#8, 1, 2, 3, 4, 5, 6, 7, 8] = .ok (.seInit 1 2 3 4 5 6 7 8, []) ∧
  decode [0b10000001#8, 0b01000001#8] = .ok (.seSend 0x41, []) ∧
  decode [0b10001000#8, 0b00000110#8] = .ok (.seCfgrd 6, []) ∧
  decode [0b10010000#8] = .ok (.seTxisr, []) ∧
  decode [0b10100001#8, 0b00010000#8] = .ok (.lineRxbyte 0x10, [])

/-- Rules R104 to R106, R110. Decoding an encoded operation gives it back, with every operand at every value, and
leaves the bytes that follow. -/
def Obligations.DecodeInvertsEncode : Prop :=
  ∀ (i : Instr) (rest : List Byte), decode (encode i ++ rest) = .ok (i, rest)

/-- Rules R104 to R106, R110. Each command has one encoding: what decodes to an operation is its encoding. -/
def Obligations.EncodeInvertsDecode : Prop :=
  ∀ (bytes rest : List Byte) (i : Instr), decode bytes = .ok (i, rest) → bytes = encode i ++ rest

/-- Rule R107. The reserved opcodes are exactly the listed ones and a step on one is refused; SE.CFGRD's index is
the one illegal operand; RB.INIT with too large a capacity is a legal encoding whose execution is refused. -/
def Obligations.ReservedEncodingsAreRefused : Prop :=
  (∀ (op : Byte) (rest : List Byte), decode (op :: rest) = .error .illegalOpcode ↔
    0x07 ≤ op.toNat ∧ op.toNat ≤ 0x7F ∨ 0x89 ≤ op.toNat ∧ op.toNat ≤ 0x8F ∨
      0x92 ≤ op.toNat ∧ op.toNat ≤ 0x9F ∨ 0xA2 ≤ op.toNat) ∧
  (∀ (s : State) (a : Agent) (p : Port) (bytes : List Byte) (xs : List Input),
    decode bytes = .error .illegalOpcode →
    s.inputs = .command a p bytes :: xs ∨ s.inputs = .start p bytes :: xs → step s = .refused .illegalOpcode) ∧
  (∀ i : Instr, i.wellFormed = false ↔ ∃ d : Byte, i = .seCfgrd d ∧ 7 < d.toNat) ∧
  (∀ (s : State) (d : Byte), s.Presented .seForeground → 7 < d.toNat →
    exec (.seCfgrd d) s = .refused .cfgIndex) ∧
  (∀ (s : State) (cap : Idx) (p : Port), p = .rbProducer ∨ p = .rbConsumer → s.Presented p →
    s.inProgressOn .rb = false → s.params.slots.toNat < cap.toNat →
    decode (encode (.rbInit cap)) = .ok (.rbInit cap, []) ∧ exec (.rbInit cap) s = .refused .capExceedsSlots)

/-! ### Reset and the invariant -/

/-- Rule R260. What reset leaves, where the rule gives a value; nothing executes without a command. -/
def Obligations.ResetLeavesIdle : Prop :=
  let s := State.reset
  (s.se.transmitting = false ∧ s.se.inited = false ∧ s.se.cfgErr = false ∧ s.se.txReady = true ∧
    s.se.txIe = false ∧ s.se.rxFull = false ∧ s.se.rxIe = false ∧ s.se.rxOvr = false ∧ s.se.rxDrop = 0) ∧
  (∀ id : BufId, (s.buf id).bound = false ∧ (s.buf id).cap = 0 ∧ (s.buf id).head = 0 ∧ (s.buf id).tail = 0 ∧
    (s.buf id).count = 0) ∧
  s.se.txLine = [] ∧ s.se.rxLine = [] ∧ s.fg = none ∧ s.se.status = 0x08 ∧ step s = .next s

/-- Derived from rules R27, R43, R45, R46, at reset, for every instance and every schedule of inputs. -/
def Obligations.ResetMeetsTheInvariant : Prop :=
  ∀ (P : Params) (xs : List Input), State.Inv { State.reset with params := P, inputs := xs }

/-- Derived from rules R22, R27, R43, R45, R46 and the canonical form of the slots: every step keeps the invariant
of the machine, in any state that has it. -/
def Obligations.StepKeepsTheInvariant : Prop :=
  ∀ s s' : State, s.Inv → step s = .next s' → s'.Inv

/-- Derived, as rules R44 and R72 are. In a state with the invariant no step faults: `TxWrite` never meets a byte in
flight, and no slot access is out of range. -/
def Obligations.InvariantStepNeverFaults : Prop :=
  ∀ (s : State) (f : Fault), s.Inv → step s ≠ .fault f

/-- Derived, as rule R43 is: (a) to (d), after every step from a state with the invariant; (c) says what the pending
SE.TXISR does. -/
def Obligations.EngineStateMatchesItsHardware : Prop :=
  ∀ s s' : State, s.Inv → step s = .next s' → s'.se.inited = true →
    s'.se.txIe = s'.se.transmitting ∧
    (s'.se.transmitting = false → s'.se.txq.isEmpty s'.params.variant = true ∧ s'.se.txReady = true) ∧
    (s'.se.transmitting = true → s'.se.txReady = true →
      s'.se.txisrEnabled = true ∧
      ∃ t, perform (commandOf .irq .seInterrupt .seTxisr) s' = .next t ∧
        (t.se.transmitting = true ∧ t.se.txReady = false ∧
            (s'.se.txq.contents s'.params .txq).head? = some t.se.txBuf ∨
          t.se.transmitting = false ∧ t.se.txIe = false ∧ s'.se.txq.contents s'.params .txq = [])) ∧
    (¬(s'.se.txIe = true ∧ s'.se.txReady = true) →
      (s'.se.transmitting = false ↔ s'.se.txq.isEmpty s'.params.variant = true ∧ s'.se.txReady = true))

/-- Derived from rules R24 and R25: what the full, empty and occupancy tests mean, in both variants. -/
def Obligations.FullAndEmptyFollowOccupancy : Prop :=
  ∀ (P : Params) (id : BufId) (q : RingBuf), q.Sound P id →
    q.occ P.variant ≤ q.usable P.variant ∧
    (q.isEmpty P.variant = true ↔ q.occ P.variant = 0) ∧
    (q.isFull P.variant = true ↔ q.occ P.variant = q.usable P.variant) ∧
    (P.variant = .explicit → q.usable P.variant = q.cap.toNat ∧ q.occ P.variant = q.count.toNat) ∧
    (P.variant = .derived → q.usable P.variant = q.cap.toNat - 1 ∧
      (0 < q.cap.toNat → q.occ P.variant = (q.head.toNat + q.cap.toNat - q.tail.toNat) % q.cap.toNat))

/-- Derived, as rules R27 and R29 are, over runs with every interleaving of the foreground's micro-steps: the
indices and the count keep their bounds at every state; at every quiescent state the head follows the tail by the
count, and the contents are the bytes pushed and not yet popped, oldest first. -/
def Obligations.ContentsArePushedAndNotPopped : Prop :=
  ∀ (n : Nat) (s t : State) (l m : RbLedger), s.Inv → s.fg = none →
    l.pushed = l.popped ++ s.rb.contents s.params .rb →
    ledgerRun RbLedger.enter n l s = some (m, t) →
    (t.rb.bound = true →
      (t.params.variant = .explicit → t.rb.count.toNat ≤ t.rb.cap.toNat) ∧
      (0 < t.rb.cap.toNat → t.rb.head.toNat < t.rb.cap.toNat ∧ t.rb.tail.toNat < t.rb.cap.toNat) ∧
      (t.rb.cap = 0 → t.rb.head = 0 ∧ t.rb.tail = 0) ∧
      t.rb.occ t.params.variant ≤ t.rb.usable t.params.variant) ∧
    (t.inProgressOn .rb = false →
      (t.params.variant = .explicit → 0 < t.rb.cap.toNat →
        t.rb.head.toNat = (t.rb.tail.toNat + t.rb.count.toNat) % t.rb.cap.toNat) ∧
      m.pushed = m.popped ++ t.rb.contents t.params .rb)

/-! ### The ring-buffer operations -/

/-- Rule R130. -/
def Obligations.CircularAdvance : Prop :=
  ∀ i cap : Idx,
    (nextIdx i cap).toNat = (if i.toNat + 1 ≥ cap.toNat then 0 else i.toNat + 1) ∧
    (1 ≤ cap.toNat → (nextIdx i cap).toNat < cap.toNat) ∧
    (i.toNat < cap.toNat → (nextIdx i cap).toNat = (i.toNat + 1) % cap.toNat) ∧
    nextIdx 0 0 = 0

/-- Rules R132, R134. RB.INIT in every state in which its port admits it. -/
def Obligations.RbInitRule : Prop :=
  ∀ (cap : Idx) (p : Port) (s : State), p = .rbProducer ∨ p = .rbConsumer → s.Presented p →
    s.inProgressOn .rb = false →
    (s.params.slots.toNat < cap.toNat → exec (.rbInit cap) s = .refused .capExceedsSlots) ∧
    (cap.toNat ≤ s.params.slots.toNat → s.params.variant = .explicit →
      exec (.rbInit cap) s = .next { s with
        rb := { slots := s.rb.slots, cap := cap, head := 0, tail := 0, count := 0, bound := true }
        responses := s.responses ++ [{ port := p, bytes := [0x00] }] }) ∧
    (cap.toNat ≤ s.params.slots.toNat → s.params.variant = .derived →
      exec (.rbInit cap) s = .next { s with
        rb := { slots := s.rb.slots, cap := cap, head := 0, tail := 0, count := s.rb.count, bound := true }
        responses := s.responses ++ [{ port := p, bytes := [0x00] }] })

/-- Rules R136, R138, R142. The three queries write nothing and answer from the predicates; an unbound buffer
refuses them. -/
def Obligations.RbQueriesRule : Prop :=
  ∀ (p : Port) (s : State), p = .rbProducer ∨ p = .rbConsumer → s.Presented p →
    (s.rb.bound = false →
      exec .rbEmpty s = .refused .unbound ∧ exec .rbFull s = .refused .unbound ∧
        exec .rbOcc s = .refused .unbound) ∧
    (s.rb.bound = true → exec .rbEmpty s = .next { s with responses := s.responses ++
      [{ port := p, bytes := [0x00, if s.rb.isEmpty s.params.variant then 0x01 else 0x00] }] }) ∧
    (s.rb.bound = true → exec .rbFull s = .next { s with responses := s.responses ++
      [{ port := p, bytes := [0x00, if s.rb.isFull s.params.variant then 0x01 else 0x00] }] }) ∧
    (s.rb.bound = true → s.rb.Sound s.params .rb →
      ∃ lo hi : Byte, hi.toNat * 256 + lo.toNat = s.rb.occ s.params.variant ∧
        exec .rbOcc s = .next { s with responses := s.responses ++ [{ port := p, bytes := [0x00, lo, hi] }] })

/-- Rule R140. RB.PEEK on the consumer port: 0x00 on an empty buffer, else the oldest byte, and nothing is written;
refused on the producer port and on an unbound buffer. -/
def Obligations.RbPeekRule : Prop :=
  ∀ s : State,
    (s.Presented .rbProducer → exec .rbPeek s = .refused .wrongPort) ∧
    (s.Presented .rbConsumer → s.rb.bound = false → exec .rbPeek s = .refused .unbound) ∧
    (s.Presented .rbConsumer → s.rb.bound = true → s.rb.isEmpty s.params.variant = true →
      exec .rbPeek s = .next { s with
        responses := s.responses ++ [{ port := .rbConsumer, bytes := [0x00, 0x00] }] }) ∧
    (∀ v, s.Presented .rbConsumer → s.rb.bound = true → s.rb.isEmpty s.params.variant = false →
      s.rb.Sound s.params .rb → Memory.read? s.rb.slots s.rb.tail.toNat = some v →
      exec .rbPeek s = .next { s with
        responses := s.responses ++ [{ port := .rbConsumer, bytes := [0x00, v] }] })

/-- Rule R144. RB.PUSH on the producer port: on a full buffer it fails and nothing is written; else one slot, `head`
and (EXPLICIT) `count` are. Refused on the consumer port and on an unbound buffer. -/
def Obligations.RbPushRule : Prop :=
  ∀ (b : Byte) (s : State),
    (s.Presented .rbConsumer → exec (.rbPush b) s = .refused .wrongPort) ∧
    (s.Presented .rbProducer → s.rb.bound = false → exec (.rbPush b) s = .refused .unbound) ∧
    (s.Presented .rbProducer → s.rb.bound = true → s.rb.isFull s.params.variant = true →
      exec (.rbPush b) s = .next { s with
        responses := s.responses ++ [{ port := .rbProducer, bytes := [0x00, 0x00] }] }) ∧
    (s.Presented .rbProducer → s.rb.bound = true → s.rb.isFull s.params.variant = false → s.rb.Sound s.params .rb →
      exec (.rbPush b) s = .next { s with
        rb := { s.rb with
          slots := Memory.write s.rb.slots s.rb.head.toNat b
          head := nextIdx s.rb.head s.rb.cap
          count := match s.params.variant with
            | .explicit => s.rb.count + 1
            | .derived => s.rb.count }
        responses := s.responses ++ [{ port := .rbProducer, bytes := [0x00, 0x01] }] })

/-- Rule R148. RB.POP on the consumer port: on an empty buffer it answers 0x00 and nothing is written; else `tail`
and (EXPLICIT) `count` are, and the slot keeps its byte. Refused on the producer port and on an unbound buffer. -/
def Obligations.RbPopRule : Prop :=
  ∀ s : State,
    (s.Presented .rbProducer → exec .rbPop s = .refused .wrongPort) ∧
    (s.Presented .rbConsumer → s.rb.bound = false → exec .rbPop s = .refused .unbound) ∧
    (s.Presented .rbConsumer → s.rb.bound = true → s.rb.isEmpty s.params.variant = true →
      exec .rbPop s = .next { s with
        responses := s.responses ++ [{ port := .rbConsumer, bytes := [0x00, 0x00] }] }) ∧
    (∀ v, s.Presented .rbConsumer → s.rb.bound = true → s.rb.isEmpty s.params.variant = false →
      s.rb.Sound s.params .rb → Memory.read? s.rb.slots s.rb.tail.toNat = some v →
      exec .rbPop s = .next { s with
        rb := { s.rb with
          tail := nextIdx s.rb.tail s.rb.cap
          count := match s.params.variant with
            | .explicit => s.rb.count - 1
            | .derived => s.rb.count }
        responses := s.responses ++ [{ port := .rbConsumer, bytes := [0x00, v] }] })

/-- Derived, as rule R153 is. On a quiescent bound buffer a successful push appends to the contents and a pop takes
their head; as many pops as pushes on an empty buffer return the bytes pushed, in order. -/
def Obligations.FifoOrder : Prop :=
  (∀ (s t : State) (b : Byte), s.Inv → s.inProgressOn .rb = false → exec (.rbPush b) s = .next t →
    t.lastResult = 0x01 → t.rb.contents t.params .rb = s.rb.contents s.params .rb ++ [b]) ∧
  (∀ (s t : State) (x : Byte) (c : List Byte), s.Inv → s.inProgressOn .rb = false →
    s.rb.contents s.params .rb = x :: c → exec .rbPop s = .next t →
    t.lastResult = x ∧ t.rb.contents t.params .rb = c) ∧
  (∀ (s : State) (bs : List Byte), s.Inv → s.fg = none → s.rb.bound = true → s.rb.contents s.params .rb = [] →
    bs.length ≤ s.rb.usable s.params.variant →
    ∃ t, performAll
        (bs.map (fun b => commandOf (portOwner s.params .rbProducer) .rbProducer (.rbPush b)) ++
          bs.map (fun _ => commandOf (portOwner s.params .rbConsumer) .rbConsumer .rbPop)) s = .next t ∧
      t.responses = s.responses ++ bs.map (fun _ => { port := .rbProducer, bytes := [0x00, 0x01] }) ++
        bs.map (fun b => { port := .rbConsumer, bytes := [0x00, b] }) ∧
      t.rb.contents t.params .rb = [])

/-- Derived from rules R24, R25, R277. A bound buffer of usable capacity 0 stays one under every step but RB.INIT;
every push on it fails and every pop and peek answers 0x00, with no slot accessed. -/
def Obligations.UnusableBufferStaysEmptyAndFull : Prop :=
  ∀ s : State, s.Inv → s.rb.bound = true → s.rb.usable s.params.variant = 0 →
    (∀ s', step s = .next s' → s.initsBuffer = false →
      s'.rb.bound = true ∧ s'.rb.usable s'.params.variant = 0 ∧ s'.rb.slots = s.rb.slots) ∧
    (∀ b, s.Presented .rbProducer → exec (.rbPush b) s = .next { s with
      responses := s.responses ++ [{ port := .rbProducer, bytes := [0x00, 0x00] }] }) ∧
    (s.Presented .rbConsumer → exec .rbPop s = .next { s with
      responses := s.responses ++ [{ port := .rbConsumer, bytes := [0x00, 0x00] }] }) ∧
    (s.Presented .rbConsumer → exec .rbPeek s = .next { s with
      responses := s.responses ++ [{ port := .rbConsumer, bytes := [0x00, 0x00] }] })

/-! ### Micro-steps -/

/-- Rule R146, P1 to P4 of RB.PUSH in both variants, with the slot write in range. -/
def Obligations.PushMicroSteps : Prop :=
  ∀ (s : State) (f : Progress) (b : Byte), s.fg = some f → f.op = .push b →
    (f.upc = .u1 → s.rb.isFull s.params.variant = true →
      microStep s = .next { s with
        fg := none, responses := s.responses ++ [{ port := f.port, bytes := [0x00, 0x00] }] }) ∧
    (f.upc = .u1 → s.rb.isFull s.params.variant = false →
      microStep s = .next { s with fg := some { f with flag := false, upc := .u2 } }) ∧
    (f.upc = .u2 → s.rb.head.toNat < s.rb.cap.toNat → s.rb.cap.toNat ≤ s.params.slots.toNat →
      microStep s = .next { s with
        rb := { s.rb with slots := Memory.write s.rb.slots s.rb.head.toNat b }
        fg := some { f with upc := .u3 } }) ∧
    (f.upc = .u3 → s.params.variant = .explicit →
      microStep s = .next { s with
        rb := { s.rb with head := nextIdx s.rb.head s.rb.cap }, fg := some { f with upc := .u4 } }) ∧
    (f.upc = .u3 → s.params.variant = .derived →
      microStep s = .next { s with
        rb := { s.rb with head := nextIdx s.rb.head s.rb.cap }
        fg := none, responses := s.responses ++ [{ port := f.port, bytes := [0x00, 0x01] }] }) ∧
    (f.upc = .u4 → s.params.variant = .explicit →
      microStep s = .next { s with
        rb := { s.rb with count := s.rb.count + 1 }
        fg := none, responses := s.responses ++ [{ port := f.port, bytes := [0x00, 0x01] }] })

/-- Rule R150, C1 to C4 of RB.POP in both variants; C2 reads a slot a push has written. -/
def Obligations.PopMicroSteps : Prop :=
  ∀ (s : State) (f : Progress) (v : Byte), s.fg = some f → f.op = .pop →
    (f.upc = .u1 → s.rb.isEmpty s.params.variant = true →
      microStep s = .next { s with
        fg := none, responses := s.responses ++ [{ port := f.port, bytes := [0x00, 0x00] }] }) ∧
    (f.upc = .u1 → s.rb.isEmpty s.params.variant = false →
      microStep s = .next { s with fg := some { f with flag := false, upc := .u2 } }) ∧
    (f.upc = .u2 → s.rb.tail.toNat < s.rb.cap.toNat → s.rb.cap.toNat ≤ s.params.slots.toNat →
      Memory.read? s.rb.slots s.rb.tail.toNat = some v →
      microStep s = .next { s with fg := some { f with val := v, upc := .u3 } }) ∧
    (f.upc = .u3 → s.params.variant = .explicit →
      microStep s = .next { s with
        rb := { s.rb with tail := nextIdx s.rb.tail s.rb.cap }, fg := some { f with upc := .u4 } }) ∧
    (f.upc = .u3 → s.params.variant = .derived →
      microStep s = .next { s with
        rb := { s.rb with tail := nextIdx s.rb.tail s.rb.cap }
        fg := none, responses := s.responses ++ [{ port := f.port, bytes := [0x00, f.val] }] }) ∧
    (f.upc = .u4 → s.params.variant = .explicit →
      microStep s = .next { s with
        rb := { s.rb with count := s.rb.count - 1 }
        fg := none, responses := s.responses ++ [{ port := f.port, bytes := [0x00, f.val] }] })

/-- Derived from rule R174 with rule R150: SE.RECV in micro-steps is C1 to C4 on `rxq`. -/
def Obligations.ReceiveMicroSteps : Prop :=
  ∀ (s : State) (f : Progress) (v : Byte), s.fg = some f → f.op = .recv →
    (f.upc = .u1 → s.se.rxq.isEmpty s.params.variant = true →
      microStep s = .next { s with
        fg := none, responses := s.responses ++ [{ port := f.port, bytes := [0x00, 0x00] }] }) ∧
    (f.upc = .u1 → s.se.rxq.isEmpty s.params.variant = false →
      microStep s = .next { s with fg := some { f with flag := false, upc := .u2 } }) ∧
    (f.upc = .u2 → s.se.rxq.tail.toNat < s.se.rxq.cap.toNat → s.se.rxq.cap.toNat ≤ s.params.rxCap.toNat →
      Memory.read? s.se.rxq.slots s.se.rxq.tail.toNat = some v →
      microStep s = .next { s with fg := some { f with val := v, upc := .u3 } }) ∧
    (f.upc = .u3 → s.params.variant = .explicit →
      microStep s = .next { s with
        se := { s.se with rxq := { s.se.rxq with tail := nextIdx s.se.rxq.tail s.se.rxq.cap } }
        fg := some { f with upc := .u4 } }) ∧
    (f.upc = .u3 → s.params.variant = .derived →
      microStep s = .next { s with
        se := { s.se with rxq := { s.se.rxq with tail := nextIdx s.se.rxq.tail s.se.rxq.cap } }
        fg := none, responses := s.responses ++ [{ port := f.port, bytes := [0x00, f.val] }] }) ∧
    (f.upc = .u4 → s.params.variant = .explicit →
      microStep s = .next { s with
        se := { s.se with rxq := { s.se.rxq with count := s.se.rxq.count - 1 } }
        fg := none, responses := s.responses ++ [{ port := f.port, bytes := [0x00, f.val] }] })

/-- Rule R151. The queries are one micro-step and RB.PEEK is two. -/
def Obligations.QueryMicroSteps : Prop :=
  ∀ (s : State) (f : Progress) (v : Byte), s.fg = some f →
    (f.op = .empty → f.upc = .u1 → microStep s = .next { s with
      fg := none
      responses := s.responses ++
        [{ port := f.port, bytes := [0x00, if s.rb.isEmpty s.params.variant then 0x01 else 0x00] }] }) ∧
    (f.op = .full → f.upc = .u1 → microStep s = .next { s with
      fg := none
      responses := s.responses ++
        [{ port := f.port, bytes := [0x00, if s.rb.isFull s.params.variant then 0x01 else 0x00] }] }) ∧
    (f.op = .occ → f.upc = .u1 → s.rb.Sound s.params .rb →
      ∃ lo hi : Byte, hi.toNat * 256 + lo.toNat = s.rb.occ s.params.variant ∧
        microStep s = .next { s with
          fg := none, responses := s.responses ++ [{ port := f.port, bytes := [0x00, lo, hi] }] }) ∧
    (f.op = .peek → f.upc = .u1 → s.rb.isEmpty s.params.variant = true →
      microStep s = .next { s with
        fg := none, responses := s.responses ++ [{ port := f.port, bytes := [0x00, 0x00] }] }) ∧
    (f.op = .peek → f.upc = .u1 → s.rb.isEmpty s.params.variant = false →
      microStep s = .next { s with fg := some { f with flag := false, upc := .u2 } }) ∧
    (f.op = .peek → f.upc = .u2 → s.rb.tail.toNat < s.rb.cap.toNat →
      s.rb.cap.toNat ≤ s.params.slots.toNat → Memory.read? s.rb.slots s.rb.tail.toNat = some v →
      microStep s = .next { s with
        fg := none, responses := s.responses ++ [{ port := f.port, bytes := [0x00, v] }] })

/-- Derived from rules R31, R78; that beginning is a step of its own is this model's choice (log entry 10). FG
begins a micro-stepped operation: nothing of either unit changes, the first micro-step is to come, and a refusal
comes here, before any state is written (rule R224). -/
def Obligations.StartHoldsTheOperation : Prop :=
  ∀ (i : Instr) (op : MicroOp) (p : Port) (s : State), microOpOf i = some op → p ∈ portsOf i →
    portOwner s.params p = .fg → s.fg = none →
    (op ≠ .recv → s.rb.bound = false → perform (.start p (encode i)) s = .refused .unbound) ∧
    (op = .recv → s.se.inited = false → perform (.start p (encode i)) s = .refused .notInited) ∧
    ((op ≠ .recv → s.rb.bound = true) → (op = .recv → s.se.inited = true ∧ s.se.rxq.bound = true) →
      perform (.start p (encode i)) s = .next { s with
        issue := { agent := .fg, port := p }
        fg := some { op := op, port := p, upc := .u1, flag := false, val := 0x00 } })

/-- Derived from rule R113 (the start as a step of its own: log entry 10). A foreground operation whose micro-steps
run with nothing between them ends as the atomic operation does, stops included, in every state in which the
foreground is idle. -/
def Obligations.UndisturbedMicroStepsAreAtomic : Prop :=
  ∀ (i : Instr) (op : MicroOp) (p : Port) (s : State), microOpOf i = some op → s.fg = none →
    ∃ n ≤ 4, performAll (.start p (encode i) :: List.replicate n .resume) s =
      perform (commandOf .fg p i) s

/-- Derived, as rule R84 is (the start as a step of its own: log entry 10). A preemptible foreground operation, with
any steps of the interrupt context and the line before each of its micro-steps, gives the same results and the same
state as the run in which it happens atomically after those steps, at its last micro-step; and RB.PEEK as the run in
which it happens at its first. Responses are compared port by port. -/
def Obligations.PreemptedOperationIsAtomicAtItsPoint : Prop :=
  (∀ (s t : State) (i : Instr) (op : MicroOp) (p : Port) (gaps : List (List (Bool × Port × Instr))),
    s.Inv → s.fg = none → microOpOf i = some op →
    performAll (.start p (encode i) :: preempted gaps) s = .next t → t.fg = none →
    ∃ u, performAll (background gaps.flatten ++ [commandOf .fg p i]) s = .next u ∧ SameButSchedule t u) ∧
  (∀ (s t : State) (p : Port) (g h : List (Bool × Port × Instr)),
    s.Inv → s.fg = none →
    performAll (.start p (encode .rbPeek) :: preempted [g, h]) s = .next t →
    ∃ u, performAll (background g ++ [commandOf .fg p .rbPeek] ++ background h) s = .next u ∧ SameButSchedule t u)

/-- Derived, as rule R83 is. Once not full, a buffer stays not full under every step but its producer's; once not
empty, not empty under every step but its consumer's; rebuilding the buffer apart. -/
def Obligations.StaleAnswersAreSafeInOneDirection : Prop :=
  ∀ s s' : State, s.Inv → step s = .next s' →
    (s.initsBuffer = false → s.pushes = false → s.rb.isFull s.params.variant = false →
      s'.rb.isFull s'.params.variant = false) ∧
    (s.initsBuffer = false → s.pops = false → s.rb.isEmpty s.params.variant = false →
      s'.rb.isEmpty s'.params.variant = false) ∧
    (s.initsEngine = false → (∀ b, s.performs ≠ some (.seSend b)) → s.se.txq.isFull s.params.variant = false →
      s'.se.txq.isFull s'.params.variant = false) ∧
    (s.initsEngine = false → s.performs ≠ some .seTxisr → s.se.txq.isEmpty s.params.variant = false →
      s'.se.txq.isEmpty s'.params.variant = false) ∧
    (s.initsEngine = false → s.performs ≠ some .seRxisr → s.se.rxq.isFull s.params.variant = false →
      s'.se.rxq.isFull s'.params.variant = false) ∧
    (s.initsEngine = false → s.receives = false → s.se.rxq.isEmpty s.params.variant = false →
      s'.se.rxq.isEmpty s'.params.variant = false)

/-! ### The engine's foreground operations -/

/-- Rules R170, R171. SE.INIT in every state: after CFGERR the engine is as after reset but for `cfg_err`, and `cfg`
is kept; after DONE it is configured and both buffers are bound and empty. The slots, `tx_buf`, `rx_buf` and the
traces are kept in both. -/
def Obligations.SeInitRule : Prop :=
  ∀ (p0 p1 p2 p3 p4 p5 p6 p7 : Byte) (s : State), s.Presented .seForeground →
    let usable (c : Idx) : Prop := match s.params.variant with
      | .explicit => 1 ≤ c.toNat
      | .derived => 2 ≤ c.toNat
    let kept (e : SerialEngine) : SerialEngine := { e with
      txBuf := s.se.txBuf, rxBuf := s.se.rxBuf, txLine := s.se.txLine, rxLine := s.se.rxLine }
    (usable s.params.txCap ∧ usable s.params.rxCap ∧ baudOk s.params p0 p1 p2 p3 p4 p7 = true →
      exec (.seInit p0 p1 p2 p3 p4 p5 p6 p7) s = .next { s with
        se := kept { resetEngine with
          txq := { resetRingBuf with slots := s.se.txq.slots, cap := s.params.txCap, bound := true }
          rxq := { resetRingBuf with slots := s.se.rxq.slots, cap := s.params.rxCap, bound := true }
          inited := true
          cfg := { clockSource := p0, baudDivisorLow := p1, baudDivisorHigh := p2, modulationA := p3
                   modulationB := p4, parityMode := p5, bitOrder := p6, oversamplingMode := p7 } }
        responses := s.responses ++ [{ port := .seForeground, bytes := [0x00] }] }) ∧
    (¬(usable s.params.txCap ∧ usable s.params.rxCap ∧ baudOk s.params p0 p1 p2 p3 p4 p7 = true) →
      exec (.seInit p0 p1 p2 p3 p4 p5 p6 p7) s = .next { s with
        se := kept { resetEngine with
          txq := { resetRingBuf with slots := s.se.txq.slots }
          rxq := { resetRingBuf with slots := s.se.rxq.slots }
          cfgErr := true
          cfg := s.se.cfg }
        responses := s.responses ++ [{ port := .seForeground, bytes := [0x02] }] })

/-- Rule R172. The three paths of SE.SEND: direct write, enqueue, held; refused before SE.INIT. -/
def Obligations.SeSendRule : Prop :=
  ∀ (b : Byte) (s : State), s.Presented .seForeground →
    (s.se.inited = false → exec (.seSend b) s = .refused .notInited) ∧
    (s.se.inited = true → s.se.transmitting = false → s.se.txReady = true →
      exec (.seSend b) s = .next { s with
        se := { s.se with txBuf := b, txReady := false, transmitting := true, txIe := true }
        responses := s.responses ++ [{ port := .seForeground, bytes := [0x00] }] }) ∧
    (s.se.inited = true → s.se.transmitting = true → s.se.txq.isFull s.params.variant = false →
      s.se.txq.bound = true → s.se.txq.Sound s.params .txq →
      exec (.seSend b) s = .next { s with
        se := { s.se with txq := { s.se.txq with
          slots := Memory.write s.se.txq.slots s.se.txq.head.toNat b
          head := nextIdx s.se.txq.head s.se.txq.cap
          count := match s.params.variant with
            | .explicit => s.se.txq.count + 1
            | .derived => s.se.txq.count } }
        responses := s.responses ++ [{ port := .seForeground, bytes := [0x00] }] }) ∧
    (s.se.inited = true → s.se.transmitting = true → s.se.txq.isFull s.params.variant = true →
      exec (.seSend b) s = .next { s with
        responses := s.responses ++ [{ port := .seForeground, bytes := [0x01] }] })

/-- Rule R174. SE.RECV pops `rxq`: 0x00 and nothing written where it is empty; refused before SE.INIT. -/
def Obligations.SeRecvRule : Prop :=
  ∀ s : State, s.Presented .seForeground →
    (s.se.inited = false → exec .seRecv s = .refused .notInited) ∧
    (s.se.inited = true → s.se.rxq.bound = true → s.se.rxq.isEmpty s.params.variant = true →
      exec .seRecv s = .next { s with
        responses := s.responses ++ [{ port := .seForeground, bytes := [0x00, 0x00] }] }) ∧
    (∀ v, s.se.inited = true → s.se.rxq.bound = true → s.se.rxq.isEmpty s.params.variant = false →
      s.se.rxq.Sound s.params .rxq → Memory.read? s.se.rxq.slots s.se.rxq.tail.toNat = some v →
      exec .seRecv s = .next { s with
        se := { s.se with rxq := { s.se.rxq with
          tail := nextIdx s.se.rxq.tail s.se.rxq.cap
          count := match s.params.variant with
            | .explicit => s.se.rxq.count - 1
            | .derived => s.se.rxq.count } }
        responses := s.responses ++ [{ port := .seForeground, bytes := [0x00, v] }] })

/-- Rules R176, R177. SE.EI sets and SE.DI clears the receive-interrupt enable, and neither writes anything else of
the units. -/
def Obligations.ReceiveInterruptGate : Prop :=
  ∀ s : State, s.Presented .seForeground →
    (s.se.inited = true →
      exec .seEi s = .next { s with
        se := { s.se with rxIe := true }
        responses := s.responses ++ [{ port := .seForeground, bytes := [0x00] }] } ∧
      exec .seDi s = .next { s with
        se := { s.se with rxIe := false }
        responses := s.responses ++ [{ port := .seForeground, bytes := [0x00] }] }) ∧
    (s.se.inited = false → exec .seEi s = .refused .notInited ∧ exec .seDi s = .refused .notInited)

/-- Rules R178, R180, R182, R184. The read-only views write nothing; SE.STATUS and SE.RXDROP are legal in every
state; SE.CFGRD names each configuration byte, and tests its index before `inited`. -/
def Obligations.EngineViewsRule : Prop :=
  ∀ s : State, s.Presented .seForeground →
    (s.se.inited = false → exec .seRxempty s = .refused .notInited) ∧
    (s.se.inited = true → exec .seRxempty s = .next { s with responses := s.responses ++
      [{ port := .seForeground, bytes := [0x00, if s.se.rxq.isEmpty s.params.variant then 0x01 else 0x00] }] }) ∧
    exec .seStatus s = .next { s with responses := s.responses ++
      [{ port := .seForeground, bytes := [0x00, s.se.status] }] } ∧
    (∃ lo hi : Byte, hi.toNat * 256 + lo.toNat = s.se.rxDrop.toNat ∧
      exec .seRxdrop s = .next { s with responses := s.responses ++
        [{ port := .seForeground, bytes := [0x00, lo, hi] }] }) ∧
    (∀ i : Byte, 7 < i.toNat → exec (.seCfgrd i) s = .refused .cfgIndex) ∧
    (∀ i : Byte, i.toNat ≤ 7 → s.se.inited = false → exec (.seCfgrd i) s = .refused .notInited) ∧
    (s.se.inited = true → ∀ (i : Byte) (v : Byte),
      [s.se.cfg.clockSource, s.se.cfg.baudDivisorLow, s.se.cfg.baudDivisorHigh, s.se.cfg.modulationA,
        s.se.cfg.modulationB, s.se.cfg.parityMode, s.se.cfg.bitOrder, s.se.cfg.oversamplingMode][i.toNat]? = some v →
      exec (.seCfgrd i) s = .next { s with responses := s.responses ++
        [{ port := .seForeground, bytes := [0x00, v] }] })

/-- Rule R40. Each bit of STATUS, its value after reset, and that SE.STATUS returns it as one byte and stores
nothing. -/
def Obligations.StatusBits : Prop :=
  (∀ e : SerialEngine,
    e.status.getLsbD 0 = e.transmitting ∧ e.status.getLsbD 1 = e.txIe ∧ e.status.getLsbD 2 = e.rxIe ∧
    e.status.getLsbD 3 = e.txReady ∧ e.status.getLsbD 4 = e.rxFull ∧ e.status.getLsbD 5 = e.rxOvr ∧
    e.status.getLsbD 6 = e.cfgErr ∧ e.status.getLsbD 7 = e.inited) ∧
  State.reset.se.status = 0x08 ∧
  (∀ s : State, s.Presented .seForeground → exec .seStatus s = .next { s with
    responses := s.responses ++ [{ port := .seForeground, bytes := [0x00, s.se.status] }] })

/-- Derived from rules R35, R45 and, for LINE.RXBYTE, the spec's inference D28. While `inited` is 0 the engine's
foreground operations but SE.INIT, SE.STATUS and SE.RXDROP are refused, no handler can run, and LINE.RXBYTE changes
nothing. -/
def Obligations.UninitedEngineRefuses : Prop :=
  ∀ s : State, s.se.inited = false →
    (s.Presented .seForeground →
      (∀ b, exec (.seSend b) s = .refused .notInited) ∧ exec .seRecv s = .refused .notInited ∧
      exec .seEi s = .refused .notInited ∧ exec .seDi s = .refused .notInited ∧
      exec .seRxempty s = .refused .notInited ∧
      (∀ i : Byte, i.toNat ≤ 7 → exec (.seCfgrd i) s = .refused .notInited)) ∧
    (s.Presented .seInterrupt → exec .seTxisr s = .refused .notEnabled ∧ exec .seRxisr s = .refused .notEnabled) ∧
    (s.Presented .seLine → ∀ b, exec (.lineRxbyte b) s = .next s) ∧
    (s.Inv → s.se.txIe = false ∧ s.se.rxIe = false)

/-- Rule R26. Every ring-buffer operation but RB.INIT on an unbound buffer is refused. -/
def Obligations.UnboundBufferRefuses : Prop :=
  ∀ s : State, s.rb.bound = false →
    (∀ p, p = .rbProducer ∨ p = .rbConsumer → s.Presented p →
      exec .rbEmpty s = .refused .unbound ∧ exec .rbFull s = .refused .unbound ∧
      exec .rbOcc s = .refused .unbound) ∧
    (s.Presented .rbProducer → ∀ b, exec (.rbPush b) s = .refused .unbound) ∧
    (s.Presented .rbConsumer → exec .rbPop s = .refused .unbound ∧ exec .rbPeek s = .refused .unbound)

/-! ### The handlers and the line -/

/-- Rule R200. SE.TXISR runs exactly where it is enabled: it feeds the oldest byte, or returns to Idle. -/
def Obligations.TransmitHandlerRule : Prop :=
  ∀ s : State, s.Presented .seInterrupt →
    (¬(s.se.inited = true ∧ s.se.txIe = true ∧ s.se.txReady = true) → exec .seTxisr s = .refused .notEnabled) ∧
    (s.se.inited = true → s.se.txIe = true → s.se.txReady = true →
      (s.se.txq.isEmpty s.params.variant = true →
        exec .seTxisr s = .next { s with se := { s.se with txIe := false, transmitting := false } }) ∧
      (∀ v, s.se.txq.isEmpty s.params.variant = false → s.se.txq.bound = true → s.se.txq.Sound s.params .txq →
        Memory.read? s.se.txq.slots s.se.txq.tail.toNat = some v →
        exec .seTxisr s = .next { s with
          se := { s.se with
            txq := { s.se.txq with
              tail := nextIdx s.se.txq.tail s.se.txq.cap
              count := match s.params.variant with
                | .explicit => s.se.txq.count - 1
                | .derived => s.se.txq.count }
            txBuf := v
            txReady := false } }))

/-- Rule R204. SE.RXISR runs exactly where it is enabled: it pushes the byte, or drops it and counts it, saturating;
`rx_full` is cleared in both. -/
def Obligations.ReceiveHandlerRule : Prop :=
  ∀ s : State, s.Presented .seInterrupt →
    (¬(s.se.inited = true ∧ s.se.rxIe = true ∧ s.se.rxFull = true) → exec .seRxisr s = .refused .notEnabled) ∧
    (s.se.inited = true → s.se.rxIe = true → s.se.rxFull = true → s.se.rxq.bound = true →
      (s.se.rxq.isFull s.params.variant = true → ∃ n : Idx,
        n.toNat = min 65535 (s.se.rxDrop.toNat + 1) ∧
        exec .seRxisr s = .next { s with se := { s.se with rxFull := false, rxDrop := n } }) ∧
      (s.se.rxq.isFull s.params.variant = false → s.se.rxq.Sound s.params .rxq →
        exec .seRxisr s = .next { s with
          se := { s.se with
            rxFull := false
            rxq := { s.se.rxq with
              slots := Memory.write s.se.rxq.slots s.se.rxq.head.toNat s.se.rxBuf
              head := nextIdx s.se.rxq.head s.se.rxq.cap
              count := match s.params.variant with
                | .explicit => s.se.rxq.count + 1
                | .derived => s.se.rxq.count } } }))

/-- Rule R208. LINE.TXDONE where a byte is in flight, and its refusal where none is. -/
def Obligations.LineTxdoneRule : Prop :=
  ∀ s : State, s.Presented .seLine →
    (s.se.txReady = false → exec .lineTxdone s = .next { s with
      se := { s.se with txLine := s.se.txLine ++ [s.se.txBuf], txReady := true } }) ∧
    (s.se.txReady = true → exec .lineTxdone s = .refused .notEnabled)

/-- Derived: rule R210 with the spec's inferences D17 (an unread byte is overwritten) and D28 (a byte before SE.INIT
is discarded). LINE.RXBYTE in every state. -/
def Obligations.LineRxbyteRule : Prop :=
  ∀ (b : Byte) (s : State), s.Presented .seLine →
    (s.se.inited = false → exec (.lineRxbyte b) s = .next s) ∧
    (s.se.inited = true → s.se.rxFull = false → exec (.lineRxbyte b) s = .next { s with
      se := { s.se with rxLine := s.se.rxLine ++ [b], rxBuf := b, rxFull := true } }) ∧
    (s.se.inited = true → s.se.rxFull = true → exec (.lineRxbyte b) s = .next { s with
      se := { s.se with rxLine := s.se.rxLine ++ [b], rxOvr := true, rxBuf := b, rxFull := true } })

/-- Derived, as rule R232 is. Where both handlers are enabled, both orders run to the same state. -/
def Obligations.HandlersCommute : Prop :=
  ∀ s : State, s.Inv → s.se.txisrEnabled = true → s.se.rxisrEnabled = true →
    ∃ t, performAll [commandOf .irq .seInterrupt .seTxisr, commandOf .irq .seInterrupt .seRxisr] s = .next t ∧
      performAll [commandOf .irq .seInterrupt .seRxisr, commandOf .irq .seInterrupt .seTxisr] s = .next t

/-- Derived: rule R230 with the spec's inference D14 (a waiting byte is delivered). While the receive interrupt is
disabled no step pushes to `rxq` and a waiting byte waits on; SE.EI enables the handler at once exactly where a byte
waits, and the handler then pushes that byte where there is room. A raised transmit signal with its enable off
invokes nothing. -/
def Obligations.DisabledReceiveInterruptPushesNothing : Prop :=
  (∀ s s' : State, s.Inv → s.se.rxIe = false → step s = .next s' →
    s'.se.rxq.slots = s.se.rxq.slots ∧
    (s.initsEngine = false → s'.se.rxq.head = s.se.rxq.head ∧ s'.se.rxDrop = s.se.rxDrop ∧
      (s.se.rxFull = true → s'.se.rxFull = true))) ∧
  (∀ s t : State, s.Inv → exec .seEi s = .next t →
    t.se.rxisrEnabled = s.se.rxFull ∧
    (s.se.rxFull = true → s.fg = none → s.se.rxq.isFull s.params.variant = false →
      ∃ u, perform (commandOf .irq .seInterrupt .seRxisr) t = .next u ∧
        u.se.rxq.contents u.params .rxq = s.se.rxq.contents s.params .rxq ++ [s.se.rxBuf])) ∧
  (∀ s : State, s.Presented .seInterrupt → s.se.txReady = true → s.se.txIe = false →
    exec .seTxisr s = .refused .notEnabled)

/-- Derived from rule R240. The engine state's transition table: which steps change `transmitting`, from where and
on what condition. -/
def Obligations.TransmitStateTransitions : Prop :=
  ∀ s s' : State, s.Inv → step s = .next s' →
    (s.se.transmitting = false → s'.se.transmitting = true →
      ∃ b, s.performs = some (.seSend b) ∧ s'.se.txBuf = b ∧ s'.se.txReady = false ∧ s'.se.txIe = true) ∧
    (s.se.transmitting = true → s'.se.transmitting = false →
      s.performs = some .seTxisr ∧ s.se.txq.isEmpty s.params.variant = true ∧ s'.se.txIe = false ∨
        s.initsEngine = true) ∧
    (∀ b, s.performs = some (.seSend b) → s'.se.transmitting = true) ∧
    (s.performs = some .seTxisr → s.se.txq.isEmpty s.params.variant = false → s'.se.transmitting = true) ∧
    (s.performs = some .seTxisr → s.se.txq.isEmpty s.params.variant = true → s'.se.transmitting = false) ∧
    (s.initsEngine = true → s'.se.transmitting = false)

/-! ### Frames and ownership -/

/-- Derived from rules R20, R32, R33, R234, R236. What every operation leaves alone: the instance, the foreground's
operation in progress, the latch and the pending inputs; an operation of one unit does not touch the other; at most
one response is given, on the command's port, and none by a handler or a line event. -/
def Obligations.OperationsStayInTheirUnit : Prop :=
  ∀ (i : Instr) (s t : State), exec i s = .next t →
    t.params = s.params ∧ t.fg = s.fg ∧ t.issue = s.issue ∧ t.inputs = s.inputs ∧
    (opClass i.opcode = 0x0 → t.se = s.se) ∧
    (opClass i.opcode ≠ 0x0 → t.rb = s.rb) ∧
    (opClass i.opcode = 0x0 ∨ opClass i.opcode = 0x8 →
      ∃ bytes, t.responses = s.responses ++ [{ port := s.issue.port, bytes := bytes }]) ∧
    (opClass i.opcode = 0x9 ∨ opClass i.opcode = 0xA → t.responses = s.responses)

/-- Derived from rules R70, R71. Every slot reads as before but the one the operation stores to, which is `head` of
the buffer it pushes to; that slot reads as the byte stored. -/
def Obligations.OnlyThePushedSlotIsWritten : Prop :=
  ∀ (i : Instr) (s t : State), exec i s = .next t →
    (∀ (id : BufId) (a : Nat), storedSlot i s ≠ some (id, a) →
      Memory.read? (t.buf id).slots a = Memory.read? (s.buf id).slots a) ∧
    (∀ (id : BufId) (a : Nat), storedSlot i s = some (id, a) →
      Memory.read? (t.buf id).slots a = some (storedByte i s))

/-- Derived from rules R20, R132 to R148. The registers that each RB operation leaves alone. -/
def Obligations.RbOperationsFrame : Prop :=
  ∀ s t : State,
    (exec .rbEmpty s = .next t ∨ exec .rbFull s = .next t ∨ exec .rbOcc s = .next t ∨ exec .rbPeek s = .next t →
      t = { s with responses := t.responses }) ∧
    (∀ b, exec (.rbPush b) s = .next t →
      t = { s with
        rb := { s.rb with slots := t.rb.slots, head := t.rb.head, count := t.rb.count }
        responses := t.responses } ∧
      (s.params.variant = .derived → t.rb.count = s.rb.count)) ∧
    (exec .rbPop s = .next t →
      t = { s with rb := { s.rb with tail := t.rb.tail, count := t.rb.count }, responses := t.responses } ∧
      (s.params.variant = .derived → t.rb.count = s.rb.count)) ∧
    (∀ c, exec (.rbInit c) s = .next t →
      t = { s with rb := { t.rb with slots := s.rb.slots }, responses := t.responses })

/-- Derived from rules R32, R170 to R184. The registers that each foreground operation of the engine leaves alone.
-/
def Obligations.EngineForegroundFrame : Prop :=
  ∀ s t : State,
    (∀ i, exec .seRxempty s = .next t ∨ exec .seStatus s = .next t ∨ exec .seRxdrop s = .next t ∨
        exec (.seCfgrd i) s = .next t →
      t = { s with responses := t.responses }) ∧
    (exec .seEi s = .next t ∨ exec .seDi s = .next t →
      t = { s with se := { s.se with rxIe := t.se.rxIe }, responses := t.responses }) ∧
    (exec .seRecv s = .next t →
      t = { s with
        se := { s.se with rxq := { s.se.rxq with tail := t.se.rxq.tail, count := t.se.rxq.count } }
        responses := t.responses }) ∧
    (∀ b, exec (.seSend b) s = .next t →
      t = { s with
        se := { s.se with
          txq := { s.se.txq with slots := t.se.txq.slots, head := t.se.txq.head, count := t.se.txq.count }
          txBuf := t.se.txBuf, txReady := t.se.txReady, transmitting := t.se.transmitting, txIe := t.se.txIe }
        responses := t.responses } ∧
      (s.se.transmitting = true → t.se = { s.se with txq := t.se.txq }) ∧
      (s.se.transmitting = false → t.se.txq = s.se.txq)) ∧
    (∀ p0 p1 p2 p3 p4 p5 p6 p7, exec (.seInit p0 p1 p2 p3 p4 p5 p6 p7) s = .next t →
      t = { s with
        se := { t.se with
          txBuf := s.se.txBuf, rxBuf := s.se.rxBuf, txLine := s.se.txLine, rxLine := s.se.rxLine
          txq := { t.se.txq with slots := s.se.txq.slots }
          rxq := { t.se.rxq with slots := s.se.rxq.slots } }
        responses := t.responses } ∧
      (t.se.cfgErr = true → t.se.cfg = s.se.cfg))

/-- Derived from rules R32, R200 to R210. The registers that each handler and each line event leaves alone. -/
def Obligations.SignalsFrame : Prop :=
  ∀ s t : State,
    (exec .seTxisr s = .next t →
      t = { s with se := { s.se with
        txq := { s.se.txq with tail := t.se.txq.tail, count := t.se.txq.count }
        txBuf := t.se.txBuf, txReady := t.se.txReady, txIe := t.se.txIe, transmitting := t.se.transmitting } }) ∧
    (exec .seRxisr s = .next t →
      t = { s with se := { s.se with
        rxq := { s.se.rxq with slots := t.se.rxq.slots, head := t.se.rxq.head, count := t.se.rxq.count }
        rxFull := t.se.rxFull, rxDrop := t.se.rxDrop } }) ∧
    (exec .lineTxdone s = .next t →
      t = { s with se := { s.se with txLine := t.se.txLine, txReady := t.se.txReady } }) ∧
    (∀ b, exec (.lineRxbyte b) s = .next t →
      t = { s with se := { s.se with
        rxLine := t.se.rxLine, rxBuf := t.se.rxBuf, rxFull := t.se.rxFull, rxOvr := t.se.rxOvr } })

/-- Derived from rules R22, R23. Over all steps of all agents: only the producer's push moves `head` or writes a
slot, only the consumer's pop moves `tail`, only those two move `count`, and only RB.INIT writes `cap` and `bound`;
a push and a pop are taken only by the agent that holds their port. -/
def Obligations.IndicesBelongToTheirRoles : Prop :=
  ∀ s s' : State, s.Inv → step s = .next s' → s.initsBuffer = false →
    s'.rb.cap = s.rb.cap ∧ s'.rb.bound = s.rb.bound ∧
    (s.pushes = false → s'.rb.head = s.rb.head ∧ s'.rb.slots = s.rb.slots) ∧
    (s.pops = false → s'.rb.tail = s.rb.tail) ∧
    (s.pushes = false → s.pops = false → s'.rb.count = s.rb.count) ∧
    (∀ a p bytes xs, s.inputs = .command a p bytes :: xs → s.pushes = true → a = holderAgent s.params.producer) ∧
    (∀ a p bytes xs, s.inputs = .command a p bytes :: xs → s.pops = true → a = holderAgent s.params.consumer) ∧
    (∀ xs, s.inputs = .resume :: xs → s.pushes = true → s.params.producer = .fg) ∧
    (∀ xs, s.inputs = .resume :: xs → s.pops = true → s.params.consumer = .fg)

/-- Derived from rule R33. Over all steps of all agents: `txq` changes only in SE.INIT, SE.SEND and SE.TXISR, `rxq`
only in SE.INIT, SE.RECV and SE.RXISR, so no RB command reaches either; SE.SEND alone pushes to `txq` and SE.TXISR
alone pops from it, SE.RXISR alone pushes to `rxq` and SE.RECV alone pops from it; SE.INIT, SE.SEND and SE.RECV are
taken by the foreground alone, SE.TXISR and SE.RXISR by the interrupt context alone. -/
def Obligations.EngineQueuesAreReachedByTheirOperationsOnly : Prop :=
  ∀ s s' : State, s.Inv → step s = .next s' →
    (s'.se.txq ≠ s.se.txq →
      s.initsEngine = true ∨ (∃ b, s.performs = some (.seSend b)) ∨ s.performs = some .seTxisr) ∧
    (s'.se.rxq ≠ s.se.rxq → s.initsEngine = true ∨ s.receives = true ∨ s.performs = some .seRxisr) ∧
    (s.initsEngine = false → (∀ b, s.performs ≠ some (.seSend b)) →
      s'.se.txq.head = s.se.txq.head ∧ s'.se.txq.slots = s.se.txq.slots) ∧
    (s.initsEngine = false → s.performs ≠ some .seTxisr → s'.se.txq.tail = s.se.txq.tail) ∧
    (s.initsEngine = false → s.performs ≠ some .seRxisr →
      s'.se.rxq.head = s.se.rxq.head ∧ s'.se.rxq.slots = s.se.rxq.slots) ∧
    (s.initsEngine = false → s.receives = false → s'.se.rxq.tail = s.se.rxq.tail) ∧
    (∀ a p bytes xs, s.inputs = .command a p bytes :: xs →
      s.initsEngine = true ∨ (∃ b, s.performs = some (.seSend b)) ∨ s.receives = true → a = .fg) ∧
    (∀ a p bytes xs, s.inputs = .command a p bytes :: xs →
      s.performs = some .seTxisr ∨ s.performs = some .seRxisr → a = .irq) ∧
    (∀ p bytes xs, s.inputs = .start p bytes :: xs →
      s.performs ≠ some .seTxisr ∧ s.performs ≠ some .seRxisr)

/-- Derived from rules R101, R135, R224, R238. Who may issue what: a port that does not accept the operation and an
agent that does not own an SE port are refused as `WRONG_PORT`; a third party on the RB unit, a foreground command
while the foreground is busy, and RB.INIT during an operation on the buffer as `ROLE`. Which of the two reasons
answers where rule R238 leaves both open is the model's choice (log entry 9). The fourth clause is the model's: that
a foreground command meets `ROLE` while the foreground is busy is read from rule R286 (log entry 9), and that
SE.INIT, which rule R170 calls never refused, meets it too is log entry 14. -/
def Obligations.PortsAndRolesAreChecked : Prop :=
  ∀ (i : Instr) (s : State),
    (s.issue.port ∉ portsOf i → exec i s = .refused .wrongPort) ∧
    (s.issue.port ∈ portsOf i → s.issue.agent ≠ portOwner s.params s.issue.port → opClass i.opcode ≠ 0x0 →
      exec i s = .refused .wrongPort) ∧
    (s.issue.port ∈ portsOf i → s.issue.agent ≠ portOwner s.params s.issue.port → opClass i.opcode = 0x0 →
      exec i s = .refused .role) ∧
    (s.issue.port ∈ portsOf i → s.issue.agent = portOwner s.params s.issue.port → s.issue.agent = .fg →
      s.fg ≠ none → exec i s = .refused .role) ∧
    (∀ c, i = .rbInit c → s.issue.port ∈ portsOf i → s.issue.agent = portOwner s.params s.issue.port →
      s.inProgressOn .rb = true → exec i s = .refused .role)

/-- Derived from rules R135, R224. In a state with the invariant an operation that its port accepts from its owner
is refused only for the reasons of the table, each under its condition, or as `ROLE` in one case more, a foreground
command while the foreground is busy. That case is the model's, not the table's: log entry 9, read from rule R286,
and log entry 14 for SE.INIT. No handler and no line event is refused as `ROLE`, and of the commands of another
holder RB.INIT alone, during an operation on the buffer. -/
def Obligations.RefusalsAreTheTables : Prop :=
  ∀ (i : Instr) (s : State) (r : Refusal), s.Inv → s.issue.port ∈ portsOf i →
    s.issue.agent = portOwner s.params s.issue.port → exec i s = .refused r →
    r = .role ∧ (s.issue.agent = .fg ∧ s.fg ≠ none ∨ (∃ c, i = .rbInit c) ∧ s.inProgressOn .rb = true) ∨
    r = .unbound ∧ opClass i.opcode = 0x0 ∧ (∀ c, i ≠ .rbInit c) ∧ s.rb.bound = false ∨
    r = .capExceedsSlots ∧ (∃ c : Idx, i = .rbInit c ∧ s.params.slots.toNat < c.toNat) ∨
    r = .notInited ∧ s.se.inited = false ∧
      ((∃ b, i = .seSend b) ∨ i = .seRecv ∨ i = .seEi ∨ i = .seDi ∨ i = .seRxempty ∨ ∃ d, i = .seCfgrd d) ∨
    r = .cfgIndex ∧ (∃ d : Byte, i = .seCfgrd d ∧ 7 < d.toNat) ∨
    r = .notEnabled ∧
      (i = .seTxisr ∧ s.se.txisrEnabled = false ∨ i = .seRxisr ∧ s.se.rxisrEnabled = false ∨
        i = .lineTxdone ∧ s.se.txReady = true)

/-! ### Order, loss and progress -/

/-- Derived, as rule R47 is. Over every run, with every interleaving: at every state with `inited`, the bytes
accepted by SE.SEND since the last successful SE.INIT are the bytes sent on the line since then, then the byte in
flight, then the contents of `txq`. -/
def Obligations.TransmitOrder : Prop :=
  ∀ (n : Nat) (s t : State) (l m : TxLedger), s.Inv → s.se.inited = false →
    ledgerRun TxLedger.enter n l s = some (m, t) → t.se.inited = true →
    m.sent = t.se.txLine.drop m.start ++ t.inFlight ++ t.se.txq.contents t.params .txq

/-- Derived, as rule R48 is. Over every run, with every interleaving, at every state with `inited` in which no
SE.RECV is in progress: the bytes SE.RECV returned, then the contents of `rxq`, then the waiting byte are a
subsequence of the arrivals since the last successful SE.INIT; the missing ones are as many as were overwritten and
dropped; every overwriting sets `rx_ovr`, and `rx_drop` counts the drops until it saturates. -/
def Obligations.ReceiveOrder : Prop :=
  ∀ (n : Nat) (s t : State) (l m : RxLedger), s.Inv → s.se.inited = false → s.fg = none →
    ledgerRun RxLedger.enter n l s = some (m, t) → t.se.inited = true → t.inProgressOn .rxq = false →
    (m.got ++ t.se.rxq.contents t.params .rxq ++ t.waiting).Sublist (t.se.rxLine.drop m.start) ∧
    (m.got ++ t.se.rxq.contents t.params .rxq ++ t.waiting).length + m.overwritten + m.dropped =
      (t.se.rxLine.drop m.start).length ∧
    (t.se.rxOvr = true ↔ 0 < m.overwritten) ∧
    t.se.rxDrop.toNat = min 65535 m.dropped

/-- Derived, as rule R268 is. From Idle, up to one byte more than the usable capacity is accepted with no handler
run; the next attempt is held and changes no unit. -/
def Obligations.SendQueuesOneMoreThanCapacity : Prop :=
  ∀ (s : State) (bs : List Byte), s.Inv → s.se.inited = true → s.se.transmitting = false → s.fg = none →
    bs.length ≤ 1 + s.se.txq.usable s.params.variant →
    ∃ t, performAll (bs.map fun b => commandOf .fg .seForeground (.seSend b)) s = .next t ∧
      t.responses = s.responses ++ bs.map (fun _ => { port := .seForeground, bytes := [0x00] }) ∧
      (bs.length = 1 + s.se.txq.usable s.params.variant → ∀ b, ∃ u,
        perform (commandOf .fg .seForeground (.seSend b)) t = .next u ∧ u.lastResponse = [0x01] ∧
          u.se = t.se ∧ u.rb = t.rb)

/-- Derived from rules R173, R268. A held sender is held for ever while the interrupt context is not scheduled:
whatever the line does, every further attempt is answered HELD and `txq` stays full. -/
def Obligations.HeldSenderWaitsForTheHandler : Prop :=
  ∀ (s t : State) (xs : List Input), s.Inv → s.se.inited = true → s.se.transmitting = true →
    s.se.txq.isFull s.params.variant = true →
    (∀ x ∈ xs, (∃ b, x = commandOf .fg .seForeground (.seSend b)) ∨ ∃ i, x = commandOf .line .seLine i) →
    performAll xs s = .next t →
    t.se.txq = s.se.txq ∧ t.se.transmitting = true ∧
    ∃ k, t.responses = s.responses ++ List.replicate k { port := .seForeground, bytes := [0x01] }

/-- Derived, as rule R284 is. From any state with `inited` and the foreground idle, steps of LINE.TXDONE and
SE.TXISR alone reach Idle in at most twice as many steps as there are bytes to send and one more, and the state is
then drained where no received byte waits. -/
def Obligations.EngineDrains : Prop :=
  ∀ s : State, s.Inv → s.se.inited = true → s.fg = none →
    ∃ (xs : List Input) (t : State),
      xs.length ≤ 2 * (s.se.txq.occ s.params.variant + 1) ∧
      (∀ x ∈ xs, x = commandOf .line .seLine .lineTxdone ∨ x = commandOf .irq .seInterrupt .seTxisr) ∧
      performAll xs s = .next t ∧
      t.se.transmitting = false ∧ t.se.txq.isEmpty t.params.variant = true ∧ t.se.txReady = true ∧
      t.se.txIe = false ∧
      (s.se.rxFull = false → t.Drained)
end

