-- ==== Sys2Proof/Laws/Operands.lean ====
section
/-! SUPPORT. The arithmetic of indices and results, and what the parameter `baudRejects` can express. -/

namespace Sys2Proof.Machine

open Sys2Proof.Config

/-- The circular advance in the natural numbers. -/
theorem nextIdx_toNat (i c : Idx) :
    (nextIdx i c).toNat = if i.toNat + 1 ≥ c.toNat then 0 else i.toNat + 1 := by
  unfold nextIdx
  have := c.isLt
  split <;> simp
  omega

/-- The advance stays inside the buffer. -/
theorem nextIdx_lt {i c : Idx} (h : 0 < c.toNat) : (nextIdx i c).toNat < c.toNat := by
  rw [nextIdx_toNat]
  split <;> omega

/-- Inside the buffer the advance is the successor modulo the capacity. -/
theorem nextIdx_mod {i c : Idx} (h : i.toNat < c.toNat) : (nextIdx i c).toNat = (i.toNat + 1) % c.toNat := by
  rw [nextIdx_toNat]
  split
  · have : i.toNat + 1 = c.toNat := by omega
    simp [this]
  · rw [Nat.mod_eq_of_lt (by omega)]

/-- In a degenerate buffer the advance stays at 0. -/
@[simp] theorem nextIdx_zero (i : Idx) : nextIdx i 0#16 = 0#16 := by
  simp [nextIdx]

/-- The saturating count. -/
theorem satAdd1_toNat (v : Idx) : (satAdd1 v).toNat = min 65535 (v.toNat + 1) := by
  unfold satAdd1
  have := v.isLt
  split
  · omega
  · rw [BitVec.toNat_add, show (1 : Idx).toNat = 1 from rfl]
    omega

/-- The two bytes of a 16-bit result are its low and high byte. -/
theorem highByte_lowByte_toNat (v : Idx) : (highByte v).toNat * 256 + (lowByte v).toNat = v.toNat := by
  have := v.isLt
  simp only [highByte, lowByte, BitVec.extractLsb'_toNat, Nat.shiftRight_eq_div_pow]
  omega

/-- A 16-bit operand assembled from its two bytes is the operand. -/
theorem imm16_bytes (v : Idx) : imm16 (lowByte v) (highByte v) = v := by
  simp only [imm16, lowByte, highByte]
  apply BitVec.eq_of_toNat_eq
  simp only [BitVec.toNat_append, BitVec.extractLsb'_toNat, Nat.shiftRight_eq_div_pow, Nat.shiftLeft_eq]
  have := v.isLt
  rw [← Nat.shiftLeft_eq, ← Nat.shiftLeft_add_eq_or_of_lt (by omega), Nat.shiftLeft_eq]
  omega

/-- A pattern with every field named takes in one tuple of operands and no other. -/
theorem patternTakes_exact (a b c d e f p0 p1 p2 p3 p4 p7 : Byte) :
    patternTakes ⟨some a, some b, some c, some d, some e, some f⟩ p0 p1 p2 p3 p4 p7 = true ↔
      a = p0 ∧ b = p1 ∧ c = p2 ∧ d = p3 ∧ e = p4 ∧ f = p7 := by
  simp [patternTakes, fieldTakes, and_assoc]

/-- Every total Boolean function of the six operands is the `BAUD_OK` of some instance (rule R10), so that a statement
over every instance is a statement over every `BAUD_OK`. -/
theorem baudRejects_complete (P : Params) (ok : Byte → Byte → Byte → Byte → Byte → Byte → Bool) :
    ∃ l : List BaudPattern, ∀ p0 p1 p2 p3 p4 p7,
      baudOk { P with baudRejects := l } p0 p1 p2 p3 p4 p7 = ok p0 p1 p2 p3 p4 p7 := by
  classical
  let rejected : Set (Byte × Byte × Byte × Byte × Byte × Byte) :=
    (fun x => ok x.1 x.2.1 x.2.2.1 x.2.2.2.1 x.2.2.2.2.1 x.2.2.2.2.2 = false)
  have : Finite Byte := Finite.of_injective BitVec.toFin (fun _ _ h => BitVec.eq_of_toFin_eq h)
  have hf : rejected.Finite := Set.toFinite _
  refine ⟨hf.toFinset.toList.map fun x =>
    ⟨some x.1, some x.2.1, some x.2.2.1, some x.2.2.2.1, some x.2.2.2.2.1, some x.2.2.2.2.2⟩, ?_⟩
  intro p0 p1 p2 p3 p4 p7
  have key : (hf.toFinset.toList.map fun x : Byte × Byte × Byte × Byte × Byte × Byte =>
      (⟨some x.1, some x.2.1, some x.2.2.1, some x.2.2.2.1, some x.2.2.2.2.1, some x.2.2.2.2.2⟩ : BaudPattern)).any
        (fun r => patternTakes r p0 p1 p2 p3 p4 p7) = true ↔ ok p0 p1 p2 p3 p4 p7 = false := by
    simp only [List.any_eq_true, List.mem_map, Finset.mem_toList, Set.Finite.mem_toFinset]
    constructor
    · rintro ⟨r, ⟨x, hx, rfl⟩, hr⟩
      obtain ⟨rfl, rfl, rfl, rfl, rfl, rfl⟩ := (patternTakes_exact ..).mp hr
      exact hx
    · intro h
      exact ⟨_, ⟨(p0, p1, p2, p3, p4, p7), h, rfl⟩, (patternTakes_exact ..).mpr ⟨rfl, rfl, rfl, rfl, rfl, rfl⟩⟩
  unfold baudOk
  cases h : ok p0 p1 p2 p3 p4 p7
  · rw [key.mpr h]
    rfl
  · rw [Bool.not_eq_true', ← Bool.not_eq_true, key, h]
    simp

end Sys2Proof.Machine
end

