-- ==== Sys2Proof/Laws/State.lean ====
section
/-! SUPPORT. One lemma per field per update of the state records, so that no later proof unfolds an update. -/

namespace Sys2Proof.Machine

open Sys2Proof.Config

/-! ### State -/

@[simp] theorem State.respond_params (s : State) (bytes : List Byte) : (s.respond bytes).params = s.params := rfl
@[simp] theorem State.respond_rb (s : State) (bytes : List Byte) : (s.respond bytes).rb = s.rb := rfl
@[simp] theorem State.respond_se (s : State) (bytes : List Byte) : (s.respond bytes).se = s.se := rfl
@[simp] theorem State.respond_fg (s : State) (bytes : List Byte) : (s.respond bytes).fg = s.fg := rfl
@[simp] theorem State.respond_issue (s : State) (bytes : List Byte) : (s.respond bytes).issue = s.issue := rfl
@[simp] theorem State.respond_responses (s : State) (bytes : List Byte) : (s.respond bytes).responses = s.responses ++ [{ port := s.issue.port, bytes := bytes }] := rfl
@[simp] theorem State.respond_inputs (s : State) (bytes : List Byte) : (s.respond bytes).inputs = s.inputs := rfl

@[simp] theorem State.withRb_params (s : State) (q : RingBuf) : (s.withRb q).params = s.params := rfl
@[simp] theorem State.withRb_rb (s : State) (q : RingBuf) : (s.withRb q).rb = q := rfl
@[simp] theorem State.withRb_se (s : State) (q : RingBuf) : (s.withRb q).se = s.se := rfl
@[simp] theorem State.withRb_fg (s : State) (q : RingBuf) : (s.withRb q).fg = s.fg := rfl
@[simp] theorem State.withRb_issue (s : State) (q : RingBuf) : (s.withRb q).issue = s.issue := rfl
@[simp] theorem State.withRb_responses (s : State) (q : RingBuf) : (s.withRb q).responses = s.responses := rfl
@[simp] theorem State.withRb_inputs (s : State) (q : RingBuf) : (s.withRb q).inputs = s.inputs := rfl

@[simp] theorem State.withSe_params (s : State) (e : SerialEngine) : (s.withSe e).params = s.params := rfl
@[simp] theorem State.withSe_rb (s : State) (e : SerialEngine) : (s.withSe e).rb = s.rb := rfl
@[simp] theorem State.withSe_se (s : State) (e : SerialEngine) : (s.withSe e).se = e := rfl
@[simp] theorem State.withSe_fg (s : State) (e : SerialEngine) : (s.withSe e).fg = s.fg := rfl
@[simp] theorem State.withSe_issue (s : State) (e : SerialEngine) : (s.withSe e).issue = s.issue := rfl
@[simp] theorem State.withSe_responses (s : State) (e : SerialEngine) : (s.withSe e).responses = s.responses := rfl
@[simp] theorem State.withSe_inputs (s : State) (e : SerialEngine) : (s.withSe e).inputs = s.inputs := rfl

@[simp] theorem State.withTxq_params (s : State) (q : RingBuf) : (s.withTxq q).params = s.params := rfl
@[simp] theorem State.withTxq_rb (s : State) (q : RingBuf) : (s.withTxq q).rb = s.rb := rfl
@[simp] theorem State.withTxq_se (s : State) (q : RingBuf) : (s.withTxq q).se = { s.se with txq := q } := rfl
@[simp] theorem State.withTxq_fg (s : State) (q : RingBuf) : (s.withTxq q).fg = s.fg := rfl
@[simp] theorem State.withTxq_issue (s : State) (q : RingBuf) : (s.withTxq q).issue = s.issue := rfl
@[simp] theorem State.withTxq_responses (s : State) (q : RingBuf) : (s.withTxq q).responses = s.responses := rfl
@[simp] theorem State.withTxq_inputs (s : State) (q : RingBuf) : (s.withTxq q).inputs = s.inputs := rfl

@[simp] theorem State.withRxq_params (s : State) (q : RingBuf) : (s.withRxq q).params = s.params := rfl
@[simp] theorem State.withRxq_rb (s : State) (q : RingBuf) : (s.withRxq q).rb = s.rb := rfl
@[simp] theorem State.withRxq_se (s : State) (q : RingBuf) : (s.withRxq q).se = { s.se with rxq := q } := rfl
@[simp] theorem State.withRxq_fg (s : State) (q : RingBuf) : (s.withRxq q).fg = s.fg := rfl
@[simp] theorem State.withRxq_issue (s : State) (q : RingBuf) : (s.withRxq q).issue = s.issue := rfl
@[simp] theorem State.withRxq_responses (s : State) (q : RingBuf) : (s.withRxq q).responses = s.responses := rfl
@[simp] theorem State.withRxq_inputs (s : State) (q : RingBuf) : (s.withRxq q).inputs = s.inputs := rfl

@[simp] theorem State.withFg_params (s : State) (f : Option Progress) : (s.withFg f).params = s.params := rfl
@[simp] theorem State.withFg_rb (s : State) (f : Option Progress) : (s.withFg f).rb = s.rb := rfl
@[simp] theorem State.withFg_se (s : State) (f : Option Progress) : (s.withFg f).se = s.se := rfl
@[simp] theorem State.withFg_fg (s : State) (f : Option Progress) : (s.withFg f).fg = f := rfl
@[simp] theorem State.withFg_issue (s : State) (f : Option Progress) : (s.withFg f).issue = s.issue := rfl
@[simp] theorem State.withFg_responses (s : State) (f : Option Progress) : (s.withFg f).responses = s.responses := rfl
@[simp] theorem State.withFg_inputs (s : State) (f : Option Progress) : (s.withFg f).inputs = s.inputs := rfl

@[simp] theorem State.finish_params (s : State) (f : Progress) (bytes : List Byte) : (s.finish f bytes).params = s.params := rfl
@[simp] theorem State.finish_rb (s : State) (f : Progress) (bytes : List Byte) : (s.finish f bytes).rb = s.rb := rfl
@[simp] theorem State.finish_se (s : State) (f : Progress) (bytes : List Byte) : (s.finish f bytes).se = s.se := rfl
@[simp] theorem State.finish_fg (s : State) (f : Progress) (bytes : List Byte) : (s.finish f bytes).fg = none := rfl
@[simp] theorem State.finish_issue (s : State) (f : Progress) (bytes : List Byte) : (s.finish f bytes).issue = s.issue := rfl
@[simp] theorem State.finish_responses (s : State) (f : Progress) (bytes : List Byte) : (s.finish f bytes).responses = s.responses ++ [{ port := f.port, bytes := bytes }] := rfl
@[simp] theorem State.finish_inputs (s : State) (f : Progress) (bytes : List Byte) : (s.finish f bytes).inputs = s.inputs := rfl

@[simp] theorem State.present_params (s : State) (a : Agent) (p : Port) (rest : List Byte) (again : List Byte → Input) :
    (s.present a p rest again).params = s.params := rfl
@[simp] theorem State.present_rb (s : State) (a : Agent) (p : Port) (rest : List Byte) (again : List Byte → Input) :
    (s.present a p rest again).rb = s.rb := rfl
@[simp] theorem State.present_se (s : State) (a : Agent) (p : Port) (rest : List Byte) (again : List Byte → Input) :
    (s.present a p rest again).se = s.se := rfl
@[simp] theorem State.present_fg (s : State) (a : Agent) (p : Port) (rest : List Byte) (again : List Byte → Input) :
    (s.present a p rest again).fg = s.fg := rfl
@[simp] theorem State.present_issue (s : State) (a : Agent) (p : Port) (rest : List Byte) (again : List Byte → Input) :
    (s.present a p rest again).issue = { agent := a, port := p } := rfl
@[simp] theorem State.present_responses (s : State) (a : Agent) (p : Port) (rest : List Byte) (again : List Byte → Input) :
    (s.present a p rest again).responses = s.responses := rfl
@[simp] theorem State.present_nil_inputs (s : State) (a : Agent) (p : Port) (again : List Byte → Input) :
    (s.present a p [] again).inputs = s.inputs := rfl
@[simp] theorem State.present_cons_inputs (s : State) (a : Agent) (p : Port) (b : Byte) (bs : List Byte)
    (again : List Byte → Input) : (s.present a p (b :: bs) again).inputs = again (b :: bs) :: s.inputs := rfl
@[simp] theorem State.buf_rb (s : State) : s.buf .rb = s.rb := rfl
@[simp] theorem State.buf_txq (s : State) : s.buf .txq = s.se.txq := rfl
@[simp] theorem State.buf_rxq (s : State) : s.buf .rxq = s.se.rxq := rfl
@[simp] theorem State.withBuf_rb (s : State) (q : RingBuf) : s.withBuf .rb q = s.withRb q := rfl
@[simp] theorem State.withBuf_txq (s : State) (q : RingBuf) : s.withBuf .txq q = s.withTxq q := rfl
@[simp] theorem State.withBuf_rxq (s : State) (q : RingBuf) : s.withBuf .rxq q = s.withRxq q := rfl

/-! ### Ring buffers -/

@[simp] theorem RingBuf.advanceHead_slots (q : RingBuf) : q.advanceHead.slots = q.slots := rfl
@[simp] theorem RingBuf.advanceHead_cap (q : RingBuf) : q.advanceHead.cap = q.cap := rfl
@[simp] theorem RingBuf.advanceHead_head (q : RingBuf) : q.advanceHead.head = nextIdx q.head q.cap := rfl
@[simp] theorem RingBuf.advanceHead_tail (q : RingBuf) : q.advanceHead.tail = q.tail := rfl
@[simp] theorem RingBuf.advanceHead_count (q : RingBuf) : q.advanceHead.count = q.count := rfl
@[simp] theorem RingBuf.advanceHead_bound (q : RingBuf) : q.advanceHead.bound = q.bound := rfl

@[simp] theorem RingBuf.advanceTail_slots (q : RingBuf) : q.advanceTail.slots = q.slots := rfl
@[simp] theorem RingBuf.advanceTail_cap (q : RingBuf) : q.advanceTail.cap = q.cap := rfl
@[simp] theorem RingBuf.advanceTail_head (q : RingBuf) : q.advanceTail.head = q.head := rfl
@[simp] theorem RingBuf.advanceTail_tail (q : RingBuf) : q.advanceTail.tail = nextIdx q.tail q.cap := rfl
@[simp] theorem RingBuf.advanceTail_count (q : RingBuf) : q.advanceTail.count = q.count := rfl
@[simp] theorem RingBuf.advanceTail_bound (q : RingBuf) : q.advanceTail.bound = q.bound := rfl

@[simp] theorem RingBuf.unbind_slots (q : RingBuf) : q.unbind.slots = q.slots := rfl
@[simp] theorem RingBuf.unbind_cap (q : RingBuf) : q.unbind.cap = 0 := rfl
@[simp] theorem RingBuf.unbind_head (q : RingBuf) : q.unbind.head = 0 := rfl
@[simp] theorem RingBuf.unbind_tail (q : RingBuf) : q.unbind.tail = 0 := rfl
@[simp] theorem RingBuf.unbind_count (q : RingBuf) : q.unbind.count = 0 := rfl
@[simp] theorem RingBuf.unbind_bound (q : RingBuf) : q.unbind.bound = false := rfl

@[simp] theorem RingBuf.init_slots (v : RbVariant) (c : Idx) (q : RingBuf) : (q.init v c).slots = q.slots := rfl
@[simp] theorem RingBuf.init_cap (v : RbVariant) (c : Idx) (q : RingBuf) : (q.init v c).cap = c := rfl
@[simp] theorem RingBuf.init_head (v : RbVariant) (c : Idx) (q : RingBuf) : (q.init v c).head = 0 := rfl
@[simp] theorem RingBuf.init_tail (v : RbVariant) (c : Idx) (q : RingBuf) : (q.init v c).tail = 0 := rfl
@[simp] theorem RingBuf.init_bound (v : RbVariant) (c : Idx) (q : RingBuf) : (q.init v c).bound = true := rfl
@[simp] theorem RingBuf.init_count_explicit (c : Idx) (q : RingBuf) : (q.init .explicit c).count = 0 := rfl
@[simp] theorem RingBuf.init_count_derived (c : Idx) (q : RingBuf) : (q.init .derived c).count = q.count := rfl

@[simp] theorem RingBuf.countUp_slots (v : RbVariant) (q : RingBuf) : (q.countUp v).slots = q.slots := by cases v <;> rfl
@[simp] theorem RingBuf.countUp_cap (v : RbVariant) (q : RingBuf) : (q.countUp v).cap = q.cap := by cases v <;> rfl
@[simp] theorem RingBuf.countUp_head (v : RbVariant) (q : RingBuf) : (q.countUp v).head = q.head := by cases v <;> rfl
@[simp] theorem RingBuf.countUp_tail (v : RbVariant) (q : RingBuf) : (q.countUp v).tail = q.tail := by cases v <;> rfl
@[simp] theorem RingBuf.countUp_bound (v : RbVariant) (q : RingBuf) : (q.countUp v).bound = q.bound := by cases v <;> rfl
@[simp] theorem RingBuf.countUp_count_explicit (q : RingBuf) : (q.countUp .explicit).count = q.count + 1 := rfl
@[simp] theorem RingBuf.countUp_derived (q : RingBuf) : q.countUp .derived = q := rfl

@[simp] theorem RingBuf.countDown_slots (v : RbVariant) (q : RingBuf) : (q.countDown v).slots = q.slots := by cases v <;> rfl
@[simp] theorem RingBuf.countDown_cap (v : RbVariant) (q : RingBuf) : (q.countDown v).cap = q.cap := by cases v <;> rfl
@[simp] theorem RingBuf.countDown_head (v : RbVariant) (q : RingBuf) : (q.countDown v).head = q.head := by cases v <;> rfl
@[simp] theorem RingBuf.countDown_tail (v : RbVariant) (q : RingBuf) : (q.countDown v).tail = q.tail := by cases v <;> rfl
@[simp] theorem RingBuf.countDown_bound (v : RbVariant) (q : RingBuf) : (q.countDown v).bound = q.bound := by cases v <;> rfl
@[simp] theorem RingBuf.countDown_count_explicit (q : RingBuf) : (q.countDown .explicit).count = q.count - 1 := rfl
@[simp] theorem RingBuf.countDown_derived (q : RingBuf) : q.countDown .derived = q := rfl

end Sys2Proof.Machine
end

