-- ==== Sys2Proof/Laws/Ops.lean ====
section
/-! SUPPORT. What each shared operation can answer, once: callers cite these and do not unfold the operations. -/

namespace Sys2Proof.Machine

open Sys2Proof.Config

/-! ### Sequencing and refusing -/

@[simp] theorem andThen_next {α β : Type} (a : α) (k : α → Result β) : andThen (.next a) k = k a := rfl
@[simp] theorem andThen_fault {α β : Type} (f : Fault) (k : α → Result β) : andThen (.fault f) k = .fault f := rfl
@[simp] theorem andThen_refused {α β : Type} (r : Refusal) (k : α → Result β) :
    andThen (.refused r) k = .refused r := rfl

/-- A sequence answers a value exactly where both parts do. -/
theorem andThen_eq_next {α β : Type} {r : Result α} {k : α → Result β} {b : β} :
    andThen r k = .next b ↔ ∃ a, r = .next a ∧ k a = .next b := by
  cases r <;> simp [andThen]

/-- A sequence faults where its first part does, or its second on the first's value. -/
theorem andThen_eq_fault {α β : Type} {r : Result α} {k : α → Result β} {f : Fault} :
    andThen r k = .fault f ↔ r = .fault f ∨ ∃ a, r = .next a ∧ k a = .fault f := by
  cases r <;> simp [andThen]

/-- A sequence is refused where its first part is, or its second on the first's value. -/
theorem andThen_eq_refused {α β : Type} {r : Result α} {k : α → Result β} {e : Refusal} :
    andThen r k = .refused e ↔ r = .refused e ∨ ∃ a, r = .next a ∧ k a = .refused e := by
  cases r <;> simp [andThen]

theorem refuseIf_eq_next {α : Type} {p : Bool} {r : Refusal} {k : Result α} {a : α} :
    refuseIf p r k = .next a ↔ p = false ∧ k = .next a := by
  cases p <;> simp [refuseIf]

theorem refuseIf_eq_fault {α : Type} {p : Bool} {r : Refusal} {k : Result α} {f : Fault} :
    refuseIf p r k = .fault f ↔ p = false ∧ k = .fault f := by
  cases p <;> simp [refuseIf]

theorem refuseIf_eq_refused {α : Type} {p : Bool} {r e : Refusal} {k : Result α} :
    refuseIf p r k = .refused e ↔ p = true ∧ r = e ∨ p = false ∧ k = .refused e := by
  cases p <;> simp [refuseIf]

@[simp] theorem refuseIf_true {α : Type} (r : Refusal) (k : Result α) : refuseIf true r k = .refused r := rfl
@[simp] theorem refuseIf_false {α : Type} (r : Refusal) (k : Result α) : refuseIf false r k = k := rfl

theorem requireBound_eq_next {α : Type} {q : RingBuf} {k : Result α} {a : α} :
    requireBound q k = .next a ↔ q.bound = true ∧ k = .next a := by
  simp [requireBound, refuseIf_eq_next]

theorem requireBound_of_bound {α : Type} {q : RingBuf} (h : q.bound = true) (k : Result α) :
    requireBound q k = k := by
  simp [requireBound, h]

theorem requireBound_of_unbound {α : Type} {q : RingBuf} (h : q.bound = false) (k : Result α) :
    requireBound q k = .refused .unbound := by
  simp [requireBound, h]

theorem requireInited_eq_next {s : State} {k : Result State} {t : State} :
    requireInited s k = .next t ↔ s.se.inited = true ∧ k = .next t := by
  simp [requireInited, refuseIf_eq_next]

theorem requireInited_of_inited {s : State} (h : s.se.inited = true) (k : Result State) :
    requireInited s k = k := by
  simp [requireInited, h]

theorem requireInited_of_uninited {s : State} (h : s.se.inited = false) (k : Result State) :
    requireInited s k = .refused .notInited := by
  simp [requireInited, h]

/-! ### Admission -/

theorem admit_eq_next {i : Instr} {s t : State} {k : Result State} :
    whenAdmitted i s k = .next t ↔ admissionRefusal i s = none ∧ k = .next t := by
  unfold whenAdmitted
  cases admissionRefusal i s <;> simp

theorem admit_eq_fault {i : Instr} {s : State} {k : Result State} {f : Fault} :
    whenAdmitted i s k = .fault f ↔ admissionRefusal i s = none ∧ k = .fault f := by
  unfold whenAdmitted
  cases admissionRefusal i s <;> simp

theorem admit_of_admitted {i : Instr} {s : State} (h : admissionRefusal i s = none) (k : Result State) :
    whenAdmitted i s k = k := by
  simp [whenAdmitted, h]

/-- What admission means: the port accepts the operation, the agent owns the port, the foreground is idle where it is
the agent, and RB.INIT meets a quiescent buffer. -/
theorem admissionRefusal_eq_none {i : Instr} {s : State} :
    admissionRefusal i s = none ↔
      s.issue.port ∈ portsOf i ∧ s.issue.agent = portOwner s.params s.issue.port ∧
        (s.issue.agent = .fg → s.fg = none) ∧ initDuringOperation i s = false := by
  unfold admissionRefusal
  split
  · simp_all
  · split
    · simp_all
    · split
      · rename_i h
        have : s.fg ≠ none := by
          intro h'
          simp [h'] at h
        simp_all
      · split
        · simp_all
        · simp_all [Option.isSome_iff_ne_none]

/-- A presented command of an operation that its port accepts is admitted. -/
theorem State.Presented.admitted {s : State} {p : Port} {i : Instr} (h : s.Presented p) (hp : p ∈ portsOf i)
    (hi : initDuringOperation i s = false) : admissionRefusal i s = none := by
  obtain ⟨h1, h2⟩ := h
  rw [admissionRefusal_eq_none, h1]
  exact ⟨hp, rfl, h2, hi⟩

theorem State.Presented.port {s : State} {p : Port} (h : s.Presented p) : s.issue.port = p := by
  rw [h.1]

/-! ### Slots -/

theorem slotByte_of_read {id : BufId} {m : Memory} {i : Nat} {v : Byte} (h : Memory.read? m i = some v) :
    slotByte id m i = v := by
  simp [slotByte, h]

theorem slotExists_iff {P : Params} {id : BufId} {q : RingBuf} {i : Idx} :
    slotExists P id q i = true ↔ i.toNat < q.cap.toNat ∧ q.cap.toNat ≤ (slotsOf P id).toNat := by
  simp [slotExists]

theorem memRead_eq_next {P : Params} {id : BufId} {q : RingBuf} {i : Idx} {v : Byte} :
    memRead P id q i = .next v ↔ slotExists P id q i = true ∧ slotByte id q.slots i.toNat = v := by
  unfold memRead
  split <;> simp_all

theorem memWrite_eq_next {P : Params} {id : BufId} {q q' : RingBuf} {i : Idx} {v : Byte} :
    memWrite P id q i v = .next q' ↔
      slotExists P id q i = true ∧ q' = { q with slots := Memory.write q.slots i.toNat v } := by
  unfold memWrite
  cases slotExists P id q i <;> simp [eq_comm]

/-! ### The predicates -/

/-- In a sound buffer that is not full, `head` names a slot. -/
theorem RingBuf.Sound.head_exists {P : Params} {id : BufId} {q : RingBuf} (h : q.Sound P id)
    (hf : q.isFull P.variant = false) : slotExists P id q q.head = true := by
  rw [slotExists_iff]
  refine ⟨?_, h.capFits⟩
  by_contra hc
  have h0 : q.cap.toNat = 0 := by
    by_contra h0
    exact hc (h.indices (by omega)).1
  have hz : q.cap = 0 := BitVec.eq_of_toNat_eq (by simpa using h0)
  obtain ⟨hh, ht⟩ := h.degenerate hz
  cases hv : P.variant with
  | explicit =>
    have := h.counted hv
    have hcnt : q.count = 0 := BitVec.eq_of_toNat_eq (by simp; omega)
    simp [RingBuf.isFull, hv, hcnt, hz] at hf
  | derived => simp [RingBuf.isFull, hv, hz, ht] at hf

/-- In a sound buffer that is not empty, `tail` names a slot. -/
theorem RingBuf.Sound.tail_exists {P : Params} {id : BufId} {q : RingBuf} (h : q.Sound P id)
    (he : q.isEmpty P.variant = false) : slotExists P id q q.tail = true := by
  rw [slotExists_iff]
  refine ⟨?_, h.capFits⟩
  by_contra hc
  have h0 : q.cap.toNat = 0 := by
    by_contra h0
    exact hc (h.indices (by omega)).2
  have hz : q.cap = 0 := BitVec.eq_of_toNat_eq (by simpa using h0)
  obtain ⟨hh, ht⟩ := h.degenerate hz
  cases hv : P.variant with
  | explicit =>
    have := h.counted hv
    have hcnt : q.count = 0 := BitVec.eq_of_toNat_eq (by simp; omega)
    simp [RingBuf.isEmpty, hv, hcnt] at he
  | derived => simp [RingBuf.isEmpty, hv, hh, ht] at he

/-! ### Push, pop and peek -/

/-- What `Push` can answer: the buffer is full and nothing changes, or one slot, `head` and `count` are written. -/
theorem RingBuf.push_eq_next {P : Params} {id : BufId} {b : Byte} {q q' : RingBuf} {ok : Bool} :
    q.push P id b = .next (q', ok) ↔ q.bound = true ∧
      (q.isFull P.variant = true ∧ q' = q ∧ ok = false ∨
        q.isFull P.variant = false ∧ slotExists P id q q.head = true ∧ ok = true ∧
          q' = ({ q with slots := Memory.write q.slots q.head.toNat b } : RingBuf).advanceHead.countUp P.variant) := by
  unfold RingBuf.push
  rw [requireBound_eq_next]
  refine and_congr_right fun _ => ?_
  cases q.isFull P.variant
  · simp only [Bool.false_eq_true, ↓reduceIte, andThen_eq_next, memWrite_eq_next, false_and, false_or, true_and]
    constructor
    · rintro ⟨q1, ⟨h1, rfl⟩, h2⟩
      cases h2
      exact ⟨h1, rfl, rfl⟩
    · rintro ⟨h1, rfl, rfl⟩
      exact ⟨_, ⟨h1, rfl⟩, rfl⟩
  · simp only [↓reduceIte, Host.Outcome.next.injEq, Prod.mk.injEq, reduceCtorEq, false_and, or_false, true_and]
    exact and_congr eq_comm eq_comm

/-- What `Pop` can answer: the buffer is empty and nothing changes, or `tail` and `count` are written. -/
theorem RingBuf.pop_eq_next {P : Params} {id : BufId} {q q' : RingBuf} {v : Byte} :
    q.pop P id = .next (q', v) ↔ q.bound = true ∧
      (q.isEmpty P.variant = true ∧ q' = q ∧ v = defaultByte ∨
        q.isEmpty P.variant = false ∧ slotExists P id q q.tail = true ∧
          v = slotByte id q.slots q.tail.toNat ∧ q' = q.advanceTail.countDown P.variant) := by
  unfold RingBuf.pop
  rw [requireBound_eq_next]
  refine and_congr_right fun _ => ?_
  cases q.isEmpty P.variant
  · simp only [Bool.false_eq_true, ↓reduceIte, andThen_eq_next, memRead_eq_next, false_and, false_or, true_and]
    constructor
    · rintro ⟨w, ⟨h1, rfl⟩, h2⟩
      cases h2
      exact ⟨h1, rfl, rfl⟩
    · rintro ⟨h1, rfl, rfl⟩
      exact ⟨_, ⟨h1, rfl⟩, rfl⟩
  · simp only [↓reduceIte, Host.Outcome.next.injEq, Prod.mk.injEq, reduceCtorEq, false_and, or_false, true_and]
    exact and_congr eq_comm eq_comm

/-- What `Peek` can answer. -/
theorem RingBuf.peek_eq_next {P : Params} {id : BufId} {q : RingBuf} {v : Byte} :
    q.peek P id = .next v ↔ q.bound = true ∧
      (q.isEmpty P.variant = true ∧ v = defaultByte ∨
        q.isEmpty P.variant = false ∧ slotExists P id q q.tail = true ∧ v = slotByte id q.slots q.tail.toNat) := by
  unfold RingBuf.peek
  rw [requireBound_eq_next]
  refine and_congr_right fun _ => ?_
  cases q.isEmpty P.variant
  · simp [memRead_eq_next, @eq_comm _ v]
  · simp [@eq_comm _ v]

/-- A push keeps the canonical form of the slots. -/
theorem RingBuf.push_wf {P : Params} {id : BufId} {b : Byte} {q q' : RingBuf} {ok : Bool}
    (h : q.push P id b = .next (q', ok)) (hw : Memory.wf q.slots) : Memory.wf q'.slots := by
  obtain ⟨-, ⟨-, rfl, -⟩ | ⟨-, -, -, rfl⟩⟩ := RingBuf.push_eq_next.mp h
  · exact hw
  · simpa using Memory.write_wf _ _ hw

/-- A pop writes no slot. -/
theorem RingBuf.pop_slots {P : Params} {id : BufId} {q q' : RingBuf} {v : Byte}
    (h : q.pop P id = .next (q', v)) : q'.slots = q.slots := by
  obtain ⟨-, ⟨-, rfl, -⟩ | ⟨-, -, -, rfl⟩⟩ := RingBuf.pop_eq_next.mp h
  · rfl
  · simp

/-! ### The port hardware and the handlers -/

theorem SerialEngine.txWrite_eq_next {e e' : SerialEngine} {b : Byte} :
    e.txWrite b = .next e' ↔ e.txReady = true ∧ e' = { e with txBuf := b, txReady := false } := by
  unfold SerialEngine.txWrite
  cases e.txReady <;> simp [eq_comm]

/-- A handler runs where it is enabled, on the state as it stands: entry saves and changes nothing. -/
theorem runHandler_eq_next {enabled : Bool} {handler : State → Result State} {s t : State} :
    runHandler enabled handler s = .next t ↔ enabled = true ∧ handler s = .next t := by
  simp [runHandler, refuseIf_eq_next]

end Sys2Proof.Machine
end

