-- ==== Sys2Proof/Laws/PerInstr.lean ====
section
/-! SUPPORT. A statement about every operation, one lemma a constructor: the encoder gives a command of exactly the
length that its format has (rules R104, R110). -/

namespace Sys2Proof.Laws.EncodedLength

open Sys2Proof

/-- The encoded command has the length of its format. -/
def Statement (i : Instr) : Prop := (encode i).length = i.format.length

theorem rbInit (cap : Idx) : Statement (.rbInit cap) := rfl
theorem rbEmpty : Statement .rbEmpty := rfl
theorem rbFull : Statement .rbFull := rfl
theorem rbPeek : Statement .rbPeek := rfl
theorem rbPush (b : Byte) : Statement (.rbPush b) := rfl
theorem rbPop : Statement .rbPop := rfl
theorem rbOcc : Statement .rbOcc := rfl
theorem seInit (p0 p1 p2 p3 p4 p5 p6 p7 : Byte) : Statement (.seInit p0 p1 p2 p3 p4 p5 p6 p7) := rfl
theorem seSend (b : Byte) : Statement (.seSend b) := rfl
theorem seRecv : Statement .seRecv := rfl
theorem seEi : Statement .seEi := rfl
theorem seDi : Statement .seDi := rfl
theorem seRxempty : Statement .seRxempty := rfl
theorem seStatus : Statement .seStatus := rfl
theorem seRxdrop : Statement .seRxdrop := rfl
theorem seCfgrd (i : Byte) : Statement (.seCfgrd i) := rfl
theorem seTxisr : Statement .seTxisr := rfl
theorem seRxisr : Statement .seRxisr := rfl
theorem lineTxdone : Statement .lineTxdone := rfl
theorem lineRxbyte (b : Byte) : Statement (.lineRxbyte b) := rfl

end Sys2Proof.Laws.EncodedLength
end

