-- ==== Sys2Proof/Laws/Safety.lean ====
section
/-! SUPPORT. The invariant reads the units, the instance and the foreground's operation, and nothing else. -/

namespace Sys2Proof.Machine

/-- The latch, the responses and the pending inputs do not matter to the invariant. -/
theorem State.Inv.congr {s t : State} (h : s.Inv) (hp : t.params = s.params) (hr : t.rb = s.rb) (he : t.se = s.se)
    (hf : t.fg = s.fg) : t.Inv := by
  obtain ⟨p, rb, se, fg, issue, responses, inputs⟩ := s
  obtain ⟨p', rb', se', fg', issue', responses', inputs'⟩ := t
  simp only at hp hr he hf
  subst hp hr he hf
  exact ⟨h.rbSound, h.txSound, h.rxSound, h.rbLinked, h.txLinked, h.rxLinked,
    ⟨h.engine.enabled, h.engine.idle, h.engine.before, h.engine.after, h.engine.usable⟩, h.progress⟩

end Sys2Proof.Machine
end

