-- ==== Sys2Proof/Tests/Slice0.lean ====
section
/-! SUPPORT. Tests of the model, each of one word or one step, and the witnesses of the statements.
The expected values are those of 30_encoding.md (the opcode map and its formats), of 95_test_vectors.md (V, T, S, I, P)
and of the rules' own examples; each test names its source. -/

namespace Sys2Proof.Tests

open Sys2Proof Sys2Proof.Machine Sys2Proof.Config

/-! ### Helpers -/

/-- The next state of an answer. -/
def nextOf : Result State → Option State
  | .next t => some t
  | .fault _ => none
  | .refused _ => none

/-- The reason of a refusal. -/
def refusalOf : Result State → Option Refusal
  | .next _ => none
  | .fault _ => none
  | .refused r => some r

theorem runs {r : Result State} (h : (nextOf r).isSome = true) : ∃ t, r = .next t := by
  cases r with
  | next t => exact ⟨t, rfl⟩
  | fault f => cases h
  | refused e => cases h

/-- The state with a command latched on a port by the port's owner. -/
def on (p : Port) (s : State) : State := { s with issue := { agent := portOwner s.params p, port := p } }

theorem presented_on {p : Port} {s : State} (h : s.fg = none) : (on p s).Presented p := ⟨rfl, fun _ => h⟩

/-- The response to an operation, and what the test looks at after it. -/
def after {α : Type} (look : State → α) (p : Port) (i : Instr) (s : State) : Option (List Byte × α) :=
  (nextOf (exec i (on p s))).map fun t => (t.lastResponse, look t)

/-- `count` in the variant that has it. -/
def counter (v : RbVariant) (n : Idx) : Idx :=
  match v with
  | .explicit => n
  | .derived => 0

/-- A bound ring buffer. -/
def buffer (v : RbVariant) (cap head tail n : Idx) (slots : Memory) : RingBuf :=
  { slots := slots, cap := cap, head := head, tail := tail, count := counter v n, bound := true }

/-- An instance with buffers of two slots in the engine. -/
def inst (v : RbVariant) (slots : Idx) : Params := { resetParams with variant := v, slots := slots }

/-- A standalone RB unit in a given state. -/
def unit (v : RbVariant) (slots : Idx) (q : RingBuf) : State :=
  { State.reset with params := inst v slots, rb := q }

/-- An engine after `SE.INIT 1,2,3,4,5,6,7,8`, Idle. -/
def engineIdle (v : RbVariant) : SerialEngine :=
  { resetEngine with
    txq := buffer v 2 0 0 0 [], rxq := buffer v 2 0 0 0 [], inited := true
    cfg := { clockSource := 1, baudDivisorLow := 2, baudDivisorHigh := 3, modulationA := 4, modulationB := 5
             parityMode := 6, bitOrder := 7, oversamplingMode := 8 } }

/-- Both units ready and empty. -/
def idle (v : RbVariant) : State :=
  { State.reset with params := inst v 4, rb := buffer v 4 0 0 0 [], se := engineIdle v }

/-- Draining with 0x41 in the output register and 0x42 queued; 0x10 received and 0x12 waiting; one byte in the RB
unit. In the DERIVED variant both engine buffers are full. -/
def busy (v : RbVariant) (ready : Bool) : State :=
  { idle v with
    rb := buffer v 4 1 0 1 [(0, 0x31)]
    se := { engineIdle v with
      txq := buffer v 2 1 0 1 [(0, 0x42)], rxq := buffer v 2 1 0 1 [(0, 0x10)]
      transmitting := true, txIe := true, txReady := ready, txBuf := 0x41
      rxIe := true, rxFull := true, rxBuf := 0x12
      txLine := if ready then [0x41] else [], rxLine := [0x10, 0x12] } }

/-- The end of vector S6: Draining, 0x41 in flight, `txq` full of 0x42 and 0x43. -/
def held : State :=
  { idle .explicit with
    se := { engineIdle .explicit with
      txq := buffer .explicit 2 0 0 2 [(0, 0x42), (1, 0x43)]
      transmitting := true, txIe := true, txReady := false, txBuf := 0x41 } }

/-- `rxq` full of 0x10 and 0x11, 0x12 waiting, the receive interrupt enabled. -/
def overrun (drops : Idx) : State :=
  { idle .explicit with
    se := { engineIdle .explicit with
      rxq := buffer .explicit 2 0 0 2 [(0, 0x10), (1, 0x11)]
      rxIe := true, rxFull := true, rxBuf := 0x12, rxDrop := drops } }

/-- The state with the foreground inside an operation. -/
def inside (op : MicroOp) (p : Port) (upc : Upc) (val : Byte) (s : State) : State :=
  { s with fg := some { op := op, port := p, upc := upc, flag := false, val := val } }

/-! ### Encoding: one word of every operation, written from rules R104 to R106 -/

theorem test_decode_rbInit : decode [0b00000000#8, 0x02, 0x01] = .ok (.rbInit 258, []) := by decide
theorem test_decode_rbEmpty : decode [0b00000001#8] = .ok (.rbEmpty, []) := by decide
theorem test_decode_rbFull : decode [0b00000010#8] = .ok (.rbFull, []) := by decide
theorem test_decode_rbPeek : decode [0b00000011#8] = .ok (.rbPeek, []) := by decide
theorem test_decode_rbPush : decode [0b00000100#8, 0b01000001#8] = .ok (.rbPush 0x41, []) := by decide
theorem test_decode_rbPop : decode [0b00000101#8] = .ok (.rbPop, []) := by decide
theorem test_decode_rbOcc : decode [0b00000110#8] = .ok (.rbOcc, []) := by decide
theorem test_decode_seInit :
    decode [0b10000000#8, 1, 2, 3, 4, 5, 6, 7, 8] = .ok (.seInit 1 2 3 4 5 6 7 8, []) := by decide
theorem test_decode_seSend : decode [0b10000001#8, 0b01000001#8] = .ok (.seSend 0x41, []) := by decide
theorem test_decode_seRecv : decode [0b10000010#8] = .ok (.seRecv, []) := by decide
theorem test_decode_seEi : decode [0b10000011#8] = .ok (.seEi, []) := by decide
theorem test_decode_seDi : decode [0b10000100#8] = .ok (.seDi, []) := by decide
theorem test_decode_seRxempty : decode [0b10000101#8] = .ok (.seRxempty, []) := by decide
theorem test_decode_seStatus : decode [0b10000110#8] = .ok (.seStatus, []) := by decide
theorem test_decode_seRxdrop : decode [0b10000111#8] = .ok (.seRxdrop, []) := by decide
theorem test_decode_seCfgrd : decode [0b10001000#8, 0b00000111#8] = .ok (.seCfgrd 7, []) := by decide
theorem test_decode_seTxisr : decode [0b10010000#8] = .ok (.seTxisr, []) := by decide
theorem test_decode_seRxisr : decode [0b10010001#8] = .ok (.seRxisr, []) := by decide
theorem test_decode_lineTxdone : decode [0b10100000#8] = .ok (.lineTxdone, []) := by decide
theorem test_decode_lineRxbyte : decode [0b10100001#8, 0b00010000#8] = .ok (.lineRxbyte 0x10, []) := by decide

/-- T10: the reserved opcodes of the vector. -/
theorem test_decode_reserved :
    ∀ op ∈ [0x07#8, 0x10, 0x7F, 0x89, 0x8F, 0x92, 0x9F, 0xA2, 0xFF], decode [op] = .error .illegalOpcode := by decide

/-- Log entry 8: a command cut short is no command. -/
theorem test_decode_incomplete :
    decode [] = .error .incomplete ∧ decode [0x00, 0x04] = .error .incomplete ∧
      decode [0x04] = .error .incomplete ∧ decode [0x80, 1, 2, 3, 4, 5, 6, 7] = .error .incomplete := by decide

/-- P1: the program's bytes, one command after another. -/
theorem test_decode_sequence : decode [0x04, 0x0A, 0x04, 0x0B, 0x05] = .ok (.rbPush 0x0A, [0x04, 0x0B, 0x05]) := by
  decide

/-- A table word's bit 0 is bit 0 of byte 0 (SE.INIT 1 to 8, nine bytes). -/
theorem test_tableWord : decodeTableWord 72 0x080706050403020180 = some (.seInit 1 2 3 4 5 6 7 8) := by decide

/-- Rule R107, S4: the one ill-formed term is refused by the check. -/
theorem test_wellFormed_cfgrd :
    (Instr.seCfgrd 7).wellFormed = true ∧ (Instr.seCfgrd 8).wellFormed = false ∧
      (Instr.seCfgrd 255).wellFormed = false := by decide

/-- `withFetchWord` makes the next step run the word: SE.STATUS after reset answers 00 08 (S1). -/
theorem test_withFetchWord :
    ((nextOf (step (State.reset.withFetchWord 8 0x86))).map State.lastResponse) = some [0x00, 0x08] := by decide

/-- A word of an interrupt entry reaches the interrupt port; after reset it is not enabled (S1). -/
theorem test_withFetchWord_handler :
    refusalOf (step (State.reset.withFetchWord 8 0x90)) = some .notEnabled := by decide

/-- A reserved opcode is refused by the step (T10). -/
theorem test_withFetchWord_reserved :
    refusalOf (step (State.reset.withFetchWord 8 0xFF)) = some .illegalOpcode := by decide

/-! ### RB unit -/

/-- T5: `RB.INIT 258` on 300 slots. -/
theorem test_rbInit :
    after (fun t => (t.rb.cap, t.rb.head, t.rb.tail, t.rb.bound)) .rbProducer (.rbInit 258)
      (unit .explicit 300 resetRingBuf) = some ([0x00], 258, 0, 0, true) := by decide

/-- T5: `RB.INIT 9` on 8 slots. -/
theorem test_rbInit_too_large :
    refusalOf (exec (.rbInit 9) (on .rbConsumer State.reset)) = some .capExceedsSlots := by decide

/-- T1: capacity 0 is empty and full at once. -/
theorem test_rbEmpty_degenerate :
    after State.rb .rbConsumer .rbEmpty (unit .explicit 8 (buffer .explicit 0 0 0 0 [])) =
      some ([0x00, 0x01], buffer .explicit 0 0 0 0 []) := by decide

/-- T7: a stored zero byte makes the buffer non-empty. -/
theorem test_rbEmpty_zero :
    after (fun _ => ()) .rbConsumer .rbEmpty (unit .explicit 8 (buffer .explicit 2 1 0 1 [(0, 0)])) =
      some ([0x00, 0x00], ()) := by decide

/-- T12: DERIVED, cap 5, head 0, tail 1 is full. -/
theorem test_rbFull_derived :
    after (fun _ => ()) .rbProducer .rbFull (unit .derived 8 (buffer .derived 5 0 1 4 [])) =
      some ([0x00, 0x01], ()) := by decide

/-- Rule R138: EXPLICIT, cap 4, count 3 is not full. -/
theorem test_rbFull :
    after (fun _ => ()) .rbProducer .rbFull (unit .explicit 8 (buffer .explicit 4 3 0 3 [])) =
      some ([0x00, 0x00], ()) := by decide

/-- Rule R140: the oldest byte, and nothing is taken. -/
theorem test_rbPeek :
    after State.rb .rbConsumer .rbPeek (unit .explicit 8 (buffer .explicit 4 2 0 2 [(0, 0x41), (1, 0x42)])) =
      some ([0x00, 0x41], buffer .explicit 4 2 0 2 [(0, 0x41), (1, 0x42)]) := by decide

/-- T8: RB.PEEK on the producer port. -/
theorem test_rbPeek_port :
    refusalOf (exec .rbPeek (on .rbProducer (idle .explicit))) = some .wrongPort := by decide

/-- Rule R144: cap 4, head 3: the wrap of `head`. -/
theorem test_rbPush :
    after State.rb .rbProducer (.rbPush 0x04)
      (unit .explicit 8 (buffer .explicit 4 3 0 3 [(0, 1), (1, 2), (2, 3)])) =
      some ([0x00, 0x01], buffer .explicit 4 0 0 4 [(0, 1), (1, 2), (2, 3), (3, 4)]) := by decide

/-- T11: the largest capacity. -/
theorem test_rbPush_largest :
    after State.rb .rbProducer (.rbPush 0x77) (unit .explicit 65535 (buffer .explicit 65535 65534 0 65534 [])) =
      some ([0x00, 0x01], buffer .explicit 65535 0 0 65535 [(65534, 0x77)]) := by decide

/-- Rule R148: the slot keeps its byte. -/
theorem test_rbPop :
    after State.rb .rbConsumer .rbPop
      (unit .explicit 8 (buffer .explicit 4 0 0 4 [(0, 1), (1, 2), (2, 3), (3, 4)])) =
      some ([0x00, 0x01], buffer .explicit 4 0 1 3 [(0, 1), (1, 2), (2, 3), (3, 4)]) := by decide

/-- V1d, line 14 and after: DERIVED, the wrap of `tail`. -/
theorem test_rbPop_derived :
    after State.rb .rbConsumer .rbPop
      (unit .derived 8 (buffer .derived 4 0 3 1 [(0, 1), (1, 2), (2, 3), (3, 5)])) =
      some ([0x00, 0x05], buffer .derived 4 0 0 0 [(0, 1), (1, 2), (2, 3), (3, 5)]) := by decide

/-- T12: the occupancy across the wrap. -/
theorem test_rbOcc_derived :
    after (fun _ => ()) .rbProducer .rbOcc (unit .derived 8 (buffer .derived 5 1 4 2 [])) =
      some ([0x00, 0x02, 0x00], ()) := by decide

/-- T11: a 16-bit result, low byte first. -/
theorem test_rbOcc_largest :
    after (fun _ => ()) .rbConsumer .rbOcc (unit .explicit 65535 (buffer .explicit 65535 0 0 65535 [])) =
      some ([0x00, 0xFF, 0xFF], ()) := by decide

/-! ### SE unit, foreground -/

/-- S8: a new SE.INIT while Draining keeps `tx_buf` and the slots and drops the queue. -/
theorem test_seInit :
    after (fun t => (t.se.status, t.se.txq, t.se.txBuf, t.se.txLine)) .seForeground (.seInit 1 2 3 4 5 6 7 8) held =
      some ([0x00], 0x88, buffer .explicit 2 0 0 0 [(0, 0x42), (1, 0x43)], 0x41, []) := by decide

/-- S2: DERIVED with `TX_CAP` 1. -/
theorem test_seInit_cfgerr :
    after (fun t => (t.se.status, t.se.txq.bound)) .seForeground (.seInit 1 2 3 4 5 6 7 8)
      { State.reset with params := { inst .derived 8 with txCap := 1 } } = some ([0x02], 0x48, false) := by decide

/-- S6, line 2: the direct write. -/
theorem test_seSend_direct :
    after (fun t => (t.se.txBuf, t.se.status, t.se.txq.count)) .seForeground (.seSend 0x41) (idle .explicit) =
      some ([0x00], 0x41, 0x83, 0) := by decide

/-- S6, line 5: held, and nothing changes. -/
theorem test_seSend_held :
    after State.se .seForeground (.seSend 0x44) held = some ([0x01], held.se) := by decide

/-- Rule R174: the oldest byte of `rxq`. -/
theorem test_seRecv :
    after (fun t => (t.se.rxq.tail, t.se.rxq.count)) .seForeground .seRecv (overrun 0) =
      some ([0x00, 0x10], 1, 1) := by decide

/-- S7: an empty `rxq`. -/
theorem test_seRecv_empty :
    after State.se .seForeground .seRecv (idle .explicit) = some ([0x00, 0x00], (idle .explicit).se) := by decide

/-- S5: while Draining SE.EI gives STATUS 87. -/
theorem test_seEi :
    after (fun t => t.se.status) .seForeground .seEi held = some ([0x00], 0x87) := by decide

/-- S1: before SE.INIT. -/
theorem test_seEi_uninited : refusalOf (exec .seEi (on .seForeground State.reset)) = some .notInited := by decide

/-- S5, P4: SE.DI clears the receive enable and leaves `tx_ie`. -/
theorem test_seDi :
    after (fun t => (t.se.rxIe, t.se.txIe)) .seForeground .seDi (busy .explicit false) =
      some ([0x00], false, true) := by decide

/-- I3: a byte is there. -/
theorem test_seRxempty :
    after (fun _ => ()) .seForeground .seRxempty (busy .explicit false) = some ([0x00, 0x00], ()) := by decide

/-- I8: STATUS 9F. -/
theorem test_seStatus :
    after (fun _ => ()) .seForeground .seStatus (busy .explicit true) = some ([0x00, 0x9F], ()) := by decide

/-- S1: legal before SE.INIT. -/
theorem test_seStatus_reset :
    after (fun _ => ()) .seForeground .seStatus State.reset = some ([0x00, 0x08], ()) := by decide

/-- I7: the saturated counter. -/
theorem test_seRxdrop :
    after (fun _ => ()) .seForeground .seRxdrop (overrun 65535) = some ([0x00, 0xFF, 0xFF], ()) := by decide

/-- S4: index 5 is `parity_mode`. -/
theorem test_seCfgrd :
    after (fun _ => ()) .seForeground (.seCfgrd 5) (idle .explicit) = some ([0x00, 0x06], ()) := by decide

/-- S1: the index is tested before `inited`. -/
theorem test_seCfgrd_index :
    refusalOf (exec (.seCfgrd 8) (on .seForeground State.reset)) = some .cfgIndex := by decide

/-! ### Handlers and line events -/

/-- I1: the feed path. -/
theorem test_seTxisr_feed :
    (nextOf (exec .seTxisr (on .seInterrupt { held with se := { held.se with txReady := true } }))).map
      (fun t => (t.se.txBuf, t.se.txReady, t.se.txq.tail, t.se.txq.count, t.se.status)) =
      some (0x42, false, 1, 1, 0x83) := by decide

/-- V2, line 4: the empty path. -/
theorem test_seTxisr_idle :
    (nextOf (exec .seTxisr (on .seInterrupt { idle .explicit with
      se := { engineIdle .explicit with transmitting := true, txIe := true, txBuf := 0x41 } }))).map
      (fun t => t.se.status) = some 0x88 := by decide

/-- I4: the newest byte is dropped and counted. -/
theorem test_seRxisr_drop :
    (nextOf (exec .seRxisr (on .seInterrupt (overrun 0)))).map (fun t => (t.se.rxFull, t.se.rxDrop, t.se.rxq)) =
      some (false, 1, buffer .explicit 2 0 0 2 [(0, 0x10), (1, 0x11)]) := by decide

/-- I7: the counter saturates. -/
theorem test_seRxisr_saturates :
    (nextOf (exec .seRxisr (on .seInterrupt (overrun 65535)))).map (fun t => t.se.rxDrop) = some 65535 := by decide

/-- V2, line 3: the byte reaches the trace and `tx_buf` keeps it. -/
theorem test_lineTxdone :
    (nextOf (exec .lineTxdone (on .seLine held))).map (fun t => (t.se.txLine, t.se.txReady, t.se.txBuf)) =
      some ([0x41], true, 0x41) := by decide

/-- I5: the older byte is lost and the overrun recorded. -/
theorem test_lineRxbyte :
    (nextOf (exec (.lineRxbyte 0x21) (on .seLine (busy .explicit false)))).map
      (fun t => (t.se.rxBuf, t.se.rxOvr, t.se.rxFull, t.se.rxLine)) =
      some (0x21, true, true, [0x10, 0x12, 0x21]) := by decide

/-- I6: before SE.INIT nothing changes. -/
theorem test_lineRxbyte_uninited :
    nextOf (exec (.lineRxbyte 0x10) (on .seLine State.reset)) = some (on .seLine State.reset) := by decide

/-! ### Micro-steps -/

/-- P5a, P2: the slot is written and nothing is published. -/
theorem test_microPush :
    (nextOf (microStep (inside (.push 0x32) .rbProducer .u2 0
      (unit .explicit 8 (buffer .explicit 2 1 0 1 [(0, 0x31)]))))).map State.rb =
      some (buffer .explicit 2 1 0 1 [(0, 0x31), (1, 0x32)]) := by decide

/-- P5c, P3: the DERIVED push publishes with `head` and answers. -/
theorem test_microPush_derived :
    (nextOf (microStep (inside (.push 0x32) .rbProducer .u3 0
      (unit .derived 8 (buffer .derived 3 1 1 0 [(0, 0x31), (1, 0x32)]))))).map
      (fun t => (t.rb.head, t.fg, t.lastResponse)) = some (2, none, [0x00, 0x01]) := by decide

/-- P5d, C4: the receive releases with `count` and answers the byte it read. -/
theorem test_microRecv :
    (nextOf (microStep (inside .recv .seForeground .u4 0x10
      { overrun 1 with se := { (overrun 1).se with
        rxq := buffer .explicit 2 0 1 2 [(0, 0x10), (1, 0x11)], rxFull := false } }))).map
      (fun t => (t.se.rxq.count, t.lastResponse)) = some (1, [0x00, 0x10]) := by decide

/-- P5d: SE.RXISR between C3 and C4 finds the buffer full. -/
theorem test_handler_inside_receive :
    (nextOf (perform (commandOf .irq .seInterrupt .seRxisr) (inside .recv .seForeground .u4 0x10
      { overrun 0 with se := { (overrun 0).se with
        rxq := buffer .explicit 2 0 1 2 [(0, 0x10), (1, 0x11)] } }))).map
      (fun t => (t.se.rxq.count, t.se.rxDrop)) = some (2, 1) := by decide

/-! ### States with the invariant -/

theorem inv_reset : State.reset.Inv := by
  refine ⟨?_, ?_, ?_, ?_, ?_, ?_, ?_, fun f hf => by cases hf⟩ <;> constructor <;> decide

theorem inv_idle (v : RbVariant) : (idle v).Inv := by
  cases v <;> refine ⟨?_, ?_, ?_, ?_, ?_, ?_, ?_, fun f hf => by cases hf⟩ <;> constructor <;> decide

theorem inv_busy (v : RbVariant) (ready : Bool) : (busy v ready).Inv := by
  cases v <;> cases ready <;> refine ⟨?_, ?_, ?_, ?_, ?_, ?_, ?_, fun f hf => by cases hf⟩ <;> constructor <;> decide

theorem inv_held : held.Inv := by
  refine ⟨?_, ?_, ?_, ?_, ?_, ?_, ?_, fun f hf => by cases hf⟩ <;> constructor <;> decide

theorem inv_overrun : (overrun 65535).Inv := by
  refine ⟨?_, ?_, ?_, ?_, ?_, ?_, ?_, fun f hf => by cases hf⟩ <;> constructor <;> decide

/-- A full RB unit: in the DERIVED variant three of four slots. -/
def fullUnit (v : RbVariant) : State :=
  match v with
  | .explicit => { idle v with rb := buffer v 4 0 0 4 [(0, 1), (1, 2), (2, 3), (3, 4)] }
  | .derived => { idle v with rb := buffer v 4 3 0 3 [(0, 1), (1, 2), (2, 3)] }

theorem inv_fullUnit (v : RbVariant) : (fullUnit v).Inv := by
  cases v <;> refine ⟨?_, ?_, ?_, ?_, ?_, ?_, ?_, fun f hf => by cases hf⟩ <;> constructor <;> decide

/-- A bound RB unit without usable capacity: capacity 0, or 1 in the DERIVED variant. -/
def unusable (v : RbVariant) : State :=
  match v with
  | .explicit => { idle v with rb := buffer v 0 0 0 0 [] }
  | .derived => { idle v with rb := buffer v 1 0 0 0 [] }

theorem inv_unusable (v : RbVariant) : (unusable v).Inv := by
  cases v <;> refine ⟨?_, ?_, ?_, ?_, ?_, ?_, ?_, fun f hf => by cases hf⟩ <;> constructor <;> decide

/-- A push between P3 and P4: the byte is written and not yet counted. -/
def pushing : State :=
  inside (.push 0x32) .rbProducer .u4 0
    { busy .explicit false with rb := buffer .explicit 4 2 0 1 [(0, 0x31), (1, 0x32)] }

theorem inv_pushing : pushing.Inv := by
  refine ⟨?_, ?_, ?_, ?_, ?_, ?_, ?_, fun f hf => by cases hf; exact ⟨rfl, rfl, rfl, rfl⟩⟩ <;> constructor <;> decide

/-- A receive between C3 and C4: the byte is read and not yet released. -/
def receiving : State :=
  inside .recv .seForeground .u4 0x10
    { overrun 1 with se := { (overrun 1).se with rxq := buffer .explicit 2 0 1 2 [(0, 0x10), (1, 0x11)] } }

theorem inv_receiving : receiving.Inv := by
  refine ⟨?_, ?_, ?_, ?_, ?_, ?_, ?_, fun f hf => by cases hf; exact ⟨rfl, rfl, rfl, rfl⟩⟩ <;> constructor <;> decide

/-- A state with inputs to come. -/
def given (xs : List Input) (s : State) : State := { s with inputs := xs }

theorem inv_given {s : State} (h : s.Inv) (xs : List Input) : (given xs s).Inv := h.congr rfl rfl rfl rfl

theorem inv_on {s : State} (h : s.Inv) (p : Port) : (on p s).Inv := h.congr rfl rfl rfl rfl

/-! ### Witnesses: concrete states and operands that meet the hypotheses of each statement, clause by clause -/

theorem witness_StepRunsDecodedCommand :
    decode [0x01, 0x86] = .ok (.rbEmpty, [0x86]) ∧ decode [0x86] = .ok (.seStatus, []) ∧
      microOpOf .rbEmpty = some .empty ∧ microOpOf .seStatus = none ∧
      (given [.command .fg .rbProducer [0x01, 0x86], .resume] State.reset).inputs =
        .command .fg .rbProducer [0x01, 0x86] :: [.resume] ∧
      (given [.start .seForeground [0x86]] State.reset).inputs = .start .seForeground [0x86] :: [] ∧
      (given [.resume] pushing).inputs = .resume :: [] ∧ State.reset.inputs = [] := by decide

theorem witness_EncodeInvertsDecode : decode [0x00, 0x02, 0x01, 0x05] = .ok (.rbInit 258, [0x05]) := by decide

theorem witness_ReservedEncodingsAreRefused :
    (decode [0xA2] = .error .illegalOpcode ∧
      (given [.command .fg .seForeground [0xA2]] State.reset).inputs = .command .fg .seForeground [0xA2] :: []) ∧
    ((on .seForeground State.reset).Presented .seForeground ∧ 7 < (8#8).toNat) ∧
    ((on .rbConsumer State.reset).Presented .rbConsumer ∧ (on .rbConsumer State.reset).inProgressOn .rb = false ∧
      State.reset.params.slots.toNat < (9#16).toNat) :=
  ⟨by decide, ⟨presented_on rfl, by decide⟩, presented_on rfl, by decide⟩

theorem witness_StepKeepsTheInvariant :
    (given [.resume] pushing).Inv ∧ (∃ t, step (given [.resume] pushing) = .next t) ∧
      (given [commandOf .irq .seInterrupt .seTxisr] (busy .derived true)).Inv ∧
      ∃ t, step (given [commandOf .irq .seInterrupt .seTxisr] (busy .derived true)) = .next t :=
  ⟨inv_given inv_pushing _, runs (by decide), inv_given (inv_busy _ _) _, runs (by decide)⟩

theorem witness_InvariantStepNeverFaults :
    (given [commandOf .fg .seForeground (.seSend 1)] (idle .explicit)).Inv := inv_given (inv_idle _) _

theorem witness_EngineStateMatchesItsHardware :
    (given [commandOf .line .seLine .lineTxdone] held).Inv ∧
      (∃ t, step (given [commandOf .line .seLine .lineTxdone] held) = .next t ∧ t.se.inited = true ∧
        t.se.transmitting = true ∧ t.se.txReady = true) ∧
      (given [commandOf .fg .seForeground .seStatus] (idle .derived)).Inv ∧
      ∃ t, step (given [commandOf .fg .seForeground .seStatus] (idle .derived)) = .next t ∧ t.se.inited = true ∧
        t.se.transmitting = false ∧ ¬(t.se.txIe = true ∧ t.se.txReady = true) := by
  refine ⟨inv_given inv_held _, ⟨_, rfl, ?_⟩, inv_given (inv_idle _) _, ⟨_, rfl, ?_⟩⟩ <;> decide

theorem witness_FullAndEmptyFollowOccupancy :
    (unusable .explicit).rb.Sound (unusable .explicit).params .rb ∧
      (unusable .derived).rb.Sound (unusable .derived).params .rb ∧
      (fullUnit .explicit).rb.Sound (fullUnit .explicit).params .rb ∧
      (fullUnit .derived).rb.Sound (fullUnit .derived).params .rb ∧
      (fullUnit .derived).params.variant = .derived ∧ 0 < (fullUnit .derived).rb.cap.toNat :=
  ⟨(inv_unusable _).rbSound, (inv_unusable _).rbSound, (inv_fullUnit _).rbSound, (inv_fullUnit _).rbSound,
    by decide, by decide⟩

/-- A push with a pop of the interrupt context between P2 and P3 (P5a), from the empty unit. -/
def rbRun : State :=
  given [commandOf .fg .rbProducer (.rbPush 0x31), .start .rbProducer (encode (.rbPush 0x32)), .resume, .resume,
      commandOf .irq .rbConsumer .rbPop, .resume, .resume]
    { idle .explicit with params := { (idle .explicit).params with consumer := .irq } }

theorem inv_rbRun : rbRun.Inv := by
  refine ⟨?_, ?_, ?_, ?_, ?_, ?_, ?_, fun f hf => by cases hf⟩ <;> constructor <;> decide

theorem witness_ContentsArePushedAndNotPopped :
    rbRun.Inv ∧ rbRun.fg = none ∧ ([] : List Byte) = [] ++ rbRun.rb.contents rbRun.params .rb ∧
      (ledgerRun RbLedger.enter 7 { pushed := [], popped := [] } rbRun).map
        (fun x => (x.1, x.2.rb.bound, x.2.inProgressOn .rb, x.2.rb.contents x.2.params .rb)) =
      some ({ pushed := [0x31, 0x32], popped := [0x31] }, true, false, [0x32]) :=
  ⟨inv_rbRun, rfl, rfl, by decide⟩

theorem witness_CircularAdvance :
    (1 : Nat) ≤ (1#16).toNat ∧ (0#16).toNat < (1#16).toNat ∧ (65534#16).toNat < (65535#16).toNat := by decide

theorem witness_RbInitRule :
    (on .rbProducer (idle .explicit)).Presented .rbProducer ∧
      (on .rbConsumer (idle .derived)).Presented .rbConsumer ∧
      (on .rbProducer (idle .explicit)).inProgressOn .rb = false ∧
      (on .rbConsumer (idle .derived)).inProgressOn .rb = false ∧
      (idle .explicit).params.slots.toNat < (5#16).toNat ∧ (4#16).toNat ≤ (idle .explicit).params.slots.toNat ∧
      (4#16).toNat ≤ (idle .derived).params.slots.toNat :=
  ⟨presented_on rfl, presented_on rfl, by decide⟩

/-- A unit never initialised, on either port. -/
theorem presented_unbound :
    (on .rbProducer State.reset).Presented .rbProducer ∧ (on .rbConsumer State.reset).Presented .rbConsumer ∧
      State.reset.rb.bound = false := ⟨presented_on rfl, presented_on rfl, rfl⟩

theorem witness_RbQueriesRule :
    ((on .rbProducer State.reset).Presented .rbProducer ∧ (on .rbConsumer State.reset).Presented .rbConsumer ∧
      State.reset.rb.bound = false) ∧
    (on .rbProducer (fullUnit .derived)).Presented .rbProducer ∧
      (on .rbConsumer (unusable .explicit)).Presented .rbConsumer ∧
      (fullUnit .derived).rb.bound = true ∧ (unusable .explicit).rb.bound = true ∧
      (fullUnit .derived).rb.Sound (fullUnit .derived).params .rb :=
  ⟨presented_unbound, presented_on rfl, presented_on rfl, by decide, by decide, (inv_fullUnit _).rbSound⟩

theorem witness_RbPeekRule :
    ((on .rbProducer State.reset).Presented .rbProducer ∧ (on .rbConsumer State.reset).Presented .rbConsumer ∧
      State.reset.rb.bound = false) ∧
    (on .rbConsumer (idle .explicit)).Presented .rbConsumer ∧ (idle .explicit).rb.bound = true ∧
      (idle .explicit).rb.isEmpty .explicit = true ∧
      (on .rbConsumer (busy .derived false)).Presented .rbConsumer ∧
      (busy .derived false).rb.isEmpty .derived = false ∧
      (busy .derived false).rb.Sound (busy .derived false).params .rb ∧
      Memory.read? (busy .derived false).rb.slots (busy .derived false).rb.tail.toNat = some 0x31 :=
  ⟨presented_unbound, presented_on rfl, by decide, by decide, presented_on rfl, by decide, (inv_busy _ _).rbSound,
    by decide⟩

theorem witness_RbPushRule :
    ((on .rbProducer State.reset).Presented .rbProducer ∧ (on .rbConsumer State.reset).Presented .rbConsumer ∧
      State.reset.rb.bound = false) ∧
    (on .rbProducer (fullUnit .explicit)).Presented .rbProducer ∧ (fullUnit .explicit).rb.bound = true ∧
      (fullUnit .explicit).rb.isFull .explicit = true ∧
      (on .rbProducer (idle .derived)).Presented .rbProducer ∧ (idle .derived).rb.isFull .derived = false ∧
      (idle .derived).rb.Sound (idle .derived).params .rb :=
  ⟨presented_unbound, presented_on rfl, by decide, by decide, presented_on rfl, by decide, (inv_idle _).rbSound⟩

theorem witness_RbPopRule :
    ((on .rbProducer State.reset).Presented .rbProducer ∧ (on .rbConsumer State.reset).Presented .rbConsumer ∧
      State.reset.rb.bound = false) ∧
    (on .rbConsumer (unusable .explicit)).Presented .rbConsumer ∧ (unusable .explicit).rb.bound = true ∧
      (unusable .explicit).rb.isEmpty .explicit = true ∧
      (on .rbConsumer (fullUnit .explicit)).Presented .rbConsumer ∧
      (fullUnit .explicit).rb.isEmpty .explicit = false ∧
      (fullUnit .explicit).rb.Sound (fullUnit .explicit).params .rb ∧
      Memory.read? (fullUnit .explicit).rb.slots (fullUnit .explicit).rb.tail.toNat = some 1 :=
  ⟨presented_unbound, presented_on rfl, by decide, by decide, presented_on rfl, by decide, (inv_fullUnit _).rbSound,
    by decide⟩

theorem witness_FifoOrder :
    ((on .rbProducer (idle .explicit)).Inv ∧ (on .rbProducer (idle .explicit)).inProgressOn .rb = false ∧
      (nextOf (exec (.rbPush 7) (on .rbProducer (idle .explicit)))).map State.lastResult = some 0x01) ∧
    ((on .rbConsumer (busy .explicit false)).Inv ∧ (on .rbConsumer (busy .explicit false)).inProgressOn .rb = false ∧
      (busy .explicit false).rb.contents (busy .explicit false).params .rb = [0x31] ∧
      ∃ t, exec .rbPop (on .rbConsumer (busy .explicit false)) = .next t) ∧
    ((idle .derived).Inv ∧ (idle .derived).fg = none ∧ (idle .derived).rb.bound = true ∧
      (idle .derived).rb.contents (idle .derived).params .rb = [] ∧
      [1#8, 2, 3].length ≤ (idle .derived).rb.usable (idle .derived).params.variant) :=
  ⟨⟨inv_on (inv_idle _) _, by decide, by decide⟩, ⟨inv_on (inv_busy _ _) _, by decide, by decide, runs (by decide)⟩,
    inv_idle _, by decide⟩

theorem witness_UnusableBufferStaysEmptyAndFull :
    (given [.resume] (inside (.push 7) .rbProducer .u1 0 (unusable .explicit))).rb.bound = true ∧
      (unusable .explicit).Inv ∧ (unusable .explicit).rb.usable .explicit = 0 ∧
      (unusable .derived).Inv ∧ (unusable .derived).rb.usable .derived = 0 ∧
      (∃ t, step (given [commandOf .fg .rbProducer (.rbPush 7)] (unusable .derived)) = .next t) ∧
      (given [commandOf .fg .rbProducer (.rbPush 7)] (unusable .derived)).initsBuffer = false ∧
      (on .rbProducer (unusable .derived)).Presented .rbProducer ∧
      (on .rbConsumer (unusable .derived)).Presented .rbConsumer :=
  ⟨by decide, inv_unusable _, by decide, inv_unusable _, by decide, runs (by decide), by decide, presented_on rfl,
    presented_on rfl⟩

theorem witness_PushMicroSteps :
    (inside (.push 7) .rbProducer .u1 0 (fullUnit .explicit)).rb.isFull .explicit = true ∧
      (inside (.push 7) .rbProducer .u1 0 (idle .derived)).rb.isFull .derived = false ∧
      (idle .derived).rb.head.toNat < (idle .derived).rb.cap.toNat ∧
      (idle .derived).rb.cap.toNat ≤ (idle .derived).params.slots.toNat ∧
      pushing.fg = some { op := .push 0x32, port := .rbProducer, upc := .u4, flag := false, val := 0 } ∧
      pushing.params.variant = .explicit := by decide

theorem witness_PopMicroSteps :
    (inside .pop .rbConsumer .u1 0 (idle .explicit)).rb.isEmpty .explicit = true ∧
      (inside .pop .rbConsumer .u1 0 (fullUnit .derived)).rb.isEmpty .derived = false ∧
      (fullUnit .derived).rb.tail.toNat < (fullUnit .derived).rb.cap.toNat ∧
      (fullUnit .derived).rb.cap.toNat ≤ (fullUnit .derived).params.slots.toNat ∧
      Memory.read? (fullUnit .derived).rb.slots (fullUnit .derived).rb.tail.toNat = some 1 ∧
      (inside .pop .rbConsumer .u4 1 (fullUnit .explicit)).fg =
        some { op := .pop, port := .rbConsumer, upc := .u4, flag := false, val := 1 } ∧
      (inside .pop .rbConsumer .u3 1 (fullUnit .derived)).fg =
        some { op := .pop, port := .rbConsumer, upc := .u3, flag := false, val := 1 } := by decide

theorem witness_ReceiveMicroSteps :
    (inside .recv .seForeground .u1 0 (idle .explicit)).se.rxq.isEmpty .explicit = true ∧
      (inside .recv .seForeground .u1 0 (busy .derived true)).se.rxq.isEmpty .derived = false ∧
      (overrun 0).se.rxq.tail.toNat < (overrun 0).se.rxq.cap.toNat ∧
      (overrun 0).se.rxq.cap.toNat ≤ (overrun 0).params.rxCap.toNat ∧
      Memory.read? (overrun 0).se.rxq.slots (overrun 0).se.rxq.tail.toNat = some 0x10 ∧
      receiving.fg = some { op := .recv, port := .seForeground, upc := .u4, flag := false, val := 0x10 } ∧
      receiving.params.variant = .explicit := by decide

theorem witness_QueryMicroSteps :
    (inside .occ .rbProducer .u1 0 (fullUnit .derived)).rb.Sound (fullUnit .derived).params .rb ∧
      (inside .peek .rbConsumer .u1 0 (idle .explicit)).rb.isEmpty .explicit = true ∧
      (inside .peek .rbConsumer .u1 0 (fullUnit .explicit)).rb.isEmpty .explicit = false ∧
      (inside .peek .rbConsumer .u2 0 (fullUnit .explicit)).rb.tail.toNat < (fullUnit .explicit).rb.cap.toNat ∧
      (fullUnit .explicit).rb.cap.toNat ≤ (fullUnit .explicit).params.slots.toNat ∧
      Memory.read? (fullUnit .explicit).rb.slots (fullUnit .explicit).rb.tail.toNat = some 1 :=
  ⟨(inv_fullUnit _).rbSound, by decide⟩

theorem witness_StartHoldsTheOperation :
    microOpOf (.rbPush 7) = some (.push 7) ∧ .rbProducer ∈ portsOf (.rbPush 7) ∧
      portOwner State.reset.params .rbProducer = .fg ∧ State.reset.fg = none ∧ State.reset.rb.bound = false ∧
      microOpOf .seRecv = some .recv ∧ .seForeground ∈ portsOf .seRecv ∧ State.reset.se.inited = false ∧
      (idle .explicit).rb.bound = true ∧ (idle .explicit).se.inited = true ∧ (idle .explicit).se.rxq.bound = true := by
  decide

theorem witness_UndisturbedMicroStepsAreAtomic : microOpOf .rbPop = some .pop ∧ (fullUnit .explicit).fg = none := by
  decide

/-- FG produces, IRQ consumes; one byte is in the unit. -/
def shared (producer consumer : Holder) : State :=
  { busy .explicit false with params := { (busy .explicit false).params with producer := producer, consumer := consumer } }

theorem inv_shared : (shared .fg .irq).Inv ∧ (shared .irq .fg).Inv := by
  constructor <;> refine ⟨?_, ?_, ?_, ?_, ?_, ?_, ?_, fun f hf => by cases hf⟩ <;> constructor <;> decide

theorem witness_PreemptedOperationIsAtomicAtItsPoint :
    (shared .fg .irq).Inv ∧ (shared .fg .irq).fg = none ∧ microOpOf (.rbPush 0x32) = some (.push 0x32) ∧
      ((nextOf (performAll (.start .rbProducer (encode (.rbPush 0x32)) ::
        preempted [[], [], [(true, .rbConsumer, .rbPop)], [(false, .seLine, .lineTxdone)]]) (shared .fg .irq))).map
          State.fg) = some none ∧
      (shared .irq .fg).Inv ∧ (shared .irq .fg).fg = none ∧
      ∃ t, performAll (.start .rbConsumer (encode .rbPeek) ::
        preempted [[(true, .rbProducer, .rbPush 7)], [(true, .seInterrupt, .seRxisr)]]) (shared .irq .fg) = .next t :=
  ⟨inv_shared.1, rfl, by decide, by decide, inv_shared.2, rfl, runs (by decide)⟩

theorem witness_StaleAnswersAreSafeInOneDirection :
    (given [commandOf .fg .rbConsumer .rbPop] (busy .explicit false)).Inv ∧
      (∃ t, step (given [commandOf .fg .rbConsumer .rbPop] (busy .explicit false)) = .next t) ∧
      (given [commandOf .fg .rbConsumer .rbPop] (busy .explicit false)).initsBuffer = false ∧
      (given [commandOf .fg .rbConsumer .rbPop] (busy .explicit false)).pushes = false ∧
      (busy .explicit false).rb.isFull .explicit = false ∧
      (given [.resume] pushing).Inv ∧ (∃ t, step (given [.resume] pushing) = .next t) ∧
      (given [.resume] pushing).initsBuffer = false ∧ (given [.resume] pushing).pops = false ∧
      pushing.rb.isEmpty .explicit = false ∧ (given [.resume] pushing).initsEngine = false ∧
      (∀ b, (given [.resume] pushing).performs ≠ some (.seSend b)) ∧
      (given [.resume] pushing).performs ≠ some .seTxisr ∧ (given [.resume] pushing).performs ≠ some .seRxisr ∧
      pushing.se.txq.isEmpty .explicit = false ∧ pushing.se.rxq.isFull .explicit = false ∧ pushing.se.txq.isFull .explicit = false ∧
      (given [.resume] pushing).receives = false ∧ pushing.se.rxq.isEmpty .explicit = false :=
  ⟨inv_given (inv_busy _ _) _, runs (by decide), by decide, by decide, by decide, inv_given inv_pushing _,
    runs (by decide), by decide, by decide, by decide, by decide, by decide, by decide, by decide, by decide, by decide,
    by decide, by decide, by decide⟩

theorem witness_SeInitRule :
    held.fg = none ∧ (on .seForeground held).Presented .seForeground ∧ held.params.variant = .explicit ∧
      1 ≤ held.params.txCap.toNat ∧ 1 ≤ held.params.rxCap.toNat ∧ baudOk held.params 1 2 3 4 5 8 = true ∧
      (on .seForeground (idle .derived)).Presented .seForeground ∧ 2 ≤ (idle .derived).params.txCap.toNat ∧
      2 ≤ (idle .derived).params.rxCap.toNat ∧ ¬ 2 ≤ (1#16).toNat ∧ ¬ 1 ≤ (0#16).toNat :=
  ⟨rfl, presented_on rfl, by decide, by decide, by decide, by decide, presented_on rfl, by decide⟩

/-- S3: a `BAUD_OK` that is false where both parts of the divisor are 0. -/
theorem test_baudOk :
    let p : Params := { resetParams with baudRejects :=
      [{ clockSource := none, baudDivisorLow := some 0, baudDivisorHigh := some 0, modulationA := none
         modulationB := none, oversamplingMode := none }] }
    baudOk p 1 0 0 4 5 8 = false ∧ baudOk p 1 2 3 4 5 8 = true := by decide

theorem witness_SeSendRule :
    (on .seForeground State.reset).Presented .seForeground ∧ State.reset.se.inited = false ∧
      (on .seForeground (idle .explicit)).Presented .seForeground ∧ (idle .explicit).se.inited = true ∧
      (idle .explicit).se.transmitting = false ∧ (idle .explicit).se.txReady = true ∧
      (on .seForeground (busy .explicit false)).Presented .seForeground ∧
      (busy .explicit false).se.transmitting = true ∧ (busy .explicit false).se.txq.isFull .explicit = false ∧
      (busy .explicit false).se.txq.bound = true ∧
      (busy .explicit false).se.txq.Sound (busy .explicit false).params .txq ∧
      (on .seForeground (busy .derived false)).Presented .seForeground ∧
      (busy .derived false).se.txq.isFull .derived = true :=
  ⟨presented_on rfl, rfl, presented_on rfl, by decide, by decide, by decide, presented_on rfl, by decide, by decide,
    by decide, (inv_busy _ _).txSound, presented_on rfl, by decide⟩

theorem witness_SeRecvRule :
    (on .seForeground State.reset).Presented .seForeground ∧ State.reset.se.inited = false ∧
      (on .seForeground (idle .derived)).Presented .seForeground ∧ (idle .derived).se.inited = true ∧
      (idle .derived).se.rxq.bound = true ∧ (idle .derived).se.rxq.isEmpty .derived = true ∧
      (on .seForeground (overrun 65535)).Presented .seForeground ∧
      (overrun 65535).se.rxq.isEmpty .explicit = false ∧
      (overrun 65535).se.rxq.Sound (overrun 65535).params .rxq ∧
      Memory.read? (overrun 65535).se.rxq.slots (overrun 65535).se.rxq.tail.toNat = some 0x10 :=
  ⟨presented_on rfl, rfl, presented_on rfl, by decide, by decide, by decide, presented_on rfl, by decide,
    inv_overrun.rxSound, by decide⟩

theorem witness_ReceiveInterruptGate :
    (on .seForeground held).Presented .seForeground ∧ held.se.inited = true ∧
      (on .seForeground State.reset).Presented .seForeground ∧ State.reset.se.inited = false :=
  ⟨presented_on rfl, by decide, presented_on rfl, by decide⟩

theorem witness_EngineViewsRule :
    (on .seForeground State.reset).Presented .seForeground ∧ State.reset.se.inited = false ∧ 7 < (8#8).toNat ∧
      (7#8).toNat ≤ 7 ∧ (on .seForeground (idle .explicit)).Presented .seForeground ∧ (idle .explicit).se.inited = true ∧
      [1#8, 2, 3, 4, 5, 6, 7, 8][(0#8).toNat]? = some 1 ∧ [1#8, 2, 3, 4, 5, 6, 7, 8][(7#8).toNat]? = some 8 ∧
      (idle .explicit).se.cfg.clockSource = 1 ∧ (idle .explicit).se.cfg.oversamplingMode = 8 :=
  ⟨presented_on rfl, rfl, by decide, by decide, presented_on rfl, by decide⟩

theorem witness_StatusBits : (on .seForeground held).Presented .seForeground := presented_on rfl

theorem witness_UninitedEngineRefuses :
    State.reset.se.inited = false ∧ (on .seForeground State.reset).Presented .seForeground ∧
      (on .seInterrupt State.reset).Presented .seInterrupt ∧ (on .seLine State.reset).Presented .seLine ∧
      (7#8).toNat ≤ 7 ∧ State.reset.Inv :=
  ⟨rfl, presented_on rfl, presented_on rfl, presented_on rfl, by decide, inv_reset⟩

theorem witness_UnboundBufferRefuses :
    State.reset.rb.bound = false ∧ (on .rbProducer State.reset).Presented .rbProducer ∧
      (on .rbConsumer State.reset).Presented .rbConsumer := ⟨rfl, presented_on rfl, presented_on rfl⟩

theorem witness_TransmitHandlerRule :
    (on .seInterrupt (idle .explicit)).Presented .seInterrupt ∧
      ¬((idle .explicit).se.inited = true ∧ (idle .explicit).se.txIe = true ∧ (idle .explicit).se.txReady = true) ∧
      (on .seInterrupt (busy .derived true)).Presented .seInterrupt ∧ (busy .derived true).se.inited = true ∧
      (busy .derived true).se.txIe = true ∧ (busy .derived true).se.txReady = true ∧
      (busy .derived true).se.txq.isEmpty .derived = false ∧ (busy .derived true).se.txq.bound = true ∧
      (busy .derived true).se.txq.Sound (busy .derived true).params .txq ∧
      Memory.read? (busy .derived true).se.txq.slots (busy .derived true).se.txq.tail.toNat = some 0x42 ∧
      ((engineIdle .explicit).inited = true ∧ (engineIdle .explicit).txReady = true ∧
        (engineIdle .explicit).txq.isEmpty .explicit = true) :=
  ⟨presented_on rfl, by decide, presented_on rfl, by decide, by decide, by decide, by decide, by decide,
    (inv_busy _ _).txSound, by decide, by decide⟩

theorem witness_ReceiveHandlerRule :
    (on .seInterrupt (idle .explicit)).Presented .seInterrupt ∧
      ¬((idle .explicit).se.inited = true ∧ (idle .explicit).se.rxIe = true ∧ (idle .explicit).se.rxFull = true) ∧
      (on .seInterrupt (overrun 65535)).Presented .seInterrupt ∧ (overrun 65535).se.rxIe = true ∧
      (overrun 65535).se.rxFull = true ∧ (overrun 65535).se.rxq.bound = true ∧
      (overrun 65535).se.rxq.isFull .explicit = true ∧
      (on .seInterrupt (busy .explicit false)).Presented .seInterrupt ∧
      (busy .explicit false).se.rxq.isFull .explicit = false ∧
      (busy .explicit false).se.rxq.Sound (busy .explicit false).params .rxq :=
  ⟨presented_on rfl, by decide, presented_on rfl, by decide, by decide, by decide, by decide, presented_on rfl,
    by decide, (inv_busy _ _).rxSound⟩

theorem witness_LineTxdoneRule :
    (on .seLine held).Presented .seLine ∧ held.se.txReady = false ∧
      (on .seLine (busy .explicit true)).Presented .seLine ∧ (busy .explicit true).se.txReady = true :=
  ⟨presented_on rfl, by decide, presented_on rfl, by decide⟩

theorem witness_LineRxbyteRule :
    (on .seLine State.reset).Presented .seLine ∧ State.reset.se.inited = false ∧
      (on .seLine held).Presented .seLine ∧ held.se.inited = true ∧ held.se.rxFull = false ∧
      (on .seLine (busy .explicit true)).Presented .seLine ∧ (busy .explicit true).se.inited = true ∧
      (busy .explicit true).se.rxFull = true :=
  ⟨presented_on rfl, rfl, presented_on rfl, by decide, by decide, presented_on rfl, by decide⟩

theorem witness_HandlersCommute :
    (busy .explicit true).Inv ∧ (busy .explicit true).se.txisrEnabled = true ∧
      (busy .explicit true).se.rxisrEnabled = true := ⟨inv_busy _ _, by decide⟩

theorem witness_DisabledReceiveInterruptPushesNothing :
    (given [commandOf .line .seLine (.lineRxbyte 1)] held).Inv ∧ held.se.rxIe = false ∧
      (∃ t, step (given [commandOf .line .seLine (.lineRxbyte 1)] held) = .next t) ∧
      (given [commandOf .line .seLine (.lineRxbyte 1)] held).initsEngine = false ∧
      (on .seForeground (busy .explicit false)).Inv ∧
      (∃ t, exec .seEi (on .seForeground (busy .explicit false)) = .next t) ∧
      (busy .explicit false).se.rxFull = true ∧ (busy .explicit false).fg = none ∧
      (busy .explicit false).se.rxq.isFull .explicit = false ∧
      (on .seInterrupt (idle .explicit)).Presented .seInterrupt ∧ (idle .explicit).se.txReady = true ∧
      (idle .explicit).se.txIe = false :=
  ⟨inv_given inv_held _, by decide, runs (by decide), by decide, inv_on (inv_busy _ _) _, runs (by decide), by decide,
    by decide, by decide, presented_on rfl, by decide⟩

theorem witness_TransmitStateTransitions :
    (given [commandOf .fg .seForeground (.seSend 9)] (idle .explicit)).Inv ∧
      (∃ t, step (given [commandOf .fg .seForeground (.seSend 9)] (idle .explicit)) = .next t ∧
        (idle .explicit).se.transmitting = false ∧ t.se.transmitting = true) ∧
      (given [commandOf .fg .seForeground (.seInit 1 2 3 4 5 6 7 8)] held).Inv ∧
      (∃ t, step (given [commandOf .fg .seForeground (.seInit 1 2 3 4 5 6 7 8)] held) = .next t ∧
        held.se.transmitting = true ∧ t.se.transmitting = false) ∧
      (given [commandOf .irq .seInterrupt .seTxisr] (busy .explicit true)).performs = some .seTxisr ∧
      (busy .explicit true).se.txq.isEmpty .explicit = false := by
  refine ⟨inv_given (inv_idle _) _, ⟨_, rfl, ?_⟩, inv_given inv_held _, ⟨_, rfl, ?_⟩, ?_⟩ <;> decide

theorem witness_OperationsStayInTheirUnit :
    (∃ t, exec .rbPop (on .rbConsumer (fullUnit .explicit)) = .next t) ∧ opClass Instr.rbPop.opcode = 0x0 ∧
      (∃ t, exec .seRecv (on .seForeground (overrun 0)) = .next t) ∧ opClass Instr.seRecv.opcode = 0x8 ∧
      (∃ t, exec .seRxisr (on .seInterrupt (overrun 0)) = .next t) ∧ opClass Instr.seRxisr.opcode = 0x9 ∧
      (∃ t, exec .lineTxdone (on .seLine held) = .next t) ∧ opClass Instr.lineTxdone.opcode = 0xA :=
  ⟨runs (by decide), by decide, runs (by decide), by decide, runs (by decide), by decide, runs (by decide), by decide⟩

theorem witness_OnlyThePushedSlotIsWritten :
    (∃ t, exec (.rbPush 7) (on .rbProducer (idle .explicit)) = .next t) ∧
      storedSlot (.rbPush 7) (on .rbProducer (idle .explicit)) = some (.rb, 0) ∧
      (∃ t, exec .rbPop (on .rbConsumer (fullUnit .explicit)) = .next t) ∧
      storedSlot .rbPop (on .rbConsumer (fullUnit .explicit)) = none :=
  ⟨runs (by decide), by decide, runs (by decide), by decide⟩

theorem witness_RbOperationsFrame :
    (∃ t, exec .rbPeek (on .rbConsumer (fullUnit .explicit)) = .next t) ∧
      (∃ t, exec (.rbPush 7) (on .rbProducer (idle .derived)) = .next t) ∧
      (∃ t, exec .rbPop (on .rbConsumer (fullUnit .derived)) = .next t) ∧
      (∃ t, exec (.rbInit 4) (on .rbConsumer (fullUnit .derived)) = .next t) :=
  ⟨runs (by decide), runs (by decide), runs (by decide), runs (by decide)⟩

theorem witness_EngineForegroundFrame :
    (∃ t, exec (.seCfgrd 7) (on .seForeground held) = .next t) ∧ (∃ t, exec .seDi (on .seForeground held) = .next t) ∧
      (∃ t, exec .seRecv (on .seForeground (overrun 0)) = .next t) ∧
      (∃ t, exec (.seSend 1) (on .seForeground (busy .explicit false)) = .next t) ∧
      (∃ t, exec (.seSend 1) (on .seForeground (idle .explicit)) = .next t) ∧
      (∃ t, exec (.seInit 1 2 3 4 5 6 7 8) (on .seForeground held) = .next t) :=
  ⟨runs (by decide), runs (by decide), runs (by decide), runs (by decide), runs (by decide), runs (by decide)⟩

theorem witness_SignalsFrame :
    (∃ t, exec .seTxisr (on .seInterrupt (busy .explicit true)) = .next t) ∧
      (∃ t, exec .seRxisr (on .seInterrupt (busy .explicit true)) = .next t) ∧
      (∃ t, exec .lineTxdone (on .seLine held) = .next t) ∧
      (∃ t, exec (.lineRxbyte 1) (on .seLine held) = .next t) :=
  ⟨runs (by decide), runs (by decide), runs (by decide), runs (by decide)⟩

theorem witness_IndicesBelongToTheirRoles :
    (given [.resume] pushing).Inv ∧ (∃ t, step (given [.resume] pushing) = .next t) ∧
      (given [.resume] pushing).initsBuffer = false ∧ (given [.resume] pushing).pushes = true ∧
      (given [commandOf .irq .rbConsumer .rbPop] (shared .fg .irq)).Inv ∧
      (∃ t, step (given [commandOf .irq .rbConsumer .rbPop] (shared .fg .irq)) = .next t) ∧
      (given [commandOf .irq .rbConsumer .rbPop] (shared .fg .irq)).pops = true ∧
      (given [commandOf .irq .rbConsumer .rbPop] (shared .fg .irq)).pushes = false :=
  ⟨inv_given inv_pushing _, runs (by decide), by decide, by decide, inv_given inv_shared.1 _, runs (by decide),
    by decide, by decide⟩

theorem witness_EngineQueuesAreReachedByTheirOperationsOnly :
    (given [commandOf .fg .seForeground (.seSend 9)] (busy .explicit false)).Inv ∧
      (∃ t, step (given [commandOf .fg .seForeground (.seSend 9)] (busy .explicit false)) = .next t ∧
        t.se.txq ≠ (busy .explicit false).se.txq) ∧
      (given [commandOf .fg .seForeground (.seSend 9)] (busy .explicit false)).performs = some (.seSend 9) ∧
    (given [.resume] receiving).Inv ∧
      (∃ t, step (given [.resume] receiving) = .next t ∧ t.se.rxq ≠ receiving.se.rxq) ∧
      (given [.resume] receiving).initsEngine = false ∧ (given [.resume] receiving).receives = true ∧
    (given [commandOf .irq .seInterrupt .seTxisr] (busy .explicit true)).Inv ∧
      (∃ t, step (given [commandOf .irq .seInterrupt .seTxisr] (busy .explicit true)) = .next t ∧
        t.se.txq ≠ (busy .explicit true).se.txq) ∧
      (given [commandOf .irq .seInterrupt .seTxisr] (busy .explicit true)).performs = some .seTxisr ∧
      (given [commandOf .irq .seInterrupt .seTxisr] (busy .explicit true)).initsEngine = false ∧
      (given [commandOf .irq .seInterrupt .seTxisr] (busy .explicit true)).receives = false ∧
    (given [commandOf .irq .seInterrupt .seRxisr] (busy .explicit true)).Inv ∧
      (∃ t, step (given [commandOf .irq .seInterrupt .seRxisr] (busy .explicit true)) = .next t ∧
        t.se.rxq ≠ (busy .explicit true).se.rxq) ∧
      (given [commandOf .irq .seInterrupt .seRxisr] (busy .explicit true)).performs = some .seRxisr ∧
    (given [.start .seForeground (encode (.seSend 9))] (busy .explicit false)).Inv ∧
      ∃ t, step (given [.start .seForeground (encode (.seSend 9))] (busy .explicit false)) = .next t := by
  refine ⟨inv_given (inv_busy _ _) _, ⟨_, rfl, ?_⟩, ?_, inv_given inv_receiving _, ⟨_, rfl, ?_⟩, ?_, ?_,
    inv_given (inv_busy _ _) _, ⟨_, rfl, ?_⟩, ?_, ?_, ?_, inv_given (inv_busy _ _) _, ⟨_, rfl, ?_⟩, ?_,
    inv_given (inv_busy _ _) _, runs ?_⟩ <;> decide

theorem witness_PortsAndRolesAreChecked :
    (on .seLine held).issue.port ∉ portsOf (.seSend 1) ∧
      ((on .seForeground held).issue.port ∈ portsOf (.seSend 1) ∧ opClass (Instr.seSend 1).opcode ≠ 0x0 ∧
        Agent.irq ≠ portOwner held.params .seForeground) ∧
      (.rbProducer ∈ portsOf (.rbPush 1) ∧ opClass (Instr.rbPush 1).opcode = 0x0 ∧
        Agent.irq ≠ portOwner held.params .rbProducer) ∧
      ((on .seForeground pushing).issue.port ∈ portsOf .seStatus ∧
        (on .seForeground pushing).issue.agent = portOwner pushing.params .seForeground ∧
        (on .seForeground pushing).issue.agent = .fg ∧ (on .seForeground pushing).fg ≠ none) ∧
      (.rbConsumer ∈ portsOf (.rbInit 4) ∧ (inside (.push 7) .rbProducer .u2 0 (shared .fg .irq)).inProgressOn .rb = true ∧
        portOwner (shared .fg .irq).params .rbConsumer = .irq) := by decide

/-- FG inside an RB.PUSH on its producer port; IRQ holds the consumer port. -/
def pushingShared : State := inside (.push 7) .rbProducer .u1 0 (shared .fg .irq)

theorem inv_pushingShared : pushingShared.Inv := by
  refine ⟨?_, ?_, ?_, ?_, ?_, ?_, ?_, fun f hf => by cases hf; exact ⟨rfl, rfl, rfl, trivial⟩⟩ <;> constructor <;> decide

/-- The hypotheses of `RefusalsAreTheTables` at one operation on one port, with the reason that answers. -/
def Refuses (p : Port) (i : Instr) (s : State) (r : Refusal) : Prop :=
  s.Inv ∧ s.issue.port ∈ portsOf i ∧ s.issue.agent = portOwner s.params s.issue.port ∧
    s.issue.port = p ∧ refusalOf (exec i s) = some r

theorem witness_RefusalsAreTheTables :
    Refuses .seForeground .seStatus (on .seForeground pushingShared) .role ∧
      Refuses .rbConsumer (.rbInit 4) (on .rbConsumer pushingShared) .role ∧
      Refuses .rbConsumer .rbPop (on .rbConsumer State.reset) .unbound ∧
      Refuses .rbProducer (.rbInit 9) (on .rbProducer State.reset) .capExceedsSlots ∧
      Refuses .seForeground .seEi (on .seForeground State.reset) .notInited ∧
      Refuses .seForeground (.seCfgrd 8) (on .seForeground (idle .derived)) .cfgIndex ∧
      Refuses .seInterrupt .seTxisr (on .seInterrupt held) .notEnabled ∧
      Refuses .seInterrupt .seRxisr (on .seInterrupt held) .notEnabled ∧
      Refuses .seLine .lineTxdone (on .seLine (idle .explicit)) .notEnabled ∧
      (on .rbConsumer pushingShared).issue.agent = .irq ∧
      (on .rbConsumer pushingShared).inProgressOn .rb = true := by
  refine ⟨⟨inv_on inv_pushingShared _, ?_⟩, ⟨inv_on inv_pushingShared _, ?_⟩, ⟨inv_on inv_reset _, ?_⟩,
    ⟨inv_on inv_reset _, ?_⟩, ⟨inv_on inv_reset _, ?_⟩, ⟨inv_on (inv_idle _) _, ?_⟩, ⟨inv_on inv_held _, ?_⟩,
    ⟨inv_on inv_held _, ?_⟩, ⟨inv_on (inv_idle _) _, ?_⟩, ?_, ?_⟩ <;> decide

/-- V2 with a second byte queued: SE.INIT, two SE.SEND, LINE.TXDONE, SE.TXISR. -/
def txRun : State :=
  given [commandOf .fg .seForeground (.seInit 1 2 3 4 5 6 7 8), commandOf .fg .seForeground (.seSend 0x41),
    commandOf .fg .seForeground (.seSend 0x42), commandOf .line .seLine .lineTxdone,
    commandOf .irq .seInterrupt .seTxisr] State.reset

theorem witness_TransmitOrder :
    txRun.Inv ∧ txRun.se.inited = false ∧
      (ledgerRun TxLedger.enter 5 { sent := [], start := 0 } txRun).map
        (fun x => (x.1.sent, x.2.se.inited, x.2.se.txLine, x.2.inFlight)) =
      some ([0x41, 0x42], true, [0x41], [0x42]) := ⟨inv_given inv_reset _, by decide, by decide⟩

/-- P3, lines 1 and 18 to 22: one byte overwritten in the register, the next one received. -/
def rxRun : State :=
  given [commandOf .fg .seForeground (.seInit 1 2 3 4 5 6 7 8), commandOf .line .seLine (.lineRxbyte 0x20),
    commandOf .line .seLine (.lineRxbyte 0x21), commandOf .fg .seForeground .seEi,
    commandOf .irq .seInterrupt .seRxisr, commandOf .fg .seForeground .seRecv] State.reset

theorem witness_ReceiveOrder :
    rxRun.Inv ∧ rxRun.se.inited = false ∧ rxRun.fg = none ∧
      (ledgerRun RxLedger.enter 6 { got := [], overwritten := 0, dropped := 0, start := 0 } rxRun).map
        (fun x => (x.1, x.2.se.inited, x.2.inProgressOn .rxq, x.2.se.rxOvr)) =
      some ({ got := [0x21], overwritten := 1, dropped := 0, start := 0 }, true, false, true) :=
  ⟨inv_given inv_reset _, by decide, by decide, by decide⟩

theorem witness_SendQueuesOneMoreThanCapacity :
    (idle .explicit).Inv ∧ (idle .explicit).se.inited = true ∧ (idle .explicit).se.transmitting = false ∧
      (idle .explicit).fg = none ∧ [1#8, 2, 3].length = 1 + (idle .explicit).se.txq.usable .explicit ∧
      (idle .derived).Inv ∧ [1#8, 2].length = 1 + (idle .derived).se.txq.usable .derived :=
  ⟨inv_idle _, by decide, by decide, by decide, by decide, inv_idle _, by decide⟩

theorem witness_HeldSenderWaitsForTheHandler :
    held.Inv ∧ held.se.inited = true ∧ held.se.transmitting = true ∧ held.se.txq.isFull .explicit = true ∧
      (∀ x ∈ [commandOf .line .seLine .lineTxdone, commandOf .fg .seForeground (.seSend 0x44)],
        (∃ b, x = commandOf .fg .seForeground (.seSend b)) ∨ ∃ i, x = commandOf .line .seLine i) ∧
      ∃ t, performAll [commandOf .line .seLine .lineTxdone, commandOf .fg .seForeground (.seSend 0x44)] held = .next t :=
  ⟨inv_held, by decide, by decide, by decide, by
    intro x hx
    rcases List.mem_cons.mp hx with rfl | hx
    · exact .inr ⟨_, rfl⟩
    · exact .inl ⟨_, List.mem_singleton.mp hx⟩, runs (by decide)⟩

theorem witness_EngineDrains :
    held.Inv ∧ held.se.inited = true ∧ held.fg = none ∧ held.se.rxFull = false := ⟨inv_held, by decide⟩

end Sys2Proof.Tests
end

section
/-! SUPPORT. Proofs about the state registers: the layout of STATUS (rule R40) and the refusals of an unbound buffer
(rule R26). -/

namespace Sys2Proof.Machine

open Sys2Proof.Config

/-! ### Commands on a port that admits them -/

/-- A presented command of an operation that its port accepts runs its own rule. -/
theorem State.Presented.whenAdmitted_eq {s : State} {p : Port} {i : Instr} (h : s.Presented p) (hp : p ∈ portsOf i)
    (hi : initDuringOperation i s = false) (k : Result State) : whenAdmitted i s k = k :=
  admit_of_admitted (h.admitted hp hi) k

/-- The response to a presented command goes out on the port it arrived on (rule R108). -/
theorem State.Presented.respond_eq {s : State} {p : Port} (h : s.Presented p) (bytes : List Byte) :
    s.respond bytes = { s with responses := s.responses ++ [{ port := p, bytes := bytes }] } := by
  rw [State.respond, h.port]

theorem exec_seStatus_of_presented {s : State} (h : s.Presented .seForeground) :
    exec .seStatus s = .next (s.respond [ccDone, s.se.status]) :=
  h.whenAdmitted_eq (List.mem_singleton_self _) rfl _

/-! ### The STATUS byte -/

/-- STATUS at the width its eight flags add up to, the form in which the library's lemma on `++` applies. -/
theorem SerialEngine.status_getLsbD (e : SerialEngine) (k : Nat) :
    e.status.getLsbD k =
      (BitVec.ofBool e.inited ++ BitVec.ofBool e.cfgErr ++ BitVec.ofBool e.rxOvr ++ BitVec.ofBool e.rxFull ++
        BitVec.ofBool e.txReady ++ BitVec.ofBool e.rxIe ++ BitVec.ofBool e.txIe ++
        BitVec.ofBool e.transmitting).getLsbD k := rfl

/-- The layout of rule R40: each bit is found by walking the concatenation from its last flag, TRANSMITTING. -/
theorem SerialEngine.status_layout (e : SerialEngine) :
    e.status.getLsbD 0 = e.transmitting ∧ e.status.getLsbD 1 = e.txIe ∧ e.status.getLsbD 2 = e.rxIe ∧
      e.status.getLsbD 3 = e.txReady ∧ e.status.getLsbD 4 = e.rxFull ∧ e.status.getLsbD 5 = e.rxOvr ∧
      e.status.getLsbD 6 = e.cfgErr ∧ e.status.getLsbD 7 = e.inited := by
  simp only [SerialEngine.status_getLsbD, BitVec.getLsbD_append]
  simp

theorem reset_status : State.reset.se.status = 0x08 := by decide

/-! ### Unbound buffers -/

theorem RingBuf.push_of_unbound {q : RingBuf} (h : q.bound = false) (P : Params) (id : BufId) (b : Byte) :
    q.push P id b = .refused .unbound :=
  requireBound_of_unbound h _

theorem RingBuf.pop_of_unbound {q : RingBuf} (h : q.bound = false) (P : Params) (id : BufId) :
    q.pop P id = .refused .unbound :=
  requireBound_of_unbound h _

theorem RingBuf.peek_of_unbound {q : RingBuf} (h : q.bound = false) (P : Params) (id : BufId) :
    q.peek P id = .refused .unbound :=
  requireBound_of_unbound h _

/-- Rule R131 for all six operations at once: those with micro-steps on the RB unit's buffer are the ring-buffer
operations other than RB.INIT. -/
theorem exec_of_unbound {s : State} {p : Port} {i : Instr} {op : MicroOp} (hb : s.rb.bound = false)
    (hs : s.Presented p) (hp : p ∈ portsOf i) (hi : microOpOf i = some op) (hop : microBuf op = .rb) :
    exec i s = .refused .unbound := by
  cases i <;> cases hi
  case rbEmpty | rbFull | rbOcc =>
    exact (hs.whenAdmitted_eq hp rfl _).trans (requireBound_of_unbound hb _)
  case rbPeek =>
    rw [exec, execRbPeek, hs.whenAdmitted_eq hp rfl, RingBuf.peek_of_unbound hb, andThen_refused]
  case rbPush b =>
    rw [exec, execRbPush, hs.whenAdmitted_eq hp rfl, RingBuf.push_of_unbound hb, andThen_refused]
  case rbPop =>
    rw [exec, execRbPop, hs.whenAdmitted_eq hp rfl, RingBuf.pop_of_unbound hb, andThen_refused]
  case seRecv => cases hop

end Sys2Proof.Machine

namespace Sys2Proof.Proofs

open Sys2Proof Sys2Proof.Machine

/-- Settles O34: the bits of the concatenation, the reset value, and the response of SE.STATUS. -/
theorem statusBits : Obligations.StatusBits := by
  unfold Obligations.StatusBits
  refine ⟨SerialEngine.status_layout, reset_status, fun s hs => ?_⟩
  rw [exec_seStatus_of_presented hs, hs.respond_eq]
  rfl

/-- Settles O36: the six operations are those that `exec_of_unbound` speaks of. -/
theorem unboundBufferRefuses : Obligations.UnboundBufferRefuses := by
  unfold Obligations.UnboundBufferRefuses
  intro s hb
  refine ⟨fun p hp hs => ?_, fun hs b => ?_, fun hs => ⟨?_, ?_⟩⟩
  · have hmem : p ∈ [Port.rbProducer, Port.rbConsumer] := by simpa using hp
    exact ⟨exec_of_unbound hb hs hmem rfl rfl, exec_of_unbound hb hs hmem rfl rfl, exec_of_unbound hb hs hmem rfl rfl⟩
  · exact exec_of_unbound hb hs (List.mem_singleton_self _) rfl rfl
  · exact exec_of_unbound hb hs (List.mem_singleton_self _) rfl rfl
  · exact exec_of_unbound hb hs (List.mem_singleton_self _) rfl rfl

end Sys2Proof.Proofs
end

section
/-! SUPPORT. Proofs about the encoding: the reserved opcodes and the illegal operands (rule R107). -/

namespace Sys2Proof

/-! ### The reserved opcodes -/

@[simp] theorem takeF0_ne_illegalOpcode (i : Instr) (operands : List Byte) :
    takeF0 i operands ≠ .error .illegalOpcode := nofun

@[simp] theorem takeF1_ne_illegalOpcode (mk : Byte → Instr) (operands : List Byte) :
    takeF1 mk operands ≠ .error .illegalOpcode := by
  unfold takeF1
  split <;> nofun

@[simp] theorem takeF2_ne_illegalOpcode (mk : Idx → Instr) (operands : List Byte) :
    takeF2 mk operands ≠ .error .illegalOpcode := by
  unfold takeF2
  split <;> nofun

@[simp] theorem takeF8_ne_illegalOpcode (mk : Byte → Byte → Byte → Byte → Byte → Byte → Byte → Byte → Instr)
    (operands : List Byte) : takeF8 mk operands ≠ .error .illegalOpcode := by
  unfold takeF8
  split <;> nofun

/-- The opcode alone decides that it is reserved (rule R110): a format takes its operands or finds them incomplete. -/
theorem decode_eq_illegalOpcode_iff_opcode (op : Byte) (operands : List Byte) :
    decode (op :: operands) = .error .illegalOpcode ↔ decode [op] = .error .illegalOpcode := by
  unfold decode
  dsimp only
  split <;> simp

/-- The opcode map, its 256 bytes looked up one by one (rules R106, R107). -/
theorem decode_opcode_eq_illegalOpcode_iff : ∀ op : Byte,
    decode [op] = .error .illegalOpcode ↔
      0x07 ≤ op.toNat ∧ op.toNat ≤ 0x7F ∨ 0x89 ≤ op.toNat ∧ op.toNat ≤ 0x8F ∨
        0x92 ≤ op.toNat ∧ op.toNat ≤ 0x9F ∨ 0xA2 ≤ op.toNat := by decide

/-! ### The operands -/

theorem wellFormed_eq_false_iff (i : Instr) :
    i.wellFormed = false ↔ ∃ d : Byte, i = .seCfgrd d ∧ 7 < d.toNat := by
  constructor
  · intro h
    cases i
    case seCfgrd d => exact ⟨d, rfl, by simpa [Instr.wellFormed] using h⟩
    all_goals cases h
  · rintro ⟨d, rfl, hd⟩
    simpa [Instr.wellFormed] using hd

/-- Every capacity is a legal encoding of RB.INIT: its two operand bytes come back as the capacity. -/
theorem decode_encode_rbInit (cap : Idx) : decode (encode (.rbInit cap)) = .ok (.rbInit cap, []) := by
  have hop (operands : List Byte) : decode (0x00#8 :: operands) = takeF2 .rbInit operands := rfl
  rw [encode, Instr.opcode, Instr.operandBytes, hop, takeF2, Machine.imm16_bytes]

end Sys2Proof

namespace Sys2Proof.Machine

/-! ### What the machine refuses -/

theorem fetch_of_decode_error {bytes : List Byte} {e : DecodeError} (h : decode bytes = .error e) :
    fetch bytes = .refused (decodeRefusal e) := by
  rw [fetch, h]

/-- A command that does not decode is refused, presented as one step or preemptibly. -/
theorem step_of_decode_error {s : State} {a : Agent} {p : Port} {bytes : List Byte} {xs : List Input}
    {e : DecodeError} (h : decode bytes = .error e)
    (hs : s.inputs = .command a p bytes :: xs ∨ s.inputs = .start p bytes :: xs) :
    step s = .refused (decodeRefusal e) := by
  obtain hs | hs := hs <;> simp only [step, hs, perform, fetch_of_decode_error h, andThen_refused]

theorem exec_seCfgrd_of_index_gt {s : State} {d : Byte} (hs : s.Presented .seForeground) (hd : 7 < d.toNat) :
    exec (.seCfgrd d) s = .refused .cfgIndex := by
  rw [exec, execSeCfgrd, hs.whenAdmitted_eq (List.mem_singleton_self _) rfl, decide_eq_true hd, refuseIf_true]

theorem exec_rbInit_of_cap_gt {s : State} {p : Port} {cap : Idx} (hs : s.Presented p)
    (hp : p ∈ portsOf (.rbInit cap)) (hq : s.inProgressOn .rb = false)
    (hc : s.params.slots.toNat < cap.toNat) : exec (.rbInit cap) s = .refused .capExceedsSlots := by
  rw [exec, execRbInit, hs.whenAdmitted_eq hp hq, decide_eq_true hc, refuseIf_true]

end Sys2Proof.Machine

namespace Sys2Proof.Proofs

open Sys2Proof Sys2Proof.Machine

/-- Settles O5: the opcode decides alone, the map is looked up, and each refusal is that of its own step or operation. -/
theorem reservedEncodingsAreRefused : Obligations.ReservedEncodingsAreRefused := by
  unfold Obligations.ReservedEncodingsAreRefused
  refine ⟨fun op rest => ?_, fun s a p bytes xs => step_of_decode_error, wellFormed_eq_false_iff,
    fun s d => exec_seCfgrd_of_index_gt, fun s cap p hp hs hq hc => ⟨decode_encode_rbInit cap, ?_⟩⟩
  · exact (decode_eq_illegalOpcode_iff_opcode op rest).trans (decode_opcode_eq_illegalOpcode_iff op)
  · have hmem : p ∈ portsOf (.rbInit cap) := by simpa [portsOf] using hp
    exact exec_rbInit_of_cap_gt hs hmem hq hc

end Sys2Proof.Proofs
end

section
/-! SUPPORT. Proofs about the ring-buffer operations as atomic steps (rules R130 to R148). -/

namespace Sys2Proof.Machine

open Sys2Proof.Config

/-! ### The port -/

/-- A command on a port that does not accept its operation is turned away before its own rule (rule R101). -/
theorem State.Presented.whenAdmitted_of_not_mem {s : State} {p : Port} {i : Instr} (h : s.Presented p)
    (hp : p ∉ portsOf i) (k : Result State) : whenAdmitted i s k = .refused .wrongPort := by
  have hr : admissionRefusal i s = some .wrongPort := by
    rw [admissionRefusal, h.port, if_pos (by simpa using hp)]
  rw [whenAdmitted, hr]

/-- Another RB unit changes nothing of how a command is presented. -/
theorem State.Presented.withRb {s : State} {p : Port} (h : s.Presented p) (q : RingBuf) : (s.withRb q).Presented p := h

/-! ### Occupancy -/

/-- Neither variant's occupancy needs more than the 16 bits of RB.OCC's result. -/
theorem RingBuf.occ_lt (v : RbVariant) (q : RingBuf) : q.occ v < 2 ^ 16 := by
  cases v with
  | explicit => exact q.count.isLt
  | derived =>
    have hhead := q.head.isLt
    have hcap := q.cap.isLt
    unfold RingBuf.occ
    dsimp only
    split
    · decide
    · split <;> omega

/-- The two result bytes of RB.OCC are the occupancy, low byte first (rule R142). -/
theorem RingBuf.occ_bytes (v : RbVariant) (q : RingBuf) :
    (highByte (BitVec.ofNat 16 (q.occ v))).toNat * 256 + (lowByte (BitVec.ofNat 16 (q.occ v))).toNat = q.occ v := by
  rw [highByte_lowByte_toNat, BitVec.toNat_ofNat, Nat.mod_eq_of_lt (q.occ_lt v)]

/-! ### Push, pop and peek on a bound buffer -/

section
variable {P : Params} {id : BufId} {q : RingBuf} (hb : q.bound = true)
include hb

theorem RingBuf.push_of_full (hf : q.isFull P.variant = true) (b : Byte) : q.push P id b = .next (q, false) :=
  RingBuf.push_eq_next.mpr ⟨hb, .inl ⟨hf, rfl, rfl⟩⟩

theorem RingBuf.push_of_room (hf : q.isFull P.variant = false) (hq : q.Sound P id) (b : Byte) :
    q.push P id b =
      .next (({ q with slots := Memory.write q.slots q.head.toNat b } : RingBuf).advanceHead.countUp P.variant, true) :=
  RingBuf.push_eq_next.mpr ⟨hb, .inr ⟨hf, hq.head_exists hf, rfl, rfl⟩⟩

theorem RingBuf.pop_of_empty (he : q.isEmpty P.variant = true) : q.pop P id = .next (q, defaultByte) :=
  RingBuf.pop_eq_next.mpr ⟨hb, .inl ⟨he, rfl, rfl⟩⟩

theorem RingBuf.pop_of_written {v : Byte} (he : q.isEmpty P.variant = false) (hq : q.Sound P id)
    (hv : Memory.read? q.slots q.tail.toNat = some v) :
    q.pop P id = .next (q.advanceTail.countDown P.variant, v) :=
  RingBuf.pop_eq_next.mpr ⟨hb, .inr ⟨he, hq.tail_exists he, (slotByte_of_read hv).symm, rfl⟩⟩

theorem RingBuf.peek_of_empty (he : q.isEmpty P.variant = true) : q.peek P id = .next defaultByte :=
  RingBuf.peek_eq_next.mpr ⟨hb, .inl ⟨he, rfl⟩⟩

theorem RingBuf.peek_of_written {v : Byte} (he : q.isEmpty P.variant = false) (hq : q.Sound P id)
    (hv : Memory.read? q.slots q.tail.toNat = some v) : q.peek P id = .next v :=
  RingBuf.peek_eq_next.mpr ⟨hb, .inr ⟨he, hq.tail_exists he, (slotByte_of_read hv).symm⟩⟩

end

/-! ### The seven operations on a port that admits them -/

section
variable {s : State} {p : Port} (hs : s.Presented p)
include hs

theorem exec_rbInit_of_cap_le {cap : Idx} (hp : p ∈ portsOf (.rbInit cap)) (hq : s.inProgressOn .rb = false)
    (hc : cap.toNat ≤ s.params.slots.toNat) :
    exec (.rbInit cap) s = .next ((s.withRb (s.rb.init s.params.variant cap)).respond [ccDone]) := by
  rw [exec, execRbInit, hs.whenAdmitted_eq hp hq, decide_eq_false (Nat.not_lt.mpr hc), refuseIf_false]

theorem exec_rbEmpty_of_bound (hp : p ∈ portsOf .rbEmpty) (hb : s.rb.bound = true) :
    exec .rbEmpty s = .next (s.respond [ccDone, boolByte (s.rb.isEmpty s.params.variant)]) :=
  (hs.whenAdmitted_eq hp rfl _).trans (requireBound_of_bound hb _)

theorem exec_rbFull_of_bound (hp : p ∈ portsOf .rbFull) (hb : s.rb.bound = true) :
    exec .rbFull s = .next (s.respond [ccDone, boolByte (s.rb.isFull s.params.variant)]) :=
  (hs.whenAdmitted_eq hp rfl _).trans (requireBound_of_bound hb _)

theorem exec_rbOcc_of_bound (hp : p ∈ portsOf .rbOcc) (hb : s.rb.bound = true) :
    exec .rbOcc s = .next (s.respond (ccDone :: idxBytes (BitVec.ofNat 16 (s.rb.occ s.params.variant)))) :=
  (hs.whenAdmitted_eq hp rfl _).trans (requireBound_of_bound hb _)

end

theorem exec_rbPeek_of_peek {s : State} {v : Byte} (hs : s.Presented .rbConsumer)
    (h : s.rb.peek s.params .rb = .next v) : exec .rbPeek s = .next (s.respond [ccDone, v]) := by
  rw [exec, execRbPeek, hs.whenAdmitted_eq (List.mem_singleton_self _) rfl, h, andThen_next]

theorem exec_rbPush_of_push {s : State} {b : Byte} {q : RingBuf} {ok : Bool} (hs : s.Presented .rbProducer)
    (h : s.rb.push s.params .rb b = .next (q, ok)) :
    exec (.rbPush b) s = .next ((s.withRb q).respond [ccDone, boolByte ok]) := by
  rw [exec, execRbPush, hs.whenAdmitted_eq (List.mem_singleton_self _) rfl, h, andThen_next]

theorem exec_rbPop_of_pop {s : State} {q : RingBuf} {v : Byte} (hs : s.Presented .rbConsumer)
    (h : s.rb.pop s.params .rb = .next (q, v)) : exec .rbPop s = .next ((s.withRb q).respond [ccDone, v]) := by
  rw [exec, execRbPop, hs.whenAdmitted_eq (List.mem_singleton_self _) rfl, h, andThen_next]

end Sys2Proof.Machine

namespace Sys2Proof.Proofs

open Sys2Proof Sys2Proof.Machine

/-- Settles O13: the laws of the advance, one for each part. -/
theorem circularAdvance : Obligations.CircularAdvance := by
  unfold Obligations.CircularAdvance
  exact fun i cap => ⟨nextIdx_toNat i cap, nextIdx_lt, nextIdx_mod, nextIdx_zero 0⟩

/-- Settles O14: the comparison with SLOTS decides, and the variant decides what becomes of `count`. -/
theorem rbInitRule : Obligations.RbInitRule := by
  unfold Obligations.RbInitRule
  intro cap p s hp hs hq
  have hmem : p ∈ portsOf (.rbInit cap) := by simpa [portsOf] using hp
  refine ⟨exec_rbInit_of_cap_gt hs hmem hq, fun hc hv => ?_, fun hc hv => ?_⟩ <;>
  · rw [exec_rbInit_of_cap_le hs hmem hq hc, (hs.withRb _).respond_eq, hv]
    rfl

/-- Settles O15: the three queries share their ports, and the occupancy fits its two result bytes. -/
theorem rbQueriesRule : Obligations.RbQueriesRule := by
  unfold Obligations.RbQueriesRule
  intro p s hp hs
  have hmem : p ∈ [Port.rbProducer, Port.rbConsumer] := by simpa using hp
  refine ⟨fun hb => ⟨?_, ?_, ?_⟩, fun hb => ?_, fun hb => ?_, fun hb _ => ⟨_, _, s.rb.occ_bytes _, ?_⟩⟩
  · exact exec_of_unbound hb hs hmem rfl rfl
  · exact exec_of_unbound hb hs hmem rfl rfl
  · exact exec_of_unbound hb hs hmem rfl rfl
  · rw [exec_rbEmpty_of_bound hs hmem hb, hs.respond_eq]
    rfl
  · rw [exec_rbFull_of_bound hs hmem hb, hs.respond_eq]
    rfl
  · rw [exec_rbOcc_of_bound hs hmem hb, hs.respond_eq]
    rfl

/-- Settles O16: the wrong port, the unbound buffer, and the two answers of `Peek`. -/
theorem rbPeekRule : Obligations.RbPeekRule := by
  unfold Obligations.RbPeekRule
  refine fun s => ⟨fun hs => ?_, fun hs hb => ?_, fun hs hb he => ?_, fun v hs hb he hq hv => ?_⟩
  · exact hs.whenAdmitted_of_not_mem (by decide) _
  · exact exec_of_unbound hb hs (List.mem_singleton_self _) rfl rfl
  · rw [exec_rbPeek_of_peek hs (RingBuf.peek_of_empty hb he), hs.respond_eq]
    rfl
  · rw [exec_rbPeek_of_peek hs (RingBuf.peek_of_written hb he hq hv), hs.respond_eq]
    rfl

/-- Settles O17: the wrong port, the unbound buffer, and the two answers of `Push`; only the last depends on the
variant, by `count`. -/
theorem rbPushRule : Obligations.RbPushRule := by
  unfold Obligations.RbPushRule
  refine fun b s => ⟨fun hs => ?_, fun hs hb => ?_, fun hs hb hf => ?_, fun hs hb hf hq => ?_⟩
  · exact hs.whenAdmitted_of_not_mem (by simp [portsOf]) _
  · exact exec_of_unbound hb hs (List.mem_singleton_self _) rfl rfl
  · rw [exec_rbPush_of_push hs (RingBuf.push_of_full hb hf b), (hs.withRb _).respond_eq]
    rfl
  · rw [exec_rbPush_of_push hs (RingBuf.push_of_room hb hf hq b), (hs.withRb _).respond_eq]
    cases s.params.variant <;> rfl

/-- Settles O18: the wrong port, the unbound buffer, and the two answers of `Pop`; only the last depends on the
variant, by `count`. -/
theorem rbPopRule : Obligations.RbPopRule := by
  unfold Obligations.RbPopRule
  refine fun s => ⟨fun hs => ?_, fun hs hb => ?_, fun hs hb he => ?_, fun v hs hb he hq hv => ?_⟩
  · exact hs.whenAdmitted_of_not_mem (by decide) _
  · exact exec_of_unbound hb hs (List.mem_singleton_self _) rfl rfl
  · rw [exec_rbPop_of_pop hs (RingBuf.pop_of_empty hb he), (hs.withRb _).respond_eq]
    rfl
  · rw [exec_rbPop_of_pop hs (RingBuf.pop_of_written hb he hq hv), (hs.withRb _).respond_eq]
    cases s.params.variant <;> rfl

end Sys2Proof.Proofs
end

section
/-! SUPPORT. Proofs about the micro-steps of the RB unit's operations (rules R146, R150, R151): one lemma for each
micro-step, those of a pop over any buffer. -/

namespace Sys2Proof.Machine

open Sys2Proof.Config

/-! ### Slots in range -/

theorem memWrite_of_lt {P : Params} {id : BufId} {q : RingBuf} {i : Idx} (hi : i.toNat < q.cap.toNat)
    (hc : q.cap.toNat ≤ (slotsOf P id).toNat) (b : Byte) :
    memWrite P id q i b = .next { q with slots := Memory.write q.slots i.toNat b } :=
  memWrite_eq_next.mpr ⟨slotExists_iff.mpr ⟨hi, hc⟩, rfl⟩

theorem memRead_of_written {P : Params} {id : BufId} {q : RingBuf} {i : Idx} {v : Byte} (hi : i.toNat < q.cap.toNat)
    (hc : q.cap.toNat ≤ (slotsOf P id).toNat) (hv : Memory.read? q.slots i.toNat = some v) :
    memRead P id q i = .next v :=
  memRead_eq_next.mpr ⟨slotExists_iff.mpr ⟨hi, hc⟩, slotByte_of_read hv⟩

variable {s : State} {f : Progress}

/-! ### The operation in progress decides whose micro-step it is -/

section
variable (hs : s.fg = some f)
include hs

theorem microStep_of_push {b : Byte} (hf : f.op = .push b) : microStep s = microPush b f s := by
  simp only [microStep, hs, hf]

theorem microStep_of_pop (hf : f.op = .pop) : microStep s = microPop .rb f s := by
  simp only [microStep, hs, hf]

theorem microStep_of_peek (hf : f.op = .peek) : microStep s = microPeek f s := by
  simp only [microStep, hs, hf]

theorem microStep_of_empty (hf : f.op = .empty) :
    microStep s = microQuery [ccDone, boolByte (s.rb.isEmpty s.params.variant)] f s := by
  simp only [microStep, hs, hf]

theorem microStep_of_full (hf : f.op = .full) :
    microStep s = microQuery [ccDone, boolByte (s.rb.isFull s.params.variant)] f s := by
  simp only [microStep, hs, hf]

theorem microStep_of_occ (hf : f.op = .occ) :
    microStep s = microQuery (ccDone :: idxBytes (BitVec.ofNat 16 (s.rb.occ s.params.variant))) f s := by
  simp only [microStep, hs, hf]

end

/-! ### P1 to P4 -/

theorem microPush_test_of_full {b : Byte} (hu : f.upc = .u1) (hq : s.rb.isFull s.params.variant = true) :
    microPush b f s = .next (s.finish f [ccDone, boolByte false]) := by
  simp only [microPush, hu, hq, if_true]

theorem microPush_test_of_room {b : Byte} (hu : f.upc = .u1) (hq : s.rb.isFull s.params.variant = false) :
    microPush b f s = .next (s.withFg (some { f with flag := false, upc := .u2 })) := by
  simp only [microPush, hu, hq, Bool.false_eq_true, if_false]

theorem microPush_write {b : Byte} (hu : f.upc = .u2) (hi : s.rb.head.toNat < s.rb.cap.toNat)
    (hc : s.rb.cap.toNat ≤ s.params.slots.toNat) :
    microPush b f s = .next ((s.withRb { s.rb with slots := Memory.write s.rb.slots s.rb.head.toNat b }).withFg
      (some { f with upc := .u3 })) := by
  simp only [microPush, hu, memWrite_of_lt (id := .rb) hi hc, andThen_next]

theorem microPush_advance_explicit {b : Byte} (hu : f.upc = .u3) (hv : s.params.variant = .explicit) :
    microPush b f s = .next ((s.withRb s.rb.advanceHead).withFg (some { f with upc := .u4 })) := by
  simp only [microPush, hu, hv]

theorem microPush_advance_derived {b : Byte} (hu : f.upc = .u3) (hv : s.params.variant = .derived) :
    microPush b f s = .next ((s.withRb s.rb.advanceHead).finish f [ccDone, boolByte true]) := by
  simp only [microPush, hu, hv]

theorem microPush_count {b : Byte} (hu : f.upc = .u4) (hv : s.params.variant = .explicit) :
    microPush b f s = .next ((s.withRb (s.rb.countUp .explicit)).finish f [ccDone, boolByte true]) := by
  simp only [microPush, hu, hv]

/-! ### C1 to C4 -/

section
variable (id : BufId)

theorem microPop_test_of_empty (hu : f.upc = .u1) (hq : (s.buf id).isEmpty s.params.variant = true) :
    microPop id f s = .next (s.finish f [ccDone, defaultByte]) := by
  simp only [microPop, hu, hq, if_true]

theorem microPop_test_of_nonempty (hu : f.upc = .u1) (hq : (s.buf id).isEmpty s.params.variant = false) :
    microPop id f s = .next (s.withFg (some { f with flag := false, upc := .u2 })) := by
  simp only [microPop, hu, hq, Bool.false_eq_true, if_false]

theorem microPop_read {v : Byte} (hu : f.upc = .u2) (hi : (s.buf id).tail.toNat < (s.buf id).cap.toNat)
    (hc : (s.buf id).cap.toNat ≤ (slotsOf s.params id).toNat)
    (hv : Memory.read? (s.buf id).slots (s.buf id).tail.toNat = some v) :
    microPop id f s = .next (s.withFg (some { f with val := v, upc := .u3 })) := by
  simp only [microPop, hu, memRead_of_written hi hc hv, andThen_next]

theorem microPop_advance_explicit (hu : f.upc = .u3) (hv : s.params.variant = .explicit) :
    microPop id f s = .next ((s.withBuf id (s.buf id).advanceTail).withFg (some { f with upc := .u4 })) := by
  simp only [microPop, hu, hv]

theorem microPop_advance_derived (hu : f.upc = .u3) (hv : s.params.variant = .derived) :
    microPop id f s = .next ((s.withBuf id (s.buf id).advanceTail).finish f [ccDone, f.val]) := by
  simp only [microPop, hu, hv]

theorem microPop_count (hu : f.upc = .u4) (hv : s.params.variant = .explicit) :
    microPop id f s = .next ((s.withBuf id ((s.buf id).countDown .explicit)).finish f [ccDone, f.val]) := by
  simp only [microPop, hu, hv]

end

/-! ### K1, K2 and the queries -/

theorem microPeek_test_of_empty (hu : f.upc = .u1) (hq : s.rb.isEmpty s.params.variant = true) :
    microPeek f s = .next (s.finish f [ccDone, defaultByte]) := by
  simp only [microPeek, hu, hq, if_true]

theorem microPeek_test_of_nonempty (hu : f.upc = .u1) (hq : s.rb.isEmpty s.params.variant = false) :
    microPeek f s = .next (s.withFg (some { f with flag := false, upc := .u2 })) := by
  simp only [microPeek, hu, hq, Bool.false_eq_true, if_false]

theorem microPeek_read {v : Byte} (hu : f.upc = .u2) (hi : s.rb.tail.toNat < s.rb.cap.toNat)
    (hc : s.rb.cap.toNat ≤ s.params.slots.toNat) (hv : Memory.read? s.rb.slots s.rb.tail.toNat = some v) :
    microPeek f s = .next (s.finish f [ccDone, v]) := by
  simp only [microPeek, hu, memRead_of_written (id := .rb) hi hc hv, andThen_next]

theorem microQuery_answer (hu : f.upc = .u1) (bytes : List Byte) :
    microQuery bytes f s = .next (s.finish f bytes) := by
  simp only [microQuery, hu]

end Sys2Proof.Machine

namespace Sys2Proof.Proofs

open Sys2Proof Sys2Proof.Machine

/-- Settles O21: P1's two outcomes, P2, P3 in each variant, and P4. -/
theorem pushMicroSteps : Obligations.PushMicroSteps := by
  unfold Obligations.PushMicroSteps
  intro s f b hs hf
  rw [microStep_of_push hs hf]
  exact ⟨microPush_test_of_full, microPush_test_of_room, microPush_write, microPush_advance_explicit,
    microPush_advance_derived, microPush_count⟩

/-- Settles O22: C1's two outcomes, C2, C3 in each variant, and C4, on the RB unit's buffer. -/
theorem popMicroSteps : Obligations.PopMicroSteps := by
  unfold Obligations.PopMicroSteps
  intro s f v hs hf
  rw [microStep_of_pop hs hf]
  exact ⟨microPop_test_of_empty .rb, microPop_test_of_nonempty .rb, microPop_read .rb, microPop_advance_explicit .rb,
    microPop_advance_derived .rb, microPop_count .rb⟩

/-- Settles O24: the queries answer at their one micro-step, the occupancy in two bytes; RB.PEEK has K1's two outcomes
and K2. -/
theorem queryMicroSteps : Obligations.QueryMicroSteps := by
  unfold Obligations.QueryMicroSteps
  intro s f v hs
  refine ⟨fun hf hu => ?_, fun hf hu => ?_, fun hf hu _ => ⟨_, _, s.rb.occ_bytes _, ?_⟩, fun hf => ?_, fun hf => ?_,
    fun hf => ?_⟩
  · exact (microStep_of_empty hs hf).trans (microQuery_answer hu _)
  · exact (microStep_of_full hs hf).trans (microQuery_answer hu _)
  · exact (microStep_of_occ hs hf).trans (microQuery_answer hu _)
  · rw [microStep_of_peek hs hf]
    exact microPeek_test_of_empty
  · rw [microStep_of_peek hs hf]
    exact microPeek_test_of_nonempty
  · rw [microStep_of_peek hs hf]
    exact microPeek_read

end Sys2Proof.Proofs
end

section
/-! SUPPORT. Proofs about the engine's foreground operations (rules R170 to R184). -/

namespace Sys2Proof

/-- The foreground operations that the engine accepts after SE.INIT only, SE.CFGRD with an index that it has
(rules R35, R184). -/
def Instr.needsInit : Instr → Bool
  | .seSend _ | .seRecv | .seEi | .seDi | .seRxempty => true
  | .seCfgrd d => decide (d.toNat ≤ 7)
  | _ => false

end Sys2Proof

namespace Sys2Proof.Machine

open Sys2Proof.Config

/-! ### Commands of the engine's foreground port -/

/-- Another SE unit changes nothing of how a command is presented. -/
theorem State.Presented.withSe {s : State} {p : Port} (h : s.Presented p) (e : SerialEngine) :
    (s.withSe e).Presented p := h

theorem State.Presented.withTxq {s : State} {p : Port} (h : s.Presented p) (q : RingBuf) :
    (s.withTxq q).Presented p := h

theorem State.Presented.withRxq {s : State} {p : Port} (h : s.Presented p) (q : RingBuf) :
    (s.withRxq q).Presented p := h

section
variable {s : State} (hs : s.Presented .seForeground)
include hs

/-- On an inited engine a presented command that needs SE.INIT runs its own rule. -/
theorem State.Presented.whenInited_eq {i : Instr} (hp : .seForeground ∈ portsOf i)
    (hi : initDuringOperation i s = false) (h1 : s.se.inited = true) (k : Result State) :
    whenAdmitted i s (requireInited s k) = k :=
  (hs.whenAdmitted_eq hp hi _).trans (requireInited_of_inited h1 k)

/-- The index alone decides the first test of SE.CFGRD; an index in range leaves the test of `inited` (rule R184). -/
theorem exec_seCfgrd_of_index_le {d : Byte} (hd : d.toNat ≤ 7) :
    exec (.seCfgrd d) s = requireInited s (.next (s.respond [ccDone, s.se.cfg.byte d])) := by
  rw [exec, execSeCfgrd, hs.whenAdmitted_eq (List.mem_singleton_self _) rfl, decide_eq_false (Nat.not_lt.mpr hd),
    refuseIf_false]

/-- Rule R35 for the six operations at once. -/
theorem exec_of_uninited {i : Instr} (h0 : s.se.inited = false) (hi : i.needsInit = true) :
    exec i s = .refused .notInited := by
  cases i
  case seSend | seRecv | seEi | seDi | seRxempty =>
    exact (hs.whenAdmitted_eq (List.mem_singleton_self _) rfl _).trans (requireInited_of_uninited h0 _)
  case seCfgrd d =>
    rw [exec_seCfgrd_of_index_le hs (of_decide_eq_true hi), requireInited_of_uninited h0]
  all_goals cases hi

end

/-! ### SE.INIT -/

theorem configValid_iff {P : Params} {p0 p1 p2 p3 p4 p7 : Byte} :
    configValid P p0 p1 p2 p3 p4 p7 = true ↔
      1 ≤ usableOf P.variant P.txCap ∧ 1 ≤ usableOf P.variant P.rxCap ∧ baudOk P p0 p1 p2 p3 p4 p7 = true := by
  simp [configValid, and_assoc]

theorem one_le_usableOf_explicit (c : Idx) : 1 ≤ usableOf .explicit c ↔ 1 ≤ c.toNat := Iff.rfl

theorem one_le_usableOf_derived (c : Idx) : 1 ≤ usableOf .derived c ↔ 2 ≤ c.toNat := by
  simp only [usableOf]
  omega

/-- Restarted and constructed again, a buffer is bound and empty, with its slots as they were (rule R21). -/
theorem RingBuf.init_unbind (v : RbVariant) (c : Idx) (q : RingBuf) :
    q.unbind.init v c = { resetRingBuf with slots := q.slots, cap := c, bound := true } := by
  cases v <;> rfl

section
variable {s : State} (hs : s.Presented .seForeground) {p0 p1 p2 p3 p4 : Byte} (p5 p6 : Byte) {p7 : Byte}
include hs

theorem exec_seInit_of_valid (hc : configValid s.params p0 p1 p2 p3 p4 p7 = true) :
    exec (.seInit p0 p1 p2 p3 p4 p5 p6 p7) s = .next ((s.withSe (s.se.restart.configure s.params
      { clockSource := p0, baudDivisorLow := p1, baudDivisorHigh := p2, modulationA := p3, modulationB := p4
        parityMode := p5, bitOrder := p6, oversamplingMode := p7 })).respond [ccDone]) := by
  rw [exec, execSeInit, hs.whenAdmitted_eq (List.mem_singleton_self _) rfl, if_pos hc]

theorem exec_seInit_of_invalid (hc : ¬configValid s.params p0 p1 p2 p3 p4 p7 = true) :
    exec (.seInit p0 p1 p2 p3 p4 p5 p6 p7) s =
      .next ((s.withSe { s.se.restart with cfgErr := true }).respond [ccCfgErr]) := by
  rw [exec, execSeInit, hs.whenAdmitted_eq (List.mem_singleton_self _) rfl, if_neg hc]

end

/-! ### SE.SEND, SE.RECV, SE.EI, SE.DI and SE.RXEMPTY on an inited engine -/

section
variable {s : State} (hs : s.Presented .seForeground) (h1 : s.se.inited = true)
include hs h1

theorem exec_seSend_of_idle (ht : s.se.transmitting = false) (hr : s.se.txReady = true) (b : Byte) :
    exec (.seSend b) s = .next ((s.withSe
      { s.se with txBuf := b, txReady := false, transmitting := true, txIe := true }).respond [ccDone]) := by
  have hw : s.se.txWrite b = .next { s.se with txBuf := b, txReady := false } :=
    SerialEngine.txWrite_eq_next.mpr ⟨hr, rfl⟩
  rw [exec, execSeSend, hs.whenInited_eq (List.mem_singleton_self _) rfl h1, if_pos (by simp [ht]), hw, andThen_next]

theorem exec_seSend_of_push {b : Byte} {q : RingBuf} {ok : Bool} (ht : s.se.transmitting = true)
    (hf : s.se.txq.isFull s.params.variant = false) (hq : s.se.txq.push s.params .txq b = .next (q, ok)) :
    exec (.seSend b) s = .next ((s.withTxq q).respond [ccDone]) := by
  rw [exec, execSeSend, hs.whenInited_eq (List.mem_singleton_self _) rfl h1, if_neg (by simp [ht]),
    if_pos (by simp [hf]), hq, andThen_next]

theorem exec_seSend_of_full (ht : s.se.transmitting = true) (hf : s.se.txq.isFull s.params.variant = true)
    (b : Byte) : exec (.seSend b) s = .next (s.respond [ccHeld]) := by
  rw [exec, execSeSend, hs.whenInited_eq (List.mem_singleton_self _) rfl h1, if_neg (by simp [ht]),
    if_neg (by simp [hf])]

theorem exec_seRecv_of_pop {q : RingBuf} {v : Byte} (hq : s.se.rxq.pop s.params .rxq = .next (q, v)) :
    exec .seRecv s = .next ((s.withRxq q).respond [ccDone, v]) := by
  rw [exec, execSeRecv, hs.whenInited_eq (List.mem_singleton_self _) rfl h1, hq, andThen_next]

theorem exec_seEi_of_inited : exec .seEi s = .next ((s.withSe { s.se with rxIe := true }).respond [ccDone]) :=
  hs.whenInited_eq (List.mem_singleton_self _) rfl h1 _

theorem exec_seDi_of_inited : exec .seDi s = .next ((s.withSe { s.se with rxIe := false }).respond [ccDone]) :=
  hs.whenInited_eq (List.mem_singleton_self _) rfl h1 _

theorem exec_seRxempty_of_inited :
    exec .seRxempty s = .next (s.respond [ccDone, boolByte (s.se.rxq.isEmpty s.params.variant)]) :=
  hs.whenInited_eq (List.mem_singleton_self _) rfl h1 _

end

/-! ### SE.RXDROP and SE.CFGRD -/

theorem exec_seRxdrop_of_presented {s : State} (hs : s.Presented .seForeground) :
    exec .seRxdrop s = .next (s.respond (ccDone :: idxBytes s.se.rxDrop)) :=
  hs.whenAdmitted_eq (List.mem_singleton_self _) rfl _

/-- `cfg[0..7]` as a list, in the order of rule R36. -/
def SerialConfig.toList (c : SerialConfig) : List Byte :=
  [c.clockSource, c.baudDivisorLow, c.baudDivisorHigh, c.modulationA, c.modulationB, c.parityMode, c.bitOrder,
    c.oversamplingMode]

theorem SerialConfig.index_le_of_toList {c : SerialConfig} {n : Nat} {v : Byte} (h : c.toList[n]? = some v) :
    n ≤ 7 := by
  obtain ⟨hn, -⟩ := List.getElem?_eq_some_iff.mp h
  exact Nat.le_of_lt_succ hn

theorem SerialConfig.toList_getElem? (c : SerialConfig) {i : Byte} (hi : i.toNat ≤ 7) :
    c.toList[i.toNat]? = some (c.byte i) := by
  unfold SerialConfig.byte
  generalize i.toNat = n at hi ⊢
  interval_cases n <;> rfl

end Sys2Proof.Machine

namespace Sys2Proof.Proofs

open Sys2Proof Sys2Proof.Machine

/-- Settles O29: the statement's capacity bound is the usable capacity of the variant, so its condition is
`configValid`; the restart leaves what the reset does. -/
theorem seInitRule : Obligations.SeInitRule := by
  unfold Obligations.SeInitRule
  intro p0 p1 p2 p3 p4 p5 p6 p7 s hs usable kept
  have husable (c : Idx) : usable c ↔ 1 ≤ usableOf s.params.variant c := by
    simp only [usable]
    cases s.params.variant with
    | explicit => exact (one_le_usableOf_explicit c).symm
    | derived => exact (one_le_usableOf_derived c).symm
  rw [husable, husable, ← configValid_iff]
  refine ⟨fun hc => ?_, fun hc => ?_⟩
  · rw [exec_seInit_of_valid hs p5 p6 hc, (hs.withSe _).respond_eq, SerialEngine.configure]
    simp only [SerialEngine.restart, RingBuf.init_unbind]
    rfl
  · rw [exec_seInit_of_invalid hs p5 p6 hc, (hs.withSe _).respond_eq]
    rfl

/-- Settles O30: the refusal before SE.INIT, and the direct, the enqueue and the held path; only the enqueue path
depends on the variant, by `count`. -/
theorem seSendRule : Obligations.SeSendRule := by
  unfold Obligations.SeSendRule
  refine fun b s hs => ⟨fun h0 => ?_, fun h1 ht hr => ?_, fun h1 ht hf hb hq => ?_, fun h1 ht hf => ?_⟩
  · exact exec_of_uninited hs h0 rfl
  · rw [exec_seSend_of_idle hs h1 ht hr, (hs.withSe _).respond_eq]
    rfl
  · rw [exec_seSend_of_push hs h1 ht hf (RingBuf.push_of_room hb hf hq b), (hs.withTxq _).respond_eq]
    cases s.params.variant <;> rfl
  · rw [exec_seSend_of_full hs h1 ht hf, hs.respond_eq]
    rfl

/-- Settles O31: the refusal before SE.INIT, and the two answers of `Pop` on `rxq`; only the last depends on the
variant, by `count`. -/
theorem seRecvRule : Obligations.SeRecvRule := by
  unfold Obligations.SeRecvRule
  refine fun s hs => ⟨fun h0 => ?_, fun h1 hb he => ?_, fun v h1 hb he hq hv => ?_⟩
  · exact exec_of_uninited hs h0 rfl
  · rw [exec_seRecv_of_pop hs h1 (RingBuf.pop_of_empty hb he), (hs.withRxq _).respond_eq]
    rfl
  · rw [exec_seRecv_of_pop hs h1 (RingBuf.pop_of_written hb he hq hv), (hs.withRxq _).respond_eq]
    cases s.params.variant <;> rfl

/-- Settles O32: `inited` decides, and each operation writes its one flag. -/
theorem receiveInterruptGate : Obligations.ReceiveInterruptGate := by
  unfold Obligations.ReceiveInterruptGate
  refine fun s hs => ⟨fun h1 => ⟨?_, ?_⟩, fun h0 => ⟨exec_of_uninited hs h0 rfl, exec_of_uninited hs h0 rfl⟩⟩
  · rw [exec_seEi_of_inited hs h1, (hs.withSe _).respond_eq]
    rfl
  · rw [exec_seDi_of_inited hs h1, (hs.withSe _).respond_eq]
    rfl

/-- Settles O33: each view answers from the registers as they stand; the two bytes of SE.RXDROP are the counter's, and
a byte of the list of SE.CFGRD's answers has an index in range. -/
theorem engineViewsRule : Obligations.EngineViewsRule := by
  unfold Obligations.EngineViewsRule
  refine fun s hs => ⟨fun h0 => ?_, fun h1 => ?_, ?_, ⟨_, _, highByte_lowByte_toNat s.se.rxDrop, ?_⟩,
    fun i hi => ?_, fun i hi h0 => ?_, fun h1 i v hv => ?_⟩
  · exact exec_of_uninited hs h0 rfl
  · rw [exec_seRxempty_of_inited hs h1, hs.respond_eq]
    rfl
  · rw [exec_seStatus_of_presented hs, hs.respond_eq]
    rfl
  · rw [exec_seRxdrop_of_presented hs, hs.respond_eq]
    rfl
  · exact exec_seCfgrd_of_index_gt hs hi
  · exact exec_of_uninited hs h0 (decide_eq_true hi)
  · have hi : i.toNat ≤ 7 := s.se.cfg.index_le_of_toList hv
    have hbyte : s.se.cfg.byte i = v := Option.some.inj ((s.se.cfg.toList_getElem? hi).symm.trans hv)
    rw [exec_seCfgrd_of_index_le hs hi, requireInited_of_inited h1, hbyte, hs.respond_eq]
    rfl

end Sys2Proof.Proofs
end

section
/-! SUPPORT. Proofs about the handlers and LINE.TXDONE (rules R200, R204, R208, R228). -/

namespace Sys2Proof.Machine

/-! ### Where a handler is enabled -/

theorem SerialEngine.txisrEnabled_iff {e : SerialEngine} :
    e.txisrEnabled = true ↔ e.inited = true ∧ e.txIe = true ∧ e.txReady = true := by
  simp [SerialEngine.txisrEnabled, and_assoc]

theorem SerialEngine.rxisrEnabled_iff {e : SerialEngine} :
    e.rxisrEnabled = true ↔ e.inited = true ∧ e.rxIe = true ∧ e.rxFull = true := by
  simp [SerialEngine.rxisrEnabled, and_assoc]

theorem runHandler_of_enabled {enabled : Bool} (h : enabled = true) (handler : State → Result State) (s : State) :
    runHandler enabled handler s = handler s := by
  rw [runHandler, h, Bool.not_true, refuseIf_false]

theorem runHandler_of_not_enabled {enabled : Bool} (h : ¬enabled = true) (handler : State → Result State)
    (s : State) : runHandler enabled handler s = .refused .notEnabled := by
  rw [runHandler, Bool.eq_false_of_not_eq_true h, Bool.not_false, refuseIf_true]

section
variable {s : State} (hs : s.Presented .seInterrupt)
include hs

theorem exec_seTxisr_of_enabled (h : s.se.txisrEnabled = true) : exec .seTxisr s = txDrain s :=
  (hs.whenAdmitted_eq (List.mem_singleton_self _) rfl _).trans (runHandler_of_enabled h _ _)

theorem exec_seTxisr_of_not_enabled (h : ¬s.se.txisrEnabled = true) : exec .seTxisr s = .refused .notEnabled :=
  (hs.whenAdmitted_eq (List.mem_singleton_self _) rfl _).trans (runHandler_of_not_enabled h _ _)

theorem exec_seRxisr_of_enabled (h : s.se.rxisrEnabled = true) : exec .seRxisr s = rxEnqueue s :=
  (hs.whenAdmitted_eq (List.mem_singleton_self _) rfl _).trans (runHandler_of_enabled h _ _)

theorem exec_seRxisr_of_not_enabled (h : ¬s.se.rxisrEnabled = true) : exec .seRxisr s = .refused .notEnabled :=
  (hs.whenAdmitted_eq (List.mem_singleton_self _) rfl _).trans (runHandler_of_not_enabled h _ _)

end

/-! ### What the handlers do -/

theorem txDrain_of_empty {s : State} (he : s.se.txq.isEmpty s.params.variant = true) :
    txDrain s = .next (s.withSe { s.se with txIe := false, transmitting := false }) := by
  rw [txDrain, if_neg (by simp [he])]

/-- The pop leaves `tx_ready` as it was, so the popped byte meets no byte in flight (rule R37). -/
theorem txDrain_of_pop {s : State} {q : RingBuf} {v : Byte} (he : s.se.txq.isEmpty s.params.variant = false)
    (hq : s.se.txq.pop s.params .txq = .next (q, v)) (hr : s.se.txReady = true) :
    txDrain s = .next (s.withSe { s.se with txq := q, txBuf := v, txReady := false }) := by
  have hw : (s.withTxq q).se.txWrite v = .next { s.se with txq := q, txBuf := v, txReady := false } :=
    SerialEngine.txWrite_eq_next.mpr ⟨hr, rfl⟩
  rw [txDrain, if_pos (by simp [he]), hq, andThen_next, hw, andThen_next]

theorem rxEnqueue_of_push {s : State} {q : RingBuf} (hq : s.se.rxq.push s.params .rxq s.se.rxBuf = .next (q, true)) :
    rxEnqueue s = .next (s.withSe { s.se with rxFull := false, rxq := q }) := by
  simp only [rxEnqueue, SerialEngine.rxRead, hq, andThen_next, if_true]

theorem rxEnqueue_of_drop {s : State} {q : RingBuf} (hq : s.se.rxq.push s.params .rxq s.se.rxBuf = .next (q, false)) :
    rxEnqueue s = .next (s.withSe { s.se with rxFull := false, rxDrop := satAdd1 s.se.rxDrop }) := by
  simp only [rxEnqueue, SerialEngine.rxRead, hq, andThen_next, Bool.false_eq_true, if_false]

/-! ### LINE.TXDONE -/

section
variable {s : State} (hs : s.Presented .seLine)
include hs

theorem exec_lineTxdone_of_in_flight (hr : s.se.txReady = false) :
    exec .lineTxdone s = .next (s.withSe { s.se with txLine := s.se.txLine ++ [s.se.txBuf], txReady := true }) := by
  rw [exec, execLineTxdone, hs.whenAdmitted_eq (List.mem_singleton_self _) rfl, SerialEngine.txdoneEnabled, hr,
    Bool.not_false, Bool.not_true, refuseIf_false]

theorem exec_lineTxdone_of_ready (hr : s.se.txReady = true) : exec .lineTxdone s = .refused .notEnabled := by
  rw [exec, execLineTxdone, hs.whenAdmitted_eq (List.mem_singleton_self _) rfl, SerialEngine.txdoneEnabled, hr,
    Bool.not_true, Bool.not_false, refuseIf_true]

end

end Sys2Proof.Machine

namespace Sys2Proof.Proofs

open Sys2Proof Sys2Proof.Machine

/-- Settles O37: not enabled, Idle on an empty `txq`, and the feed path; only the last depends on the variant, by
`count`. -/
theorem transmitHandlerRule : Obligations.TransmitHandlerRule := by
  unfold Obligations.TransmitHandlerRule
  refine fun s hs => ⟨fun hn => ?_, fun h1 hie hr => ?_⟩
  · exact exec_seTxisr_of_not_enabled hs (mt SerialEngine.txisrEnabled_iff.mp hn)
  · rw [exec_seTxisr_of_enabled hs (SerialEngine.txisrEnabled_iff.mpr ⟨h1, hie, hr⟩)]
    refine ⟨txDrain_of_empty, fun v he hb hq hv => ?_⟩
    rw [txDrain_of_pop he (RingBuf.pop_of_written hb he hq hv) hr]
    cases s.params.variant <;> rfl

/-- Settles O38: not enabled, the counted drop on a full `rxq`, and the push; only the last depends on the variant, by
`count`. -/
theorem receiveHandlerRule : Obligations.ReceiveHandlerRule := by
  unfold Obligations.ReceiveHandlerRule
  refine fun s hs => ⟨fun hn => ?_, fun h1 hie hrx hb => ?_⟩
  · exact exec_seRxisr_of_not_enabled hs (mt SerialEngine.rxisrEnabled_iff.mp hn)
  · rw [exec_seRxisr_of_enabled hs (SerialEngine.rxisrEnabled_iff.mpr ⟨h1, hie, hrx⟩)]
    refine ⟨fun hf => ⟨_, satAdd1_toNat s.se.rxDrop, ?_⟩, fun hf hq => ?_⟩
    · exact rxEnqueue_of_drop (RingBuf.push_of_full hb hf _)
    · rw [rxEnqueue_of_push (RingBuf.push_of_room hb hf hq _)]
      cases s.params.variant <;> rfl

/-- Settles O39: `tx_ready` alone decides between the event and its refusal. -/
theorem lineTxdoneRule : Obligations.LineTxdoneRule := by
  unfold Obligations.LineTxdoneRule
  exact fun s hs => ⟨exec_lineTxdone_of_in_flight hs, exec_lineTxdone_of_ready hs⟩

end Sys2Proof.Proofs
end

section
/-! SUPPORT. Proofs about reset (rule R260) and about which command is refused, and as what (rules R101, R224, R238,
R286). -/

namespace Sys2Proof.Machine

open Sys2Proof.Config

/-! ### Reset -/

theorem reset_buf (id : BufId) : State.reset.buf id = resetRingBuf := by cases id <;> rfl

/-- With no input nothing executes (rule R260). -/
theorem step_of_no_inputs {s : State} (h : s.inputs = []) : step s = .next s := by
  rw [step, h]

/-! ### Why a port turns a command away -/

section
variable {i : Instr} {s : State} {r : Refusal}

/-- Every operation looks at the port's refusal first (rule R224). -/
theorem exec_of_admissionRefusal (h : admissionRefusal i s = some r) : exec i s = .refused r := by
  have hk (k : Result State) : whenAdmitted i s k = .refused r := by rw [whenAdmitted, h]
  cases i <;> exact hk _

theorem admissionRefusal_of_not_accepted (hp : s.issue.port ∉ portsOf i) :
    admissionRefusal i s = some .wrongPort := by
  rw [admissionRefusal, if_pos (by simpa using hp)]

section
variable (hp : s.issue.port ∈ portsOf i)
include hp

/-- The class of the operation says whose port it is: the RB unit's or the SE unit's (rules R101, R102). -/
theorem isRbPort_iff_opClass : isRbPort s.issue.port = true ↔ opClass i.opcode = 0x0 := by
  generalize s.issue.port = p at hp
  cases i <;> simp only [portsOf, List.mem_cons, List.not_mem_nil, or_false] at hp
  case rbInit | rbEmpty | rbFull | rbOcc => obtain rfl | rfl := hp <;> simp [isRbPort, Instr.opcode, opClass]
  all_goals subst hp; simp [isRbPort, Instr.opcode, opClass]

theorem admissionRefusal_of_not_owner (ho : s.issue.agent ≠ portOwner s.params s.issue.port) :
    admissionRefusal i s = some (if opClass i.opcode = 0x0 then .role else .wrongPort) := by
  rw [admissionRefusal, if_neg (by simpa using hp), if_pos ho]
  simp only [isRbPort_iff_opClass hp]

/-- The port's owner is turned away for a command or an operation in progress only. -/
theorem admissionRefusal_of_owner (ho : s.issue.agent = portOwner s.params s.issue.port) :
    admissionRefusal i s = some r ↔
      r = .role ∧ (s.issue.agent = .fg ∧ s.fg ≠ none ∨ initDuringOperation i s = true) := by
  rw [admissionRefusal, if_neg (by simpa using hp), if_neg (not_not_intro ho)]
  simp only [Option.isSome_iff_ne_none]
  split
  · simp_all [@eq_comm _ r]
  · split <;> simp_all [@eq_comm _ r]

end

theorem initDuringOperation_iff :
    initDuringOperation i s = true ↔ (∃ c, i = .rbInit c) ∧ s.inProgressOn .rb = true := by
  cases i <;> simp [initDuringOperation]

end

/-! ### What the shared operations refuse -/

section
variable {P : Params} {id : BufId} {q : RingBuf} {b : Byte} {r : Refusal}

theorem requireBound_eq_refused {α : Type} {k : Result α} :
    requireBound q k = .refused r ↔ r = .unbound ∧ q.bound = false ∨ q.bound = true ∧ k = .refused r := by
  simp [requireBound, refuseIf_eq_refused, and_comm, @eq_comm _ r]

theorem memRead_ne_refused (i : Idx) : memRead P id q i ≠ .refused r := by
  unfold memRead
  split <;> nofun

theorem memWrite_ne_refused (i : Idx) : memWrite P id q i b ≠ .refused r := by
  unfold memWrite
  split <;> nofun

/-- An unbound buffer is all that `Push` refuses; a full one is an answer (rule R144). -/
theorem RingBuf.push_eq_refused : q.push P id b = .refused r ↔ r = .unbound ∧ q.bound = false := by
  rw [RingBuf.push, requireBound_eq_refused, or_iff_left]
  split <;> simp [andThen_eq_refused, memWrite_ne_refused]

/-- An unbound buffer is all that `Pop` refuses; an empty one is an answer (rule R148). -/
theorem RingBuf.pop_eq_refused : q.pop P id = .refused r ↔ r = .unbound ∧ q.bound = false := by
  rw [RingBuf.pop, requireBound_eq_refused, or_iff_left]
  split <;> simp [andThen_eq_refused, memRead_ne_refused]

theorem RingBuf.peek_eq_refused : q.peek P id = .refused r ↔ r = .unbound ∧ q.bound = false := by
  rw [RingBuf.peek, requireBound_eq_refused, or_iff_left]
  split <;> simp [memRead_ne_refused]

theorem SerialEngine.txWrite_ne_refused (e : SerialEngine) : e.txWrite b ≠ .refused r := by
  unfold SerialEngine.txWrite
  split <;> nofun

end

/-! ### What the operations refuse where the port admits them -/

section
variable {i : Instr} {s : State} {r : Refusal}

theorem txDrain_ne_refused (hb : s.se.txq.bound = true) : txDrain s ≠ .refused r := by
  unfold txDrain
  split <;> simp [andThen_eq_refused, RingBuf.pop_eq_refused, SerialEngine.txWrite_ne_refused, hb]

theorem rxEnqueue_ne_refused (hb : s.se.rxq.bound = true) : rxEnqueue s ≠ .refused r := by
  simp [rxEnqueue, SerialEngine.rxRead, andThen_eq_refused, RingBuf.push_eq_refused, hb]

/-- A handler that refuses nothing itself is refused where it is not enabled only (rule R228). -/
theorem runHandler_refused {enabled : Bool} {handler : State → Result State}
    (h : runHandler enabled handler s = .refused r) (hk : enabled = true → handler s ≠ .refused r) :
    r = .notEnabled ∧ enabled = false := by
  cases he : enabled with
  | true => exact absurd ((runHandler_of_enabled he handler s).symm.trans h) (hk he)
  | false => exact ⟨by simpa [runHandler, he, eq_comm] using h, rfl⟩

/-- A rule that refuses nothing on an inited engine is refused before SE.INIT only (rule R35). -/
theorem requireInited_refused {k : Result State} (h : requireInited s k = .refused r)
    (hk : s.se.inited = true → k ≠ .refused r) : r = .notInited ∧ s.se.inited = false := by
  cases h1 : s.se.inited with
  | true => exact absurd ((requireInited_of_inited h1 k).symm.trans h) (hk h1)
  | false => exact ⟨by simpa [requireInited_of_uninited h1, eq_comm] using h, rfl⟩

variable (ha : admissionRefusal i s = none) (h : exec i s = .refused r)
include ha h

/-- Rule R131 for the six operations of `exec_of_unbound`: nothing else is refused. -/
theorem exec_ringBuffer_refused {op : MicroOp} (hi : microOpOf i = some op) (hop : microBuf op = .rb) :
    r = .unbound ∧ s.rb.bound = false := by
  cases i <;> cases hi
  case rbEmpty | rbFull | rbOcc =>
    simpa using requireBound_eq_refused.mp ((admit_of_admitted ha _).symm.trans h)
  case rbPeek =>
    rw [exec, execRbPeek, admit_of_admitted ha] at h
    simpa [andThen_eq_refused, RingBuf.peek_eq_refused] using h
  case rbPush b =>
    rw [exec, execRbPush, admit_of_admitted ha] at h
    simpa [andThen_eq_refused, RingBuf.push_eq_refused] using h
  case rbPop =>
    rw [exec, execRbPop, admit_of_admitted ha] at h
    simpa [andThen_eq_refused, RingBuf.pop_eq_refused] using h
  case seRecv => cases hop

/-- Rule R35: on an inited engine with the invariant the queues are bound, so these five refuse nothing there. -/
theorem exec_engine_refused (hinv : s.Inv)
    (hi : (∃ b, i = .seSend b) ∨ i = .seRecv ∨ i = .seEi ∨ i = .seDi ∨ i = .seRxempty) :
    r = .notInited ∧ s.se.inited = false := by
  obtain ⟨b, rfl⟩ | rfl | rfl | rfl | rfl := hi
  · refine requireInited_refused ((admit_of_admitted ha _).symm.trans h) fun h1 => ?_
    obtain ⟨-, htx, -⟩ := hinv.engine.after h1
    split
    · simp [andThen_eq_refused, SerialEngine.txWrite_ne_refused]
    · split <;> simp [andThen_eq_refused, RingBuf.push_eq_refused, htx]
  · refine requireInited_refused ((admit_of_admitted ha _).symm.trans h) fun h1 => ?_
    obtain ⟨-, -, hrx, -⟩ := hinv.engine.after h1
    simp [andThen_eq_refused, RingBuf.pop_eq_refused, hrx]
  all_goals exact requireInited_refused ((admit_of_admitted ha _).symm.trans h) fun _ => nofun

end

section
variable {s : State} {r : Refusal}

theorem exec_rbInit_refused {c : Idx} (ha : admissionRefusal (.rbInit c) s = none)
    (h : exec (.rbInit c) s = .refused r) : r = .capExceedsSlots ∧ s.params.slots.toNat < c.toNat := by
  rw [exec, execRbInit, admit_of_admitted ha, refuseIf_eq_refused] at h
  simpa [@eq_comm _ r, and_comm] using h

/-- Rule R184: the index, or an engine that is not inited. -/
theorem exec_seCfgrd_refused {d : Byte} (ha : admissionRefusal (.seCfgrd d) s = none)
    (h : exec (.seCfgrd d) s = .refused r) :
    r = .cfgIndex ∧ 7 < d.toNat ∨ r = .notInited ∧ s.se.inited = false := by
  rw [exec, execSeCfgrd, admit_of_admitted ha, refuseIf_eq_refused] at h
  obtain ⟨hd, hr⟩ | ⟨-, h⟩ := h
  · exact .inl ⟨hr.symm, of_decide_eq_true hd⟩
  · exact .inr (requireInited_refused h fun _ => nofun)

theorem exec_seTxisr_refused (hinv : s.Inv) (ha : admissionRefusal .seTxisr s = none)
    (h : exec .seTxisr s = .refused r) : r = .notEnabled ∧ s.se.txisrEnabled = false := by
  refine runHandler_refused ((admit_of_admitted ha _).symm.trans h) fun he => ?_
  obtain ⟨h1, -⟩ := SerialEngine.txisrEnabled_iff.mp he
  obtain ⟨-, htx, -⟩ := hinv.engine.after h1
  exact txDrain_ne_refused htx

theorem exec_seRxisr_refused (hinv : s.Inv) (ha : admissionRefusal .seRxisr s = none)
    (h : exec .seRxisr s = .refused r) : r = .notEnabled ∧ s.se.rxisrEnabled = false := by
  refine runHandler_refused ((admit_of_admitted ha _).symm.trans h) fun he => ?_
  obtain ⟨h1, -⟩ := SerialEngine.rxisrEnabled_iff.mp he
  obtain ⟨-, -, hrx, -⟩ := hinv.engine.after h1
  exact rxEnqueue_ne_refused hrx

theorem exec_lineTxdone_refused (ha : admissionRefusal .lineTxdone s = none)
    (h : exec .lineTxdone s = .refused r) : r = .notEnabled ∧ s.se.txReady = true := by
  rw [exec, execLineTxdone, admit_of_admitted ha, refuseIf_eq_refused] at h
  simpa [SerialEngine.txdoneEnabled, @eq_comm _ r, and_comm] using h

end

end Sys2Proof.Machine

namespace Sys2Proof.Proofs

open Sys2Proof Sys2Proof.Machine

/-- Settles O6: the reset values as they stand, the three buffers alike. -/
theorem resetLeavesIdle : Obligations.ResetLeavesIdle := by
  unfold Obligations.ResetLeavesIdle
  refine ⟨⟨rfl, rfl, rfl, rfl, rfl, rfl, rfl, rfl, rfl⟩, fun id => ?_, rfl, rfl, rfl, reset_status,
    step_of_no_inputs rfl⟩
  rw [reset_buf]
  exact ⟨rfl, rfl, rfl, rfl, rfl⟩

/-- Settles O51: the port's refusal is the operation's, and its four tests are met in order; the last two answer
alike. -/
theorem portsAndRolesAreChecked : Obligations.PortsAndRolesAreChecked := by
  unfold Obligations.PortsAndRolesAreChecked
  refine fun i s => ⟨fun hp => ?_, fun hp ho hc => ?_, fun hp ho hc => ?_, fun hp ho hfg hbusy => ?_,
    fun c hi hp ho hbusy => ?_⟩ <;> apply exec_of_admissionRefusal
  · exact admissionRefusal_of_not_accepted hp
  · rw [admissionRefusal_of_not_owner hp ho, if_neg hc]
  · rw [admissionRefusal_of_not_owner hp ho, if_pos hc]
  · exact (admissionRefusal_of_owner hp ho).mpr ⟨rfl, .inl ⟨hfg, hbusy⟩⟩
  · exact (admissionRefusal_of_owner hp ho).mpr ⟨rfl, .inr (initDuringOperation_iff.mpr ⟨⟨c, hi⟩, hbusy⟩)⟩

/-- Settles O52: the port's refusal of its owner is `ROLE`; where the port admits the command, each operation refuses
for its own reasons, and the four that have none always complete. -/
theorem refusalsAreTheTables : Obligations.RefusalsAreTheTables := by
  unfold Obligations.RefusalsAreTheTables
  intro i s r hinv hp ho h
  cases ha : admissionRefusal i s with
  | some r' =>
    obtain ⟨rfl, hbusy⟩ := (admissionRefusal_of_owner hp ho).mp ha
    obtain rfl : .role = r := by simpa [exec_of_admissionRefusal ha] using h
    rw [initDuringOperation_iff] at hbusy
    exact .inl ⟨rfl, hbusy⟩
  | none =>
    right
    cases i
    case rbInit c =>
      obtain ⟨hr, hc⟩ := exec_rbInit_refused ha h
      exact .inr (.inl ⟨hr, c, rfl, hc⟩)
    case rbEmpty | rbFull | rbPeek | rbPush | rbPop | rbOcc =>
      obtain ⟨hr, hb⟩ := exec_ringBuffer_refused ha h rfl rfl
      exact .inl ⟨hr, by simp [Instr.opcode, opClass], nofun, hb⟩
    case seSend | seRecv | seEi | seDi | seRxempty =>
      obtain ⟨hr, h0⟩ := exec_engine_refused ha h hinv (by simp)
      exact .inr (.inr (.inl ⟨hr, h0, by simp⟩))
    case seCfgrd d =>
      obtain ⟨hr, hd⟩ | ⟨hr, h0⟩ := exec_seCfgrd_refused ha h
      · exact .inr (.inr (.inr (.inl ⟨hr, d, rfl, hd⟩)))
      · exact .inr (.inr (.inl ⟨hr, h0, by simp⟩))
    case seTxisr =>
      obtain ⟨hr, hn⟩ := exec_seTxisr_refused hinv ha h
      exact .inr (.inr (.inr (.inr ⟨hr, .inl ⟨rfl, hn⟩⟩)))
    case seRxisr =>
      obtain ⟨hr, hn⟩ := exec_seRxisr_refused hinv ha h
      exact .inr (.inr (.inr (.inr ⟨hr, .inr (.inl ⟨rfl, hn⟩)⟩)))
    case lineTxdone =>
      obtain ⟨hr, hn⟩ := exec_lineTxdone_refused ha h
      exact .inr (.inr (.inr (.inr ⟨hr, .inr (.inr ⟨rfl, hn⟩)⟩)))
    case seInit | seStatus | seRxdrop | lineRxbyte =>
      exact nomatch (admit_of_admitted ha _).symm.trans h

end Sys2Proof.Proofs
end

section
/-! SUPPORT. Proofs that decoding and encoding are inverse to each other (rules R102 to R106, R110). -/

namespace Sys2Proof

open Sys2Proof.Machine

/-! ### Operands -/

theorem lowByte_imm16 (lo hi : Byte) : lowByte (imm16 lo hi) = lo :=
  BitVec.extractLsb'_append_eq_right

theorem highByte_imm16 (lo hi : Byte) : highByte (imm16 lo hi) = hi :=
  BitVec.extractLsb'_append_eq_left

section
variable {operands rest : List Byte} {i : Instr}

theorem takeF0_eq_ok {j : Instr} : takeF0 j operands = .ok (i, rest) ↔ i = j ∧ operands = rest := by
  simp [takeF0, @eq_comm _ i]

theorem takeF1_eq_ok {mk : Byte → Instr} :
    takeF1 mk operands = .ok (i, rest) ↔ ∃ d, i = mk d ∧ operands = d :: rest := by
  unfold takeF1
  split <;> simp [@eq_comm _ i]

theorem takeF2_eq_ok {mk : Idx → Instr} :
    takeF2 mk operands = .ok (i, rest) ↔ ∃ lo hi, i = mk (imm16 lo hi) ∧ operands = lo :: hi :: rest := by
  unfold takeF2
  split
  · simp [@eq_comm _ i]
  · rename_i hshort
    simpa using fun lo hi _ h => hshort lo hi rest h

theorem takeF8_eq_ok {mk : Byte → Byte → Byte → Byte → Byte → Byte → Byte → Byte → Instr} :
    takeF8 mk operands = .ok (i, rest) ↔ ∃ p0 p1 p2 p3 p4 p5 p6 p7,
      i = mk p0 p1 p2 p3 p4 p5 p6 p7 ∧ operands = p0 :: p1 :: p2 :: p3 :: p4 :: p5 :: p6 :: p7 :: rest := by
  unfold takeF8
  split
  · simp [@eq_comm _ i]
  · rename_i hshort
    simpa using fun p0 p1 p2 p3 p4 p5 p6 p7 _ h => hshort p0 p1 p2 p3 p4 p5 p6 p7 rest h

end

/-! ### The opcode -/

/-- The class and func fields are all of the opcode byte (rule R102). -/
theorem opcode_of_fields {op : Byte} {c n : Nat} (hc : opClass op = c) (hn : opFunc op = n) :
    op = BitVec.ofNat 8 (16 * c + n) := by
  have := op.isLt
  subst hc hn
  apply BitVec.eq_of_toNat_eq
  simp only [opClass, opFunc, BitVec.extractLsb'_toNat, Nat.shiftRight_eq_div_pow, BitVec.toNat_ofNat]
  omega

/-- Decoding an encoded operation takes its own operand bytes and no more. -/
theorem decode_encode_append (i : Instr) (rest : List Byte) : decode (encode i ++ rest) = .ok (i, rest) := by
  cases i <;> simp only [encode, Instr.opcode, Instr.operandBytes, List.cons_append, List.nil_append]
  case rbInit cap =>
    have hop (operands : List Byte) : decode (0x00#8 :: operands) = takeF2 .rbInit operands := rfl
    rw [hop, takeF2, imm16_bytes]
  all_goals rfl

theorem decode_encode (i : Instr) : decode (encode i) = .ok (i, []) := by
  simpa using decode_encode_append i []

/-- What decodes to an operation is its opcode followed by its operand bytes, by the row of the opcode map. -/
theorem eq_encode_append_of_decode {bytes rest : List Byte} {i : Instr} (h : decode bytes = .ok (i, rest)) :
    bytes = encode i ++ rest := by
  unfold decode at h
  split at h
  · cases h
  · split at h
    case h_21 => cases h
    all_goals
      rename_i hc hn
      obtain rfl := opcode_of_fields hc hn
      simp only [takeF0_eq_ok, takeF1_eq_ok, takeF2_eq_ok, takeF8_eq_ok] at h
    case h_1 =>
      obtain ⟨lo, hi, rfl, rfl⟩ := h
      simp [encode, Instr.opcode, Instr.operandBytes, lowByte_imm16, highByte_imm16]
    case h_8 =>
      obtain ⟨p0, p1, p2, p3, p4, p5, p6, p7, rfl, rfl⟩ := h
      rfl
    case h_5 | h_9 | h_16 | h_20 =>
      obtain ⟨d, rfl, rfl⟩ := h
      rfl
    all_goals
      obtain ⟨rfl, rfl⟩ := h
      rfl

end Sys2Proof

namespace Sys2Proof.Proofs

open Sys2Proof Sys2Proof.Machine

/-- Settles O3: each opcode selects its row of the map, and its format takes back the operand bytes. -/
theorem decodeInvertsEncode : Obligations.DecodeInvertsEncode := by
  unfold Obligations.DecodeInvertsEncode
  exact decode_encode_append

/-- Settles O4: the opcode's two fields give its byte back, and each format its operand bytes. -/
theorem encodeInvertsDecode : Obligations.EncodeInvertsDecode := by
  unfold Obligations.EncodeInvertsDecode
  exact fun bytes rest i => eq_encode_append_of_decode

/-- Settles O2: every word is the encoding of its operation. -/
theorem wordsOfTheOpcodeMapDecode : Obligations.WordsOfTheOpcodeMapDecode := by
  unfold Obligations.WordsOfTheOpcodeMapDecode
  exact ⟨decode_encode (.rbInit 258), decode_encode .rbEmpty, decode_encode (.rbPush 0x41),
    decode_encode (.seInit 1 2 3 4 5 6 7 8), decode_encode (.seSend 0x41), decode_encode (.seCfgrd 6),
    decode_encode .seTxisr, decode_encode (.lineRxbyte 0x10)⟩

end Sys2Proof.Proofs
end

section
/-! SUPPORT. Proofs about what a ring buffer holds: occupancy, full and empty in both variants (rules R24, R25), and the
list of bytes in a buffer with what each part of a push and of a pop does to it (rules R27, R29, R144 to R150). -/

namespace Sys2Proof.Machine

open Sys2Proof.Config

/-! ### Positions in the ring -/

/-- Up to one turn around a ring of `c` slots, by comparison. -/
theorem add_mod_of_le_turn {a k c : Nat} (ha : a < c) (hk : k ≤ c) :
    (a + k) % c = if a + k < c then a + k else a + k - c := by
  split
  · exact Nat.mod_eq_of_lt ‹_›
  · rw [Nat.mod_eq_sub_mod (by omega), Nat.mod_eq_of_lt (by omega)]

/-- Fewer than `c` places apart, two positions of a ring of `c` slots differ. -/
theorem add_mod_ne_of_lt {a k n c : Nat} (ha : a < c) (hk : k < n) (hn : n < c) : (a + k) % c ≠ (a + n) % c := by
  rw [add_mod_of_le_turn ha (by omega), add_mod_of_le_turn ha (by omega)]
  split <;> split <;> omega

theorem idx_eq_zero_iff (v : Idx) : v = 0 ↔ v.toNat = 0 := by
  simp [← BitVec.toNat_inj]

theorem toNat_add_one {v : Idx} {n : Nat} (h : v.toNat + 1 ≤ n) (hn : n < 2 ^ 16) : (v + 1).toNat = v.toNat + 1 := by
  rw [BitVec.toNat_add, show (1 : Idx).toNat = 1 from rfl, Nat.mod_eq_of_lt (by omega)]

theorem toNat_sub_one {v : Idx} (h : 1 ≤ v.toNat) : (v - 1).toNat = v.toNat - 1 := by
  have hle : (1 : Idx) ≤ v := h
  rw [BitVec.toNat_sub_of_le hle]
  rfl

/-! ### Occupancy, empty and full -/

section
variable {P : Params} {id : BufId} {q : RingBuf}

theorem RingBuf.occ_explicit (q : RingBuf) : q.occ .explicit = q.count.toNat := rfl

theorem RingBuf.usable_explicit (q : RingBuf) : q.usable .explicit = q.cap.toNat := rfl

theorem RingBuf.usable_derived (q : RingBuf) : q.usable .derived = q.cap.toNat - 1 := rfl

theorem RingBuf.isEmpty_explicit_iff : q.isEmpty .explicit = true ↔ q.count.toNat = 0 := by
  simp only [RingBuf.isEmpty, beq_iff_eq, idx_eq_zero_iff]

theorem RingBuf.isFull_explicit_iff : q.isFull .explicit = true ↔ q.count.toNat = q.cap.toNat := by
  simp only [RingBuf.isFull, beq_iff_eq, BitVec.toNat_inj]

theorem RingBuf.isEmpty_derived_iff : q.isEmpty .derived = true ↔ q.head.toNat = q.tail.toNat := by
  simp only [RingBuf.isEmpty, beq_iff_eq, BitVec.toNat_inj]

theorem RingBuf.isFull_derived_iff : q.isFull .derived = true ↔
    (if q.head.toNat + 1 ≥ q.cap.toNat then 0 else q.head.toNat + 1) = q.tail.toNat := by
  simp only [RingBuf.isFull, beq_iff_eq, ← BitVec.toNat_inj, nextIdx_toNat]

/-- In the DERIVED variant the occupancy is the number of places from `tail` to `head`. -/
theorem RingBuf.occ_derived (hc : 0 < q.cap.toNat) : q.occ .derived =
    if q.tail.toNat ≤ q.head.toNat then q.head.toNat - q.tail.toNat
    else q.head.toNat + q.cap.toNat - q.tail.toNat := by
  have hz : q.cap ≠ 0 := by
    rw [ne_eq, idx_eq_zero_iff]
    omega
  simp only [RingBuf.occ, if_neg hz, ge_iff_le]

theorem RingBuf.occ_derived_of_cap_zero (hc : q.cap = 0) : q.occ .derived = 0 := by
  simp only [RingBuf.occ, if_pos hc]

/-- The occupancy is the only number of places short of a turn that leads from `tail` to `head`. -/
theorem RingBuf.occ_derived_eq {n : Nat} (ht : q.tail.toNat < q.cap.toNat) (hn : n < q.cap.toNat)
    (hh : q.head.toNat = (q.tail.toNat + n) % q.cap.toNat) : q.occ .derived = n := by
  rw [add_mod_of_le_turn ht (by omega)] at hh
  rw [RingBuf.occ_derived (by omega)]
  split at hh <;> split <;> omega

theorem RingBuf.Sound.occ_le_usable (h : q.Sound P id) : q.occ P.variant ≤ q.usable P.variant := by
  cases hv : P.variant with
  | explicit => exact h.counted hv
  | derived =>
    obtain hc | hc := Nat.eq_zero_or_pos q.cap.toNat
    · rw [RingBuf.occ_derived_of_cap_zero ((idx_eq_zero_iff _).mpr hc)]
      exact Nat.zero_le _
    · obtain ⟨hh, ht⟩ := h.indices hc
      rw [RingBuf.occ_derived hc, RingBuf.usable_derived]
      split <;> omega

theorem RingBuf.Sound.isEmpty_iff (h : q.Sound P id) : q.isEmpty P.variant = true ↔ q.occ P.variant = 0 := by
  cases P.variant with
  | explicit => exact RingBuf.isEmpty_explicit_iff
  | derived =>
    rw [RingBuf.isEmpty_derived_iff]
    obtain hc | hc := Nat.eq_zero_or_pos q.cap.toNat
    · have hz := (idx_eq_zero_iff _).mpr hc
      obtain ⟨hh, ht⟩ := h.degenerate hz
      simp [RingBuf.occ_derived_of_cap_zero hz, hh, ht]
    · obtain ⟨hh, ht⟩ := h.indices hc
      rw [RingBuf.occ_derived hc]
      split <;> omega

theorem RingBuf.Sound.isFull_iff (h : q.Sound P id) :
    q.isFull P.variant = true ↔ q.occ P.variant = q.usable P.variant := by
  cases P.variant with
  | explicit => exact RingBuf.isFull_explicit_iff
  | derived =>
    rw [RingBuf.isFull_derived_iff, RingBuf.usable_derived]
    obtain hc | hc := Nat.eq_zero_or_pos q.cap.toNat
    · have hz := (idx_eq_zero_iff _).mpr hc
      obtain ⟨hh, ht⟩ := h.degenerate hz
      simp [RingBuf.occ_derived_of_cap_zero hz, hh, ht, hc]
    · obtain ⟨hh, ht⟩ := h.indices hc
      rw [RingBuf.occ_derived hc]
      split <;> split <;> omega

theorem RingBuf.Sound.isFull_eq_false_iff (h : q.Sound P id) :
    q.isFull P.variant = false ↔ q.occ P.variant < q.usable P.variant := by
  have := h.occ_le_usable
  rw [← Bool.not_eq_true, h.isFull_iff]
  omega

theorem RingBuf.Sound.isEmpty_eq_false_iff (h : q.Sound P id) :
    q.isEmpty P.variant = false ↔ 0 < q.occ P.variant := by
  rw [← Bool.not_eq_true, h.isEmpty_iff, Nat.pos_iff_ne_zero]

theorem RingBuf.Sound.occ_derived_mod (h : q.Sound P id) (hc : 0 < q.cap.toNat) :
    q.occ .derived = (q.head.toNat + q.cap.toNat - q.tail.toNat) % q.cap.toNat := by
  obtain ⟨hh, ht⟩ := h.indices hc
  rw [RingBuf.occ_derived hc]
  split
  · rw [show q.head.toNat + q.cap.toNat - q.tail.toNat = q.head.toNat - q.tail.toNat + q.cap.toNat by omega,
      Nat.add_mod_right, Nat.mod_eq_of_lt (by omega)]
  · rw [Nat.mod_eq_of_lt (by omega)]

end

end Sys2Proof.Machine

namespace Sys2Proof.Proofs

open Sys2Proof Sys2Proof.Machine

/-- Settles O11: the bound and the two tests by the variant's own comparison of the registers. -/
theorem fullAndEmptyFollowOccupancy : Obligations.FullAndEmptyFollowOccupancy := by
  unfold Obligations.FullAndEmptyFollowOccupancy
  refine fun P id q h => ⟨h.occ_le_usable, h.isEmpty_iff, h.isFull_iff, fun hv => ?_, fun hv => ?_⟩ <;> rw [hv]
  · exact ⟨rfl, rfl⟩
  · exact ⟨rfl, h.occ_derived_mod⟩

end Sys2Proof.Proofs
end

section
/-! SUPPORT. The list of bytes in a ring buffer, and what each part of a push and of a pop does to it (rules R27, R29,
R144 to R150). -/

namespace Sys2Proof.Machine

open Sys2Proof.Config

/-- How far `count` may lag behind the indices: one byte between P3 and P4 or C3 and C4, in the EXPLICIT variant
(rules R146, R150). -/
def countLag : RbVariant → Nat
  | .explicit => 1
  | .derived => 0

/-- The buffer after P2: the byte is in the slot at `head`. -/
def RingBuf.store (b : Byte) (q : RingBuf) : RingBuf := { q with slots := Memory.write q.slots q.head.toNat b }

/-- The bytes from `tail` on, `w` of them not yet counted and `r` of those counted already passed by `tail`. -/
def RingBuf.live (P : Params) (id : BufId) (w r : Nat) (q : RingBuf) : List Byte :=
  (List.range (q.occ P.variant + w - r)).map fun k => slotByte id q.slots (q.slotAt k)

/-- The buffer is sound and its written slots from `tail` up to `head` hold the list `xs`, with `w` bytes not yet counted
and `r` counted still. -/
structure RingBuf.Holds (P : Params) (id : BufId) (w r : Nat) (xs : List Byte) (q : RingBuf) : Prop where
  sound  : q.Sound P id
  noLag  : P.variant = .derived → w = 0 ∧ r = 0
  room   : P.variant = .explicit → q.count.toNat + w ≤ q.cap.toNat ∧ r ≤ q.count.toNat
  length : xs.length + r = q.occ P.variant + w
  head   : 0 < q.cap.toNat → q.head.toNat = (q.tail.toNat + xs.length) % q.cap.toNat
  bytes  : ∀ k < xs.length, Memory.read? q.slots (q.slotAt k) = xs[k]?

@[simp] theorem RingBuf.store_slots (b : Byte) (q : RingBuf) :
    (q.store b).slots = Memory.write q.slots q.head.toNat b := rfl
@[simp] theorem RingBuf.store_cap (b : Byte) (q : RingBuf) : (q.store b).cap = q.cap := rfl
@[simp] theorem RingBuf.store_head (b : Byte) (q : RingBuf) : (q.store b).head = q.head := rfl
@[simp] theorem RingBuf.store_tail (b : Byte) (q : RingBuf) : (q.store b).tail = q.tail := rfl
@[simp] theorem RingBuf.store_count (b : Byte) (q : RingBuf) : (q.store b).count = q.count := rfl
@[simp] theorem RingBuf.store_bound (b : Byte) (q : RingBuf) : (q.store b).bound = q.bound := rfl

theorem RingBuf.live_zero (P : Params) (id : BufId) (q : RingBuf) : q.live P id 0 0 = q.contents P id := rfl

section
variable {P : Params} {id : BufId} {w r : Nat} {xs : List Byte} {q : RingBuf}

/-! ### The list and the invariant's links -/

theorem RingBuf.Holds.linked (h : q.Holds P id w r xs) : q.Linked P w r where
  room := h.room
  head hv hc := by
    have hl := h.length
    rw [hv, RingBuf.occ_explicit] at hl
    rw [h.head hc, show q.count.toNat + w - r = xs.length by omega]
  written k hk := by
    have hl := h.length
    rw [h.bytes k (by omega), List.getElem?_eq_getElem (by omega)]
    nofun

theorem RingBuf.Holds.live_eq (h : q.Holds P id w r xs) : q.live P id w r = xs := by
  have hl : q.occ P.variant + w - r = xs.length := by
    have := h.length
    omega
  refine List.ext_getElem? fun k => ?_
  rw [RingBuf.live, hl, List.getElem?_map]
  by_cases hk : k < xs.length
  · have hx : xs[k]? = some xs[k] := List.getElem?_eq_getElem hk
    rw [List.getElem?_range hk, hx, Option.map_some, slotByte_of_read ((h.bytes k hk).trans hx)]
  · rw [List.getElem?_eq_none (by simpa using hk), List.getElem?_eq_none (by omega), Option.map_none]

/-- The invariant's links say that the buffer holds the list of its written slots. -/
theorem RingBuf.Linked.holds (h : q.Linked P w r) (hq : q.Sound P id)
    (hd : P.variant = .derived → w = 0 ∧ r = 0) : q.Holds P id w r (q.live P id w r) where
  sound := hq
  noLag := hd
  room := h.room
  length := by
    rw [RingBuf.live, List.length_map, List.length_range]
    cases hv : P.variant with
    | explicit =>
      obtain ⟨-, hr⟩ := h.room hv
      rw [RingBuf.occ_explicit]
      omega
    | derived =>
      obtain ⟨rfl, rfl⟩ := hd hv
      omega
  head hc := by
    rw [RingBuf.live, List.length_map, List.length_range]
    cases hv : P.variant with
    | explicit => exact h.head hv hc
    | derived =>
      obtain ⟨rfl, rfl⟩ := hd hv
      obtain ⟨hh, ht⟩ := hq.indices hc
      rw [Nat.add_zero, Nat.sub_zero, RingBuf.occ_derived hc]
      split <;> rw [add_mod_of_le_turn ht (by omega)] <;> split <;> omega
  bytes k hk := by
    rw [RingBuf.live, List.length_map, List.length_range] at hk
    obtain ⟨v, hv⟩ := Option.ne_none_iff_exists'.mp (h.written k hk)
    rw [RingBuf.live, List.getElem?_map, List.getElem?_range hk, Option.map_some, slotByte_of_read hv, hv]

theorem RingBuf.Holds.contents_eq (h : q.Holds P id 0 0 xs) : q.contents P id = xs := h.live_eq

/-! ### Bounds -/

/-- Below the usable capacity the list is shorter than the ring. -/
theorem RingBuf.Holds.length_lt (h : q.Holds P id 0 r xs) (hf : q.isFull P.variant = false) :
    xs.length < q.cap.toNat := by
  have hl := h.length
  have ho := h.sound.isFull_eq_false_iff.mp hf
  cases hv : P.variant with
  | explicit =>
    rw [hv, RingBuf.occ_explicit] at hl
    rw [hv, RingBuf.occ_explicit, RingBuf.usable_explicit] at ho
    omega
  | derived =>
    rw [hv] at hl
    rw [hv, RingBuf.usable_derived] at ho
    omega

theorem RingBuf.Holds.length_le (h : q.Holds P id w r xs) : xs.length ≤ q.cap.toNat := by
  have hl := h.length
  cases hv : P.variant with
  | explicit =>
    obtain ⟨hw, -⟩ := h.room hv
    rw [hv, RingBuf.occ_explicit] at hl
    omega
  | derived =>
    obtain ⟨rfl, rfl⟩ := h.noLag hv
    have ho := h.sound.occ_le_usable
    rw [hv] at hl
    rw [hv, RingBuf.usable_derived] at ho
    omega

/-- The slot behind the last byte of the list is the one at `head`. -/
theorem RingBuf.Holds.slotAt_length (h : q.Holds P id w r xs) (hc : 0 < q.cap.toNat) :
    q.slotAt xs.length = q.head.toNat := (h.head hc).symm

theorem RingBuf.slotAt_zero (ht : q.tail.toNat < q.cap.toNat) : q.slotAt 0 = q.tail.toNat := by
  rw [RingBuf.slotAt, Nat.add_zero, Nat.mod_eq_of_lt ht]

/-- The oldest byte of the list is in the slot at `tail`. -/
theorem RingBuf.Holds.read_tail {x : Byte} (h : q.Holds P id w r (x :: xs)) :
    Memory.read? q.slots q.tail.toNat = some x := by
  have hlen := h.length_le
  rw [List.length_cons] at hlen
  obtain ⟨-, ht⟩ := h.sound.indices (by omega)
  have h0 := h.bytes 0 (by simp)
  rwa [RingBuf.slotAt_zero ht] at h0

/-! ### Construction -/

/-- A constructed buffer is empty (rule R132). -/
theorem RingBuf.Sound.holds_init (h : q.Sound P id) {c : Idx} (hc : c.toNat ≤ (slotsOf P id).toNat) :
    (q.init P.variant c).Holds P id 0 0 [] where
  sound := {
    canonical := h.canonical
    inside := h.inside
    capFits := hc
    indices := fun hpos => ⟨hpos, hpos⟩
    degenerate := fun _ => ⟨rfl, rfl⟩
    counted := fun hv => by simp [hv]
    uncounted := fun hv => by simp [hv, h.uncounted hv]
    unboundReset := nofun }
  noLag _ := ⟨rfl, rfl⟩
  room hv := by simp [hv]
  length := by cases P.variant <;> simp [RingBuf.occ]
  head _ := by simp
  bytes := nofun

/-- An unbound buffer is empty (rules R20, R170). -/
theorem RingBuf.Sound.holds_unbind (h : q.Sound P id) : q.unbind.Holds P id 0 0 [] where
  sound := {
    canonical := h.canonical
    inside := h.inside
    capFits := Nat.zero_le _
    indices := nofun
    degenerate := fun _ => ⟨rfl, rfl⟩
    counted := fun _ => Nat.zero_le _
    uncounted := fun _ => rfl
    unboundReset := fun _ => ⟨rfl, rfl, rfl, rfl⟩ }
  noLag _ := ⟨rfl, rfl⟩
  room _ := ⟨Nat.zero_le _, Nat.zero_le _⟩
  length := by cases P.variant <;> simp [RingBuf.occ]
  head := nofun
  bytes := nofun

/-! ### The parts of a push -/

theorem RingBuf.isFull_store (v : RbVariant) (b : Byte) (q : RingBuf) : (q.store b).isFull v = q.isFull v := by
  cases v <;> rfl

theorem RingBuf.isEmpty_store (v : RbVariant) (b : Byte) (q : RingBuf) : (q.store b).isEmpty v = q.isEmpty v := by
  cases v <;> rfl

theorem RingBuf.occ_store (v : RbVariant) (b : Byte) (q : RingBuf) : (q.store b).occ v = q.occ v := by
  cases v <;> rfl

theorem RingBuf.Sound.store (h : q.Sound P id) (hh : q.head.toNat < q.cap.toNat) (b : Byte) :
    (q.store b).Sound P id where
  canonical := Memory.write_wf _ _ h.canonical
  inside c hc := by
    obtain rfl | hc := Memory.mem_write hc
    · exact Nat.lt_of_lt_of_le hh h.capFits
    · exact h.inside c hc
  capFits := h.capFits
  indices := h.indices
  degenerate := h.degenerate
  counted := h.counted
  uncounted := h.uncounted
  unboundReset := h.unboundReset

/-- P2 writes behind the list, not into it. -/
theorem RingBuf.Holds.store (h : q.Holds P id 0 r xs) (hf : q.isFull P.variant = false) (b : Byte) :
    (q.store b).Holds P id 0 r xs := by
  have hlen := h.length_lt hf
  obtain ⟨hh, ht⟩ := h.sound.indices (by omega)
  refine ⟨h.sound.store hh b, h.noLag, h.room, ?_, h.head, fun k hk => ?_⟩
  · rw [RingBuf.occ_store]
    exact h.length
  · have hne : (q.store b).slotAt k ≠ q.head.toNat := by
      rw [← h.slotAt_length (by omega)]
      exact add_mod_ne_of_lt ht hk hlen
    rw [RingBuf.store_slots, Memory.read?_write_other _ _ hne]
    exact h.bytes k hk

theorem RingBuf.occ_advanceHead_explicit : q.advanceHead.occ .explicit = q.occ .explicit := rfl

theorem RingBuf.Sound.advanceHead (h : q.Sound P id) (hc : 0 < q.cap.toNat) : q.advanceHead.Sound P id where
  canonical := h.canonical
  inside := h.inside
  capFits := h.capFits
  indices := fun _ => ⟨nextIdx_lt hc, (h.indices hc).2⟩
  degenerate := fun hz => absurd ((idx_eq_zero_iff _).mp hz) (Nat.pos_iff_ne_zero.mp hc)
  counted := h.counted
  uncounted := h.uncounted
  unboundReset := fun hb => absurd ((idx_eq_zero_iff _).mp (h.unboundReset hb).1) (Nat.pos_iff_ne_zero.mp hc)

/-- P3 takes the byte in the slot at `head` into the list, which the EXPLICIT variant has still to count. -/
theorem RingBuf.Holds.advanceHead {b : Byte} (h : q.Holds P id 0 r xs) (hf : q.isFull P.variant = false)
    (hb : Memory.read? q.slots q.head.toNat = some b) :
    q.advanceHead.Holds P id (countLag P.variant) r (xs ++ [b]) := by
  have hlen := h.length_lt hf
  have hc : 0 < q.cap.toNat := by omega
  obtain ⟨hh, ht⟩ := h.sound.indices hc
  have hhead : q.advanceHead.head.toNat = (q.tail.toNat + (xs.length + 1)) % q.cap.toNat := by
    rw [RingBuf.advanceHead_head, nextIdx_mod hh, h.head hc, Nat.mod_add_mod, Nat.add_assoc]
  have hl := h.length
  have ho := h.sound.isFull_eq_false_iff.mp hf
  refine ⟨h.sound.advanceHead hc, fun hv => ?_, fun hv => ?_, ?_, fun _ => ?_, fun k hk => ?_⟩
  · exact ⟨by rw [hv]; rfl, (h.noLag hv).2⟩
  · rw [hv, RingBuf.occ_explicit, RingBuf.usable_explicit] at ho
    obtain ⟨-, hr⟩ := h.room hv
    rw [hv]
    exact ⟨ho, hr⟩
  · rw [List.length_append, List.length_singleton]
    cases hv : P.variant with
    | explicit =>
      rw [hv] at hl
      rw [RingBuf.occ_advanceHead_explicit, countLag]
      omega
    | derived =>
      obtain ⟨-, rfl⟩ := h.noLag hv
      rw [hv] at hl
      rw [hv, RingBuf.usable_derived] at ho
      rw [RingBuf.occ_derived_eq (q := q.advanceHead) ht (by simp only [RingBuf.advanceHead_cap]; omega) hhead, countLag]
  · rw [List.length_append, List.length_singleton]
    exact hhead
  · rw [List.length_append, List.length_singleton] at hk
    obtain hk | rfl := Nat.lt_succ_iff_lt_or_eq.mp hk
    · rw [List.getElem?_append_left hk]
      exact h.bytes k hk
    · rw [List.getElem?_append_right (Nat.le_refl _), Nat.sub_self]
      exact (congrArg (Memory.read? q.slots) (h.slotAt_length hc)).trans hb

/-- P4 counts the byte that P3 took in. -/
theorem RingBuf.Holds.countUp (h : q.Holds P id (countLag P.variant) r xs) :
    (q.countUp P.variant).Holds P id 0 r xs := by
  cases hv : P.variant with
  | derived =>
    rw [hv] at h
    exact h
  | explicit =>
    have hroom := h.room hv
    have hl := h.length
    rw [hv, countLag] at hroom
    rw [hv, countLag, RingBuf.occ_explicit] at hl
    obtain ⟨hw, hr⟩ := hroom
    have hcount : (q.countUp .explicit).count.toNat = q.count.toNat + 1 := toNat_add_one hw q.cap.isLt
    refine ⟨⟨h.sound.canonical, h.sound.inside, h.sound.capFits, h.sound.indices, h.sound.degenerate, fun _ => ?_,
      fun hd => ?_, fun hb => ?_⟩, fun hd => ?_, fun _ => ?_, ?_, h.head, h.bytes⟩
    · rw [hcount]
      exact hw
    · rw [hv] at hd
      cases hd
    · have hz := (h.sound.unboundReset hb).1
      rw [hz] at hw
      exact absurd hw (by simp)
    · rw [hv] at hd
      cases hd
    · rw [hcount]
      exact ⟨hw, by omega⟩
    · rw [hv, RingBuf.occ_explicit, hcount]
      omega

/-- The parts of a push together append its byte (rule R144). -/
theorem RingBuf.Holds.push {b : Byte} (h : q.Holds P id 0 r xs) (hf : q.isFull P.variant = false) :
    ((q.store b).advanceHead.countUp P.variant).Holds P id 0 r (xs ++ [b]) :=
  ((h.store hf b).advanceHead ((RingBuf.isFull_store _ b q).trans hf) (by simp)).countUp

/-! ### The parts of a pop -/

theorem RingBuf.Holds.ne_nil (h : q.Holds P id w 0 xs) (he : q.isEmpty P.variant = false) : xs ≠ [] := by
  have ho := h.sound.isEmpty_eq_false_iff.mp he
  have hl := h.length
  rintro rfl
  rw [List.length_nil] at hl
  omega

theorem RingBuf.Sound.advanceTail (h : q.Sound P id) (hc : 0 < q.cap.toNat) : q.advanceTail.Sound P id where
  canonical := h.canonical
  inside := h.inside
  capFits := h.capFits
  indices := fun _ => ⟨(h.indices hc).1, nextIdx_lt hc⟩
  degenerate := fun hz => absurd ((idx_eq_zero_iff _).mp hz) (Nat.pos_iff_ne_zero.mp hc)
  counted := h.counted
  uncounted := h.uncounted
  unboundReset := fun hb => absurd ((idx_eq_zero_iff _).mp (h.unboundReset hb).1) (Nat.pos_iff_ne_zero.mp hc)

/-- C3 drops the oldest byte of the list, which the EXPLICIT variant counts still. -/
theorem RingBuf.Holds.advanceTail {x : Byte} (h : q.Holds P id w 0 (x :: xs)) (he : q.isEmpty P.variant = false) :
    q.advanceTail.Holds P id w (countLag P.variant) xs := by
  have hle := h.length_le
  have hl := h.length
  have ho := h.sound.isEmpty_eq_false_iff.mp he
  rw [List.length_cons] at hle hl
  have hc : 0 < q.cap.toNat := by omega
  obtain ⟨hh, ht⟩ := h.sound.indices hc
  have hslot (k : Nat) : q.advanceTail.slotAt k = q.slotAt (k + 1) := by
    simp only [RingBuf.slotAt, RingBuf.advanceTail_tail, RingBuf.advanceTail_cap, nextIdx_mod ht, Nat.mod_add_mod,
      Nat.add_assoc, Nat.add_comm 1]
  have hhead : q.advanceTail.head.toNat = (q.advanceTail.tail.toNat + xs.length) % q.cap.toNat :=
    (h.head hc).trans (hslot xs.length).symm
  refine ⟨h.sound.advanceTail hc, fun hv => ?_, fun hv => ?_, ?_, fun _ => hhead, fun k hk => ?_⟩
  · exact ⟨(h.noLag hv).1, by rw [hv]; rfl⟩
  · rw [hv, RingBuf.occ_explicit] at ho
    obtain ⟨hw, -⟩ := h.room hv
    rw [hv]
    exact ⟨hw, ho⟩
  · cases hv : P.variant with
    | explicit =>
      rw [hv] at hl
      rw [countLag]
      exact hl
    | derived =>
      obtain ⟨rfl, -⟩ := h.noLag hv
      rw [RingBuf.occ_derived_eq (q := q.advanceTail) (nextIdx_lt hc) (by simp only [RingBuf.advanceTail_cap]; omega)
        hhead, countLag]
  · rw [hslot, RingBuf.advanceTail_slots, h.bytes (k + 1) (by simpa using hk), List.getElem?_cons_succ]

/-- C4 gives up the count of the byte that C3 dropped. -/
theorem RingBuf.Holds.countDown (h : q.Holds P id w (countLag P.variant) xs) :
    (q.countDown P.variant).Holds P id w 0 xs := by
  cases hv : P.variant with
  | derived =>
    rw [hv] at h
    exact h
  | explicit =>
    have hroom := h.room hv
    have hl := h.length
    have hcap := h.sound.counted hv
    rw [hv, countLag] at hroom
    rw [hv, countLag, RingBuf.occ_explicit] at hl
    obtain ⟨hw, hr⟩ := hroom
    have hcount : (q.countDown .explicit).count.toNat = q.count.toNat - 1 := toNat_sub_one hr
    refine ⟨⟨h.sound.canonical, h.sound.inside, h.sound.capFits, h.sound.indices, h.sound.degenerate, fun _ => ?_,
      fun hd => ?_, fun hb => ?_⟩, fun hd => ?_, fun _ => ?_, ?_, h.head, h.bytes⟩
    · rw [hcount]
      exact Nat.le_trans (Nat.sub_le _ _) hcap
    · rw [hv] at hd
      cases hd
    · obtain ⟨-, -, -, hz⟩ := h.sound.unboundReset hb
      rw [hz] at hr
      exact absurd hr (by simp)
    · rw [hv] at hd
      cases hd
    · rw [hcount]
      simp only [RingBuf.countDown_cap]
      omega
    · rw [hv, RingBuf.occ_explicit, hcount]
      omega

/-- The parts of a pop together take the oldest byte (rule R148). -/
theorem RingBuf.Holds.pop {x : Byte} (h : q.Holds P id w 0 (x :: xs)) (he : q.isEmpty P.variant = false) :
    (q.advanceTail.countDown P.variant).Holds P id w 0 xs :=
  (h.advanceTail he).countDown

end

end Sys2Proof.Machine
end

section
/-! SUPPORT. What each operation answers, once an operation, and from it what every operation leaves alone (rules R20,
R32, R33, R70, R71). -/

namespace Sys2Proof.Machine

open Sys2Proof.Config

/-! ### The answer of each operation -/

section
variable {s t : State}

theorem exec_rbInit_eq_next {c : Idx} : exec (.rbInit c) s = .next t ↔
    admissionRefusal (.rbInit c) s = none ∧ c.toNat ≤ s.params.slots.toNat ∧
      t = (s.withRb (s.rb.init s.params.variant c)).respond [ccDone] := by
  rw [exec, execRbInit, admit_eq_next, refuseIf_eq_next, decide_eq_false_iff_not, Nat.not_lt]
  simp [@eq_comm _ t]

theorem exec_rbEmpty_eq_next : exec .rbEmpty s = .next t ↔
    admissionRefusal .rbEmpty s = none ∧ s.rb.bound = true ∧
      t = s.respond [ccDone, boolByte (s.rb.isEmpty s.params.variant)] := by
  rw [exec, execRbEmpty, admit_eq_next, requireBound_eq_next]
  simp [@eq_comm _ t]

theorem exec_rbFull_eq_next : exec .rbFull s = .next t ↔
    admissionRefusal .rbFull s = none ∧ s.rb.bound = true ∧
      t = s.respond [ccDone, boolByte (s.rb.isFull s.params.variant)] := by
  rw [exec, execRbFull, admit_eq_next, requireBound_eq_next]
  simp [@eq_comm _ t]

theorem exec_rbOcc_eq_next : exec .rbOcc s = .next t ↔
    admissionRefusal .rbOcc s = none ∧ s.rb.bound = true ∧
      t = s.respond (ccDone :: idxBytes (BitVec.ofNat 16 (s.rb.occ s.params.variant))) := by
  rw [exec, execRbOcc, admit_eq_next, requireBound_eq_next]
  simp [@eq_comm _ t]

theorem exec_rbPeek_eq_next : exec .rbPeek s = .next t ↔
    admissionRefusal .rbPeek s = none ∧ ∃ v, s.rb.peek s.params .rb = .next v ∧ t = s.respond [ccDone, v] := by
  rw [exec, execRbPeek, admit_eq_next, andThen_eq_next]
  simp [@eq_comm _ t]

theorem exec_rbPush_eq_next {b : Byte} : exec (.rbPush b) s = .next t ↔
    admissionRefusal (.rbPush b) s = none ∧ ∃ q ok, s.rb.push s.params .rb b = .next (q, ok) ∧
      t = (s.withRb q).respond [ccDone, boolByte ok] := by
  rw [exec, execRbPush, admit_eq_next, andThen_eq_next]
  simp [@eq_comm _ t]

theorem exec_rbPop_eq_next : exec .rbPop s = .next t ↔
    admissionRefusal .rbPop s = none ∧ ∃ q v, s.rb.pop s.params .rb = .next (q, v) ∧
      t = (s.withRb q).respond [ccDone, v] := by
  rw [exec, execRbPop, admit_eq_next, andThen_eq_next]
  simp [@eq_comm _ t]

/-- The engine as SE.INIT leaves it: configured, or restarted with `cfg_err` (rule R170). -/
def SerialEngine.afterInit (P : Params) (c : SerialConfig) (valid : Bool) (e : SerialEngine) : SerialEngine :=
  if valid then e.restart.configure P c else { e.restart with cfgErr := true }

theorem exec_seInit_eq_next {p0 p1 p2 p3 p4 p5 p6 p7 : Byte} : exec (.seInit p0 p1 p2 p3 p4 p5 p6 p7) s = .next t ↔
    admissionRefusal (.seInit p0 p1 p2 p3 p4 p5 p6 p7) s = none ∧
      t = (s.withSe (s.se.afterInit s.params
        { clockSource := p0, baudDivisorLow := p1, baudDivisorHigh := p2, modulationA := p3, modulationB := p4
          parityMode := p5, bitOrder := p6, oversamplingMode := p7 }
        (configValid s.params p0 p1 p2 p3 p4 p7))).respond
          [if configValid s.params p0 p1 p2 p3 p4 p7 then ccDone else ccCfgErr] := by
  rw [exec, execSeInit, admit_eq_next, SerialEngine.afterInit]
  split <;> simp [@eq_comm _ t]

theorem exec_seSend_eq_next {b : Byte} : exec (.seSend b) s = .next t ↔
    admissionRefusal (.seSend b) s = none ∧ s.se.inited = true ∧
      (s.se.transmitting = false ∧ s.se.txReady = true ∧ t = (s.withSe
          { s.se with txBuf := b, txReady := false, transmitting := true, txIe := true }).respond [ccDone] ∨
        s.se.transmitting = true ∧ s.se.txq.isFull s.params.variant = false ∧
          (∃ q ok, s.se.txq.push s.params .txq b = .next (q, ok) ∧ t = (s.withTxq q).respond [ccDone]) ∨
        s.se.transmitting = true ∧ s.se.txq.isFull s.params.variant = true ∧ t = s.respond [ccHeld]) := by
  rw [exec, execSeSend, admit_eq_next, requireInited_eq_next]
  refine and_congr_right fun _ => and_congr_right fun _ => ?_
  cases s.se.transmitting
  · simp [andThen_eq_next, SerialEngine.txWrite_eq_next, @eq_comm _ t, and_assoc]
  · cases s.se.txq.isFull s.params.variant
    · simp [andThen_eq_next, @eq_comm _ t]
    · simp [@eq_comm _ t]

theorem exec_seRecv_eq_next : exec .seRecv s = .next t ↔
    admissionRefusal .seRecv s = none ∧ s.se.inited = true ∧ ∃ q v, s.se.rxq.pop s.params .rxq = .next (q, v) ∧
      t = (s.withRxq q).respond [ccDone, v] := by
  rw [exec, execSeRecv, admit_eq_next, requireInited_eq_next, andThen_eq_next]
  simp [@eq_comm _ t]

theorem exec_seEi_eq_next : exec .seEi s = .next t ↔
    admissionRefusal .seEi s = none ∧ s.se.inited = true ∧
      t = (s.withSe { s.se with rxIe := true }).respond [ccDone] := by
  rw [exec, execSeEi, admit_eq_next, requireInited_eq_next]
  simp [@eq_comm _ t]

theorem exec_seDi_eq_next : exec .seDi s = .next t ↔
    admissionRefusal .seDi s = none ∧ s.se.inited = true ∧
      t = (s.withSe { s.se with rxIe := false }).respond [ccDone] := by
  rw [exec, execSeDi, admit_eq_next, requireInited_eq_next]
  simp [@eq_comm _ t]

theorem exec_seRxempty_eq_next : exec .seRxempty s = .next t ↔
    admissionRefusal .seRxempty s = none ∧ s.se.inited = true ∧
      t = s.respond [ccDone, boolByte (s.se.rxq.isEmpty s.params.variant)] := by
  rw [exec, execSeRxempty, admit_eq_next, requireInited_eq_next]
  simp [@eq_comm _ t]

theorem exec_seStatus_eq_next : exec .seStatus s = .next t ↔
    admissionRefusal .seStatus s = none ∧ t = s.respond [ccDone, s.se.status] := by
  rw [exec, execSeStatus, admit_eq_next]
  simp [@eq_comm _ t]

theorem exec_seRxdrop_eq_next : exec .seRxdrop s = .next t ↔
    admissionRefusal .seRxdrop s = none ∧ t = s.respond (ccDone :: idxBytes s.se.rxDrop) := by
  rw [exec, execSeRxdrop, admit_eq_next]
  simp [@eq_comm _ t]

theorem exec_seCfgrd_eq_next {d : Byte} : exec (.seCfgrd d) s = .next t ↔
    admissionRefusal (.seCfgrd d) s = none ∧ d.toNat ≤ 7 ∧ s.se.inited = true ∧
      t = s.respond [ccDone, s.se.cfg.byte d] := by
  rw [exec, execSeCfgrd, admit_eq_next, refuseIf_eq_next, requireInited_eq_next, decide_eq_false_iff_not, Nat.not_lt]
  simp [@eq_comm _ t]

theorem exec_seTxisr_eq_next : exec .seTxisr s = .next t ↔
    admissionRefusal .seTxisr s = none ∧ s.se.inited = true ∧ s.se.txIe = true ∧ s.se.txReady = true ∧
      (s.se.txq.isEmpty s.params.variant = true ∧ t = s.withSe { s.se with txIe := false, transmitting := false } ∨
        s.se.txq.isEmpty s.params.variant = false ∧ ∃ q v, s.se.txq.pop s.params .txq = .next (q, v) ∧
          t = s.withSe { s.se with txq := q, txBuf := v, txReady := false }) := by
  rw [exec, execSeTxisr, admit_eq_next, runHandler_eq_next, SerialEngine.txisrEnabled_iff, and_assoc, and_assoc]
  refine and_congr_right fun _ => and_congr_right fun _ => and_congr_right fun _ => and_congr_right fun hr => ?_
  unfold txDrain
  cases s.se.txq.isEmpty s.params.variant
  · simp [andThen_eq_next, SerialEngine.txWrite_eq_next, hr, @eq_comm _ t]
  · simp [@eq_comm _ t]

theorem exec_seRxisr_eq_next : exec .seRxisr s = .next t ↔
    admissionRefusal .seRxisr s = none ∧ s.se.inited = true ∧ s.se.rxIe = true ∧ s.se.rxFull = true ∧
      ∃ q ok, s.se.rxq.push s.params .rxq s.se.rxBuf = .next (q, ok) ∧
        t = s.withSe { s.se with
          rxFull := false, rxq := q, rxDrop := if ok then s.se.rxDrop else satAdd1 s.se.rxDrop } := by
  rw [exec, execSeRxisr, admit_eq_next, runHandler_eq_next, SerialEngine.rxisrEnabled_iff, and_assoc, and_assoc]
  refine and_congr_right fun _ => and_congr_right fun _ => and_congr_right fun _ => and_congr_right fun _ => ?_
  simp only [rxEnqueue, SerialEngine.rxRead, andThen_eq_next, Prod.exists]
  refine exists_congr fun q => exists_congr fun ok => and_congr_right fun hq => ?_
  cases ok with
  | true => simp [@eq_comm _ t]
  | false =>
    obtain rfl : q = s.se.rxq := by
      obtain ⟨-, ⟨-, rfl, -⟩ | ⟨-, -, hok, -⟩⟩ := RingBuf.push_eq_next.mp hq
      · rfl
      · cases hok
    simp [@eq_comm _ t]

theorem exec_lineTxdone_eq_next : exec .lineTxdone s = .next t ↔
    admissionRefusal .lineTxdone s = none ∧ s.se.txReady = false ∧
      t = s.withSe { s.se with txLine := s.se.txLine ++ [s.se.txBuf], txReady := true } := by
  rw [exec, execLineTxdone, admit_eq_next, refuseIf_eq_next, SerialEngine.txdoneEnabled]
  simp [@eq_comm _ t]

theorem exec_lineRxbyte_eq_next {b : Byte} : exec (.lineRxbyte b) s = .next t ↔
    admissionRefusal (.lineRxbyte b) s = none ∧
      (s.se.inited = false ∧ t = s ∨ s.se.inited = true ∧ t = s.withSe { s.se with
        rxLine := s.se.rxLine ++ [b], rxOvr := s.se.rxOvr || s.se.rxFull, rxBuf := b, rxFull := true }) := by
  rw [exec, execLineRxbyte, admit_eq_next]
  cases s.se.inited <;> simp [@eq_comm _ t]

end

/-! ### Push and pop, by the branch taken -/

section
variable {P : Params} {id : BufId} {q q' : RingBuf} {b v : Byte} {ok : Bool}

/-- What a push leaves: nothing on a full buffer, else the three parts of `Push` (rule R144). -/
theorem RingBuf.push_cases (h : q.push P id b = .next (q', ok)) :
    q.isFull P.variant = true ∧ q' = q ∧ ok = false ∨
      q.isFull P.variant = false ∧ q' = (q.store b).advanceHead.countUp P.variant ∧ ok = true := by
  obtain ⟨-, h | ⟨hf, -, hok, hq⟩⟩ := RingBuf.push_eq_next.mp h
  · exact .inl h
  · exact .inr ⟨hf, hq, hok⟩

/-- What a pop leaves: nothing on an empty buffer, else the byte at `tail` and the two parts of `Pop` (rule R148). -/
theorem RingBuf.pop_cases (h : q.pop P id = .next (q', v)) :
    q.isEmpty P.variant = true ∧ q' = q ∧ v = defaultByte ∨
      q.isEmpty P.variant = false ∧ q' = q.advanceTail.countDown P.variant ∧ v = slotByte id q.slots q.tail.toNat := by
  obtain ⟨-, h | ⟨he, -, hv, hq⟩⟩ := RingBuf.pop_eq_next.mp h
  · exact .inl h
  · exact .inr ⟨he, hq, hv⟩

/-- A push moves nothing but the slots, `head` and `count`. -/
theorem RingBuf.push_frame (h : q.push P id b = .next (q', ok)) :
    q' = { q with slots := q'.slots, head := q'.head, count := q'.count } ∧
      (P.variant = .derived → q'.count = q.count) := by
  obtain ⟨-, rfl, -⟩ | ⟨-, rfl, -⟩ := RingBuf.push_cases h
  · exact ⟨rfl, fun _ => rfl⟩
  · cases P.variant <;> exact ⟨rfl, by simp⟩

/-- A pop moves nothing but `tail` and `count`. -/
theorem RingBuf.pop_frame (h : q.pop P id = .next (q', v)) :
    q' = { q with tail := q'.tail, count := q'.count } ∧ (P.variant = .derived → q'.count = q.count) := by
  obtain ⟨-, rfl, -⟩ | ⟨-, rfl, -⟩ := RingBuf.pop_cases h
  · exact ⟨rfl, fun _ => rfl⟩
  · cases P.variant <;> exact ⟨rfl, by simp⟩

end

/-! ### The unit an operation belongs to -/

section
variable {i : Instr} {s t : State}

/-- An operation of the RB unit leaves another RB unit and one response, and nothing else. -/
theorem exec_rb_shape (h : exec i s = .next t) (hc : opClass i.opcode = 0x0) :
    ∃ q bytes, t = (s.withRb q).respond bytes := by
  cases i
  case rbInit c => obtain ⟨-, -, rfl⟩ := exec_rbInit_eq_next.mp h; exact ⟨_, _, rfl⟩
  case rbEmpty => obtain ⟨-, -, rfl⟩ := exec_rbEmpty_eq_next.mp h; exact ⟨s.rb, _, rfl⟩
  case rbFull => obtain ⟨-, -, rfl⟩ := exec_rbFull_eq_next.mp h; exact ⟨s.rb, _, rfl⟩
  case rbPeek => obtain ⟨-, v, -, rfl⟩ := exec_rbPeek_eq_next.mp h; exact ⟨s.rb, _, rfl⟩
  case rbPush b => obtain ⟨-, q, ok, -, rfl⟩ := exec_rbPush_eq_next.mp h; exact ⟨_, _, rfl⟩
  case rbPop => obtain ⟨-, q, v, -, rfl⟩ := exec_rbPop_eq_next.mp h; exact ⟨_, _, rfl⟩
  case rbOcc => obtain ⟨-, -, rfl⟩ := exec_rbOcc_eq_next.mp h; exact ⟨s.rb, _, rfl⟩
  all_goals simp [Instr.opcode, opClass] at hc

/-- A foreground operation of the engine leaves another SE unit and one response, and nothing else. -/
theorem exec_foreground_shape (h : exec i s = .next t) (hc : opClass i.opcode = 0x8) :
    ∃ e bytes, t = (s.withSe e).respond bytes := by
  cases i
  case seInit => obtain ⟨-, rfl⟩ := exec_seInit_eq_next.mp h; exact ⟨_, _, rfl⟩
  case seSend b =>
    obtain ⟨-, -, ⟨-, -, rfl⟩ | ⟨-, -, q, ok, -, rfl⟩ | ⟨-, -, rfl⟩⟩ := exec_seSend_eq_next.mp h
    · exact ⟨_, _, rfl⟩
    · exact ⟨{ s.se with txq := q }, _, rfl⟩
    · exact ⟨s.se, _, rfl⟩
  case seRecv => obtain ⟨-, -, q, v, -, rfl⟩ := exec_seRecv_eq_next.mp h; exact ⟨{ s.se with rxq := q }, _, rfl⟩
  case seEi => obtain ⟨-, -, rfl⟩ := exec_seEi_eq_next.mp h; exact ⟨_, _, rfl⟩
  case seDi => obtain ⟨-, -, rfl⟩ := exec_seDi_eq_next.mp h; exact ⟨_, _, rfl⟩
  case seRxempty => obtain ⟨-, -, rfl⟩ := exec_seRxempty_eq_next.mp h; exact ⟨s.se, _, rfl⟩
  case seStatus => obtain ⟨-, rfl⟩ := exec_seStatus_eq_next.mp h; exact ⟨s.se, _, rfl⟩
  case seRxdrop => obtain ⟨-, rfl⟩ := exec_seRxdrop_eq_next.mp h; exact ⟨s.se, _, rfl⟩
  case seCfgrd d => obtain ⟨-, -, -, rfl⟩ := exec_seCfgrd_eq_next.mp h; exact ⟨s.se, _, rfl⟩
  all_goals simp [Instr.opcode, opClass] at hc

/-- A handler or a line event leaves another SE unit, and nothing else. -/
theorem exec_signal_shape (h : exec i s = .next t) (hc : opClass i.opcode = 0x9 ∨ opClass i.opcode = 0xA) :
    ∃ e, t = s.withSe e := by
  cases i
  case seTxisr =>
    obtain ⟨-, -, -, -, ⟨-, rfl⟩ | ⟨-, q, v, -, rfl⟩⟩ := exec_seTxisr_eq_next.mp h <;> exact ⟨_, rfl⟩
  case seRxisr => obtain ⟨-, -, -, -, q, ok, -, rfl⟩ := exec_seRxisr_eq_next.mp h; exact ⟨_, rfl⟩
  case lineTxdone => obtain ⟨-, -, rfl⟩ := exec_lineTxdone_eq_next.mp h; exact ⟨_, rfl⟩
  case lineRxbyte b =>
    obtain ⟨-, ⟨-, rfl⟩ | ⟨-, rfl⟩⟩ := exec_lineRxbyte_eq_next.mp h
    · exact ⟨t.se, rfl⟩
    · exact ⟨_, rfl⟩
  all_goals simp [Instr.opcode, opClass] at hc

theorem opClass_cases (i : Instr) :
    opClass i.opcode = 0x0 ∨ opClass i.opcode = 0x8 ∨ opClass i.opcode = 0x9 ∨ opClass i.opcode = 0xA := by
  cases i <;> simp [Instr.opcode, opClass]

end

/-! ### What an operation does to each buffer -/

/-- What a step may do to a ring buffer, by the role it plays there. -/
inductive Touch
  | leave
  | build
  | push (b : Byte)
  | pop
  deriving DecidableEq, Repr

/-- What an atomic operation does to the buffer `id`: SE.SEND pushes where the engine is Draining. -/
def touchOf (id : BufId) (i : Instr) (s : State) : Touch :=
  match id with
  | .rb =>
    match i with
    | .rbInit _ => .build
    | .rbPush b => .push b
    | .rbPop => .pop
    | _ => .leave
  | .txq =>
    match i with
    | .seInit _ _ _ _ _ _ _ _ => .build
    | .seSend b => if s.se.transmitting then .push b else .leave
    | .seTxisr => .pop
    | _ => .leave
  | .rxq =>
    match i with
    | .seInit _ _ _ _ _ _ _ _ => .build
    | .seRecv => .pop
    | .seRxisr => .push s.se.rxBuf
    | _ => .leave

theorem touchOf_seSend (b : Byte) (s : State) :
    touchOf .txq (.seSend b) s = if s.se.transmitting then .push b else .leave := rfl

section
variable {i : Instr} {s : State} {b : Byte}

theorem touchOf_rb_eq_push : touchOf .rb i s = .push b ↔ i = .rbPush b := by
  cases i <;> constructor <;> intro h <;> cases h <;> rfl

theorem touchOf_txq_eq_push : touchOf .txq i s = .push b ↔ i = .seSend b ∧ s.se.transmitting = true := by
  cases i
  case seSend c =>
    rw [touchOf_seSend]
    split <;> simp_all
  all_goals exact ⟨nofun, nofun⟩

theorem touchOf_rxq_eq_push : touchOf .rxq i s = .push b ↔ i = .seRxisr ∧ b = s.se.rxBuf := by
  cases i
  case seRxisr => exact ⟨fun h => by cases h; exact ⟨rfl, rfl⟩, fun h => by rw [h.2]; rfl⟩
  all_goals exact ⟨nofun, nofun⟩

theorem touchOf_rb_eq_pop : touchOf .rb i s = .pop ↔ i = .rbPop := by
  cases i <;> constructor <;> intro h <;> cases h <;> rfl

theorem touchOf_txq_eq_pop : touchOf .txq i s = .pop ↔ i = .seTxisr := by
  cases i
  case seSend c =>
    rw [touchOf_seSend]
    split <;> simp
  all_goals constructor <;> intro h <;> cases h <;> rfl

theorem touchOf_rxq_eq_pop : touchOf .rxq i s = .pop ↔ i = .seRecv := by
  cases i <;> constructor <;> intro h <;> cases h <;> rfl

end

/-- The buffer `q'` that an atomic operation can leave of `q`, by what it does to it. -/
inductive RingBuf.Touched (P : Params) (id : BufId) (q : RingBuf) : Touch → RingBuf → Prop
  | leave : Touched P id q .leave q
  | init (c : Idx) (hc : c.toNat ≤ (slotsOf P id).toNat) : Touched P id q .build (q.init P.variant c)
  | unbind : Touched P id q .build q.unbind
  | rebuild : Touched P id q .build (q.unbind.init P.variant (slotsOf P id))
  | full (b : Byte) (hf : q.isFull P.variant = true) : Touched P id q (.push b) q
  | push (b : Byte) (hf : q.isFull P.variant = false) :
      Touched P id q (.push b) ((q.store b).advanceHead.countUp P.variant)
  | empty (he : q.isEmpty P.variant = true) : Touched P id q .pop q
  | pop (he : q.isEmpty P.variant = false) : Touched P id q .pop (q.advanceTail.countDown P.variant)

theorem RingBuf.touched_of_push {P : Params} {id : BufId} {q q' : RingBuf} {b : Byte} {ok : Bool}
    (h : q.push P id b = .next (q', ok)) : q.Touched P id (.push b) q' := by
  obtain ⟨hf, rfl, -⟩ | ⟨hf, rfl, -⟩ := RingBuf.push_cases h
  · exact .full b hf
  · exact .push b hf

theorem RingBuf.touched_of_pop {P : Params} {id : BufId} {q q' : RingBuf} {v : Byte}
    (h : q.pop P id = .next (q', v)) : q.Touched P id .pop q' := by
  obtain ⟨he, rfl, -⟩ | ⟨he, rfl, -⟩ := RingBuf.pop_cases h
  · exact .empty he
  · exact .pop he

section
variable {i : Instr} {s t : State}

theorem exec_touches_rb (h : exec i s = .next t) : s.rb.Touched s.params .rb (touchOf .rb i s) t.rb := by
  by_cases hc : opClass i.opcode = 0x0
  · cases i
    case rbInit c => obtain ⟨-, hc, rfl⟩ := exec_rbInit_eq_next.mp h; exact .init c hc
    case rbEmpty => obtain ⟨-, -, rfl⟩ := exec_rbEmpty_eq_next.mp h; exact .leave
    case rbFull => obtain ⟨-, -, rfl⟩ := exec_rbFull_eq_next.mp h; exact .leave
    case rbPeek => obtain ⟨-, v, -, rfl⟩ := exec_rbPeek_eq_next.mp h; exact .leave
    case rbPush b => obtain ⟨-, q, ok, hq, rfl⟩ := exec_rbPush_eq_next.mp h; exact RingBuf.touched_of_push hq
    case rbPop => obtain ⟨-, q, v, hq, rfl⟩ := exec_rbPop_eq_next.mp h; exact RingBuf.touched_of_pop hq
    case rbOcc => obtain ⟨-, -, rfl⟩ := exec_rbOcc_eq_next.mp h; exact .leave
    all_goals simp [Instr.opcode, opClass] at hc
  · have ht : t.rb = s.rb := by
      obtain hc' | hc' | hc' := (opClass_cases i).resolve_left hc
      · obtain ⟨e, bytes, rfl⟩ := exec_foreground_shape h hc'
        rfl
      · obtain ⟨e, rfl⟩ := exec_signal_shape h (.inl hc')
        rfl
      · obtain ⟨e, rfl⟩ := exec_signal_shape h (.inr hc')
        rfl
    have hleave : touchOf .rb i s = .leave := by
      cases i <;> simp [Instr.opcode, opClass] at hc <;> rfl
    rw [ht, hleave]
    exact .leave

theorem txq_init (P : Params) (c : SerialConfig) (valid : Bool) (e : SerialEngine) :
    e.txq.Touched P .txq .build (e.afterInit P c valid).txq := by
  cases valid
  · exact .unbind
  · exact .rebuild

theorem rxq_init (P : Params) (c : SerialConfig) (valid : Bool) (e : SerialEngine) :
    e.rxq.Touched P .rxq .build (e.afterInit P c valid).rxq := by
  cases valid
  · exact .unbind
  · exact .rebuild

theorem exec_touches_txq (h : exec i s = .next t) :
    s.se.txq.Touched s.params .txq (touchOf .txq i s) t.se.txq := by
  cases i
  case seInit => obtain ⟨-, rfl⟩ := exec_seInit_eq_next.mp h; exact txq_init ..
  case seSend b =>
    obtain ⟨-, -, ⟨ht, -, rfl⟩ | ⟨ht, -, q, ok, hq, rfl⟩ | ⟨ht, hf, rfl⟩⟩ := exec_seSend_eq_next.mp h
    · rw [touchOf_seSend, if_neg (by simp [ht])]
      exact .leave
    · rw [touchOf_seSend, if_pos ht]
      exact RingBuf.touched_of_push hq
    · rw [touchOf_seSend, if_pos ht]
      exact .full b hf
  case seTxisr =>
    obtain ⟨-, -, -, -, ⟨he, rfl⟩ | ⟨-, q, v, hq, rfl⟩⟩ := exec_seTxisr_eq_next.mp h
    · exact .empty he
    · exact RingBuf.touched_of_pop hq
  case seRecv => obtain ⟨-, -, q, v, -, rfl⟩ := exec_seRecv_eq_next.mp h; exact .leave
  case seEi => obtain ⟨-, -, rfl⟩ := exec_seEi_eq_next.mp h; exact .leave
  case seDi => obtain ⟨-, -, rfl⟩ := exec_seDi_eq_next.mp h; exact .leave
  case seRxempty => obtain ⟨-, -, rfl⟩ := exec_seRxempty_eq_next.mp h; exact .leave
  case seStatus => obtain ⟨-, rfl⟩ := exec_seStatus_eq_next.mp h; exact .leave
  case seRxdrop => obtain ⟨-, rfl⟩ := exec_seRxdrop_eq_next.mp h; exact .leave
  case seCfgrd d => obtain ⟨-, -, -, rfl⟩ := exec_seCfgrd_eq_next.mp h; exact .leave
  case seRxisr => obtain ⟨-, -, -, -, q, ok, -, rfl⟩ := exec_seRxisr_eq_next.mp h; exact .leave
  case lineTxdone => obtain ⟨-, -, rfl⟩ := exec_lineTxdone_eq_next.mp h; exact .leave
  case lineRxbyte b => obtain ⟨-, ⟨-, rfl⟩ | ⟨-, rfl⟩⟩ := exec_lineRxbyte_eq_next.mp h <;> exact .leave
  all_goals
    obtain ⟨q, bytes, rfl⟩ := exec_rb_shape h (by simp [Instr.opcode, opClass])
    exact .leave

theorem exec_touches_rxq (h : exec i s = .next t) :
    s.se.rxq.Touched s.params .rxq (touchOf .rxq i s) t.se.rxq := by
  cases i
  case seInit => obtain ⟨-, rfl⟩ := exec_seInit_eq_next.mp h; exact rxq_init ..
  case seSend b =>
    obtain ⟨-, -, ⟨-, -, rfl⟩ | ⟨-, -, q, ok, -, rfl⟩ | ⟨-, -, rfl⟩⟩ := exec_seSend_eq_next.mp h <;> exact .leave
  case seTxisr =>
    obtain ⟨-, -, -, -, ⟨-, rfl⟩ | ⟨-, q, v, -, rfl⟩⟩ := exec_seTxisr_eq_next.mp h <;> exact .leave
  case seRecv => obtain ⟨-, -, q, v, hq, rfl⟩ := exec_seRecv_eq_next.mp h; exact RingBuf.touched_of_pop hq
  case seEi => obtain ⟨-, -, rfl⟩ := exec_seEi_eq_next.mp h; exact .leave
  case seDi => obtain ⟨-, -, rfl⟩ := exec_seDi_eq_next.mp h; exact .leave
  case seRxempty => obtain ⟨-, -, rfl⟩ := exec_seRxempty_eq_next.mp h; exact .leave
  case seStatus => obtain ⟨-, rfl⟩ := exec_seStatus_eq_next.mp h; exact .leave
  case seRxdrop => obtain ⟨-, rfl⟩ := exec_seRxdrop_eq_next.mp h; exact .leave
  case seCfgrd d => obtain ⟨-, -, -, rfl⟩ := exec_seCfgrd_eq_next.mp h; exact .leave
  case seRxisr => obtain ⟨-, -, -, -, q, ok, hq, rfl⟩ := exec_seRxisr_eq_next.mp h; exact RingBuf.touched_of_push hq
  case lineTxdone => obtain ⟨-, -, rfl⟩ := exec_lineTxdone_eq_next.mp h; exact .leave
  case lineRxbyte b => obtain ⟨-, ⟨-, rfl⟩ | ⟨-, rfl⟩⟩ := exec_lineRxbyte_eq_next.mp h <;> exact .leave
  all_goals
    obtain ⟨q, bytes, rfl⟩ := exec_rb_shape h (by simp [Instr.opcode, opClass])
    exact .leave

/-- What an atomic operation can leave of each buffer (rules R70, R71, R33). -/
theorem exec_touches (h : exec i s = .next t) (id : BufId) :
    (s.buf id).Touched s.params id (touchOf id i s) (t.buf id) := by
  cases id with
  | rb => exact exec_touches_rb h
  | txq => exact exec_touches_txq h
  | rxq => exact exec_touches_rxq h

end

/-! ### Slots -/

section
variable {P : Params} {id : BufId} {q q' : RingBuf} {i : Instr} {s : State}

/-- Only a push on a buffer that is not full writes a slot (rule R71). -/
theorem RingBuf.Touched.slots_eq {u : Touch} (h : q.Touched P id u q')
    (hu : ∀ b, u = .push b → q.isFull P.variant = true) : q'.slots = q.slots := by
  cases h with
  | push b hf => rw [hu b rfl] at hf; cases hf
  | pop => simp
  | leave | init | unbind | rebuild | full | empty => rfl

theorem RingBuf.Touched.slots_of_push {b : Byte} (h : q.Touched P id (.push b) q')
    (hf : q.isFull P.variant = false) : q'.slots = Memory.write q.slots q.head.toNat b := by
  cases h with
  | full _ hf' => rw [hf] at hf'; cases hf'
  | push => simp

/-- A push on a buffer that is not full stores at its `head`. -/
theorem storedSlot_of_push {b : Byte} (h : touchOf id i s = .push b)
    (hf : (s.buf id).isFull s.params.variant = false) :
    storedSlot i s = some (id, (s.buf id).head.toNat) ∧ storedByte i s = b := by
  cases id with
  | rb =>
    obtain rfl := touchOf_rb_eq_push.mp h
    exact ⟨if_neg (by simpa using hf), rfl⟩
  | txq =>
    obtain ⟨rfl, ht⟩ := touchOf_txq_eq_push.mp h
    have hf : s.se.txq.isFull s.params.variant = false := hf
    exact ⟨if_pos (by simp [ht, hf]), rfl⟩
  | rxq =>
    obtain ⟨rfl, rfl⟩ := touchOf_rxq_eq_push.mp h
    exact ⟨if_neg (by simpa using hf), rfl⟩

/-- What is stored to a slot is pushed on its buffer, at `head`, and that is not full. -/
theorem push_of_storedSlot {a : Nat} (h : storedSlot i s = some (id, a)) :
    touchOf id i s = .push (storedByte i s) ∧ (s.buf id).isFull s.params.variant = false ∧
      a = (s.buf id).head.toNat := by
  cases i
  case rbPush b =>
    obtain ⟨hf, h⟩ := Option.ite_none_left_eq_some.mp h
    cases h
    exact ⟨rfl, by simpa using hf, rfl⟩
  case seSend b =>
    obtain ⟨hf, h⟩ := Option.ite_none_right_eq_some.mp h
    cases h
    rw [Bool.and_eq_true, Bool.not_eq_true'] at hf
    exact ⟨touchOf_txq_eq_push.mpr ⟨rfl, hf.1⟩, hf.2, rfl⟩
  case seRxisr =>
    obtain ⟨hf, h⟩ := Option.ite_none_left_eq_some.mp h
    cases h
    exact ⟨rfl, by simpa using hf, rfl⟩
  all_goals cases h

end

end Sys2Proof.Machine

namespace Sys2Proof.Proofs

open Sys2Proof Sys2Proof.Machine

/-- Settles O44: by the unit of the operation, which leaves another such unit and, where it is a command, one response.
-/
theorem operationsStayInTheirUnit : Obligations.OperationsStayInTheirUnit := by
  unfold Obligations.OperationsStayInTheirUnit
  intro i s t h
  obtain hc | hc | hc | hc := opClass_cases i
  · obtain ⟨q, bytes, rfl⟩ := exec_rb_shape h hc
    simp [hc]
  · obtain ⟨e, bytes, rfl⟩ := exec_foreground_shape h hc
    simp [hc]
  · obtain ⟨e, rfl⟩ := exec_signal_shape h (.inl hc)
    simp [hc]
  · obtain ⟨e, rfl⟩ := exec_signal_shape h (.inr hc)
    simp [hc]

/-- Settles O45: only a push on a buffer that is not full writes a slot, the one at its `head`. -/
theorem onlyThePushedSlotIsWritten : Obligations.OnlyThePushedSlotIsWritten := by
  unfold Obligations.OnlyThePushedSlotIsWritten
  refine fun i s t h => ⟨fun id a hne => ?_, fun id a heq => ?_⟩
  · have ht := exec_touches h id
    by_cases hp : ∃ b, touchOf id i s = .push b ∧ (s.buf id).isFull s.params.variant = false
    · obtain ⟨b, hb, hf⟩ := hp
      rw [(storedSlot_of_push hb hf).1] at hne
      rw [hb] at ht
      have hslots := ht.slots_of_push hf
      rw [hslots, Memory.read?_write_other _ _ fun ha => hne (by rw [ha])]
    · rw [ht.slots_eq fun b hb => ?_]
      exact Bool.not_eq_false _ ▸ fun hf => hp ⟨b, hb, hf⟩
  · obtain ⟨hb, hf, rfl⟩ := push_of_storedSlot heq
    have ht := exec_touches h id
    rw [hb] at ht
    rw [ht.slots_of_push hf, Memory.read?_write_same]

/-- Settles O46: from the answer of each operation, by what a push and a pop leave alone. -/
theorem rbOperationsFrame : Obligations.RbOperationsFrame := by
  unfold Obligations.RbOperationsFrame
  refine fun s t => ⟨fun h => ?_, fun b h => ?_, fun h => ?_, fun c h => ?_⟩
  · obtain h | h | h | h := h
    · obtain ⟨-, -, rfl⟩ := exec_rbEmpty_eq_next.mp h
      rfl
    · obtain ⟨-, -, rfl⟩ := exec_rbFull_eq_next.mp h
      rfl
    · obtain ⟨-, -, rfl⟩ := exec_rbOcc_eq_next.mp h
      rfl
    · obtain ⟨-, v, -, rfl⟩ := exec_rbPeek_eq_next.mp h
      rfl
  · obtain ⟨-, q, ok, hq, rfl⟩ := exec_rbPush_eq_next.mp h
    obtain ⟨hframe, hcount⟩ := RingBuf.push_frame hq
    exact ⟨congrArg (fun q => (s.withRb q).respond _) hframe, hcount⟩
  · obtain ⟨-, q, v, hq, rfl⟩ := exec_rbPop_eq_next.mp h
    obtain ⟨hframe, hcount⟩ := RingBuf.pop_frame hq
    exact ⟨congrArg (fun q => (s.withRb q).respond _) hframe, hcount⟩
  · obtain ⟨-, -, rfl⟩ := exec_rbInit_eq_next.mp h
    rfl

/-- Settles O47: from the answer of each operation, by what a push and a pop leave alone and, for SE.INIT, by the
validity of the configuration. -/
theorem engineForegroundFrame : Obligations.EngineForegroundFrame := by
  unfold Obligations.EngineForegroundFrame
  refine fun s t => ⟨fun d h => ?_, fun h => ?_, fun h => ?_, fun b h => ?_, fun p0 p1 p2 p3 p4 p5 p6 p7 h => ?_⟩
  · obtain h | h | h | h := h
    · obtain ⟨-, -, rfl⟩ := exec_seRxempty_eq_next.mp h
      rfl
    · obtain ⟨-, rfl⟩ := exec_seStatus_eq_next.mp h
      rfl
    · obtain ⟨-, rfl⟩ := exec_seRxdrop_eq_next.mp h
      rfl
    · obtain ⟨-, -, -, rfl⟩ := exec_seCfgrd_eq_next.mp h
      rfl
  · obtain h | h := h
    · obtain ⟨-, -, rfl⟩ := exec_seEi_eq_next.mp h
      rfl
    · obtain ⟨-, -, rfl⟩ := exec_seDi_eq_next.mp h
      rfl
  · obtain ⟨-, -, q, v, hq, rfl⟩ := exec_seRecv_eq_next.mp h
    exact congrArg (fun q => (s.withRxq q).respond _) (RingBuf.pop_frame hq).1
  · obtain ⟨-, -, ⟨ht, -, rfl⟩ | ⟨ht, -, q, ok, hq, rfl⟩ | ⟨ht, -, rfl⟩⟩ := exec_seSend_eq_next.mp h
    · exact ⟨rfl, fun ht' => by simp [ht] at ht', fun _ => rfl⟩
    · exact ⟨congrArg (fun q => (s.withTxq q).respond _) (RingBuf.push_frame hq).1, fun _ => rfl,
        fun ht' => by simp [ht] at ht'⟩
    · exact ⟨rfl, fun _ => rfl, fun _ => rfl⟩
  · obtain ⟨-, rfl⟩ := exec_seInit_eq_next.mp h
    cases configValid s.params p0 p1 p2 p3 p4 p7
    · exact ⟨rfl, fun _ => rfl⟩
    · exact ⟨rfl, nofun⟩

/-- Settles O48: from the answer of each handler and line event, by what a push and a pop leave alone. -/
theorem signalsFrame : Obligations.SignalsFrame := by
  unfold Obligations.SignalsFrame
  refine fun s t => ⟨fun h => ?_, fun h => ?_, fun h => ?_, fun b h => ?_⟩
  · obtain ⟨-, -, -, -, ⟨-, rfl⟩ | ⟨-, q, v, hq, rfl⟩⟩ := exec_seTxisr_eq_next.mp h
    · rfl
    · exact congrArg (fun q => s.withSe { s.se with txq := q, txBuf := v, txReady := false })
        (RingBuf.pop_frame hq).1
  · obtain ⟨-, -, -, -, q, ok, hq, rfl⟩ := exec_seRxisr_eq_next.mp h
    exact congrArg (fun q => s.withSe { s.se with rxFull := false, rxq := q, rxDrop := _ }) (RingBuf.push_frame hq).1
  · obtain ⟨-, -, rfl⟩ := exec_lineTxdone_eq_next.mp h
    rfl
  · obtain ⟨-, ⟨-, rfl⟩ | ⟨-, rfl⟩⟩ := exec_lineRxbyte_eq_next.mp h <;> rfl

end Sys2Proof.Proofs
end

section
/-! SUPPORT. Proofs about one step (rules R79, R100, R113), the start of a micro-stepped operation (rules R31, R78), the
micro-steps of SE.RECV (rule R174), the uninited engine (rules R35, R45) and LINE.RXBYTE (rule R210). -/

namespace Sys2Proof.Machine

open Sys2Proof.Config

/-! ### A step and its input -/

section
variable {s : State} {a : Agent} {p : Port} {bytes rest : List Byte} {i : Instr} {xs : List Input}

theorem fetch_of_decode (h : decode bytes = .ok (i, rest)) : fetch bytes = .next (i, rest) := by
  rw [fetch, h]

/-- A command is latched, and the bytes after it come first in the pending inputs (rule R100). -/
theorem State.present_eq (s : State) (a : Agent) (p : Port) (rest : List Byte) (again : List Byte → Input) :
    s.present a p rest again = { s with
      issue := { agent := a, port := p }, inputs := if rest = [] then s.inputs else again rest :: s.inputs } := by
  cases rest <;> rfl

theorem step_of_command (hd : decode bytes = .ok (i, rest)) (hs : s.inputs = .command a p bytes :: xs) :
    step s = exec i { s with
      issue := { agent := a, port := p }, inputs := if rest = [] then xs else .command a p rest :: xs } := by
  simp only [step, hs, perform, fetch_of_decode hd, andThen_next, State.present_eq]

theorem step_of_start (hd : decode bytes = .ok (i, rest)) (hs : s.inputs = .start p bytes :: xs) :
    step s = startInstr i { s with
      issue := { agent := .fg, port := p }, inputs := if rest = [] then xs else .start p rest :: xs } := by
  simp only [step, hs, perform, fetch_of_decode hd, andThen_next, State.present_eq]

theorem step_of_resume (hs : s.inputs = .resume :: xs) : step s = microStep { s with inputs := xs } := by
  simp only [step, hs, perform]

theorem startInstr_of_micro {op : MicroOp} (h : microOpOf i = some op) : startInstr i s = beginMicro i op s := by
  rw [startInstr, h]

theorem startInstr_of_atomic (h : microOpOf i = none) : startInstr i s = exec i s := by
  rw [startInstr, h]

/-- The machine with a command latched. -/
def State.latch (s : State) (a : Agent) (p : Port) : State := { s with issue := { agent := a, port := p } }

theorem perform_commandOf (s : State) (a : Agent) (p : Port) (i : Instr) :
    perform (commandOf a p i) s = exec i (s.latch a p) := by
  simp only [perform, commandOf, fetch_of_decode (decode_encode i), andThen_next, State.present_eq, if_true, State.latch]

theorem perform_start_encode (s : State) (p : Port) (i : Instr) :
    perform (.start p (encode i)) s = startInstr i (s.latch .fg p) := by
  simp only [perform, fetch_of_decode (decode_encode i), andThen_next, State.present_eq, if_true, State.latch]

@[simp] theorem State.latch_params (s : State) (a : Agent) (p : Port) : (s.latch a p).params = s.params := rfl
@[simp] theorem State.latch_rb (s : State) (a : Agent) (p : Port) : (s.latch a p).rb = s.rb := rfl
@[simp] theorem State.latch_se (s : State) (a : Agent) (p : Port) : (s.latch a p).se = s.se := rfl
@[simp] theorem State.latch_fg (s : State) (a : Agent) (p : Port) : (s.latch a p).fg = s.fg := rfl
@[simp] theorem State.latch_responses (s : State) (a : Agent) (p : Port) : (s.latch a p).responses = s.responses := rfl
@[simp] theorem State.latch_issue (s : State) (a : Agent) (p : Port) :
    (s.latch a p).issue = { agent := a, port := p } := rfl

/-- A command of the port's owner is presented, where an owner that is the foreground is idle. -/
theorem State.presented_latch (s : State) {a : Agent} {p : Port} (ha : a = portOwner s.params p)
    (hfg : a = .fg → s.fg = none) : (s.latch a p).Presented p :=
  ⟨by rw [ha]; rfl, fun h => hfg (ha.trans h)⟩

end

/-! ### The start of a micro-stepped operation -/

section
variable {s : State} {i : Instr} {op : MicroOp}

/-- The operations with micro-steps are not RB.INIT, so no operation in progress keeps them out. -/
theorem initDuringOperation_of_micro (h : microOpOf i = some op) (s : State) : initDuringOperation i s = false := by
  cases i <;> cases h <;> rfl

theorem requireReady_of_rb (hop : op ≠ .recv) (k : Result State) : requireReady op s k = requireBound s.rb k := by
  cases op
  case recv => exact absurd rfl hop
  all_goals rfl

theorem beginMicro_of_presented {p : Port} (hi : microOpOf i = some op) (hp : p ∈ portsOf i) (hs : s.Presented p) :
    beginMicro i op s = requireReady op s (.next (s.withFg
      (some { op := op, port := p, upc := .u1, flag := false, val := defaultByte }))) := by
  rw [beginMicro, hs.whenAdmitted_eq hp (initDuringOperation_of_micro hi s), hs.port]

end

/-! ### The micro-steps of SE.RECV -/

theorem microStep_of_recv {s : State} {f : Progress} (hs : s.fg = some f) (hf : f.op = .recv) :
    microStep s = microPop .rxq f s := by
  simp only [microStep, hs, hf]

end Sys2Proof.Machine

namespace Sys2Proof.Proofs

open Sys2Proof Sys2Proof.Machine

/-- Settles O1: one lemma for each kind of input. -/
theorem stepRunsDecodedCommand : Obligations.StepRunsDecodedCommand := by
  unfold Obligations.StepRunsDecodedCommand
  refine fun s a p bytes rest i xs hd => ⟨step_of_command hd, fun hs hi => ?_, fun op hs hi => ?_, step_of_resume,
    step_of_no_inputs⟩
  · rw [step_of_start hd hs, startInstr_of_atomic hi]
  · rw [step_of_start hd hs, startInstr_of_micro hi]

/-- Settles O23: C1's two outcomes, C2, C3 in each variant, and C4, on `rxq`. -/
theorem receiveMicroSteps : Obligations.ReceiveMicroSteps := by
  unfold Obligations.ReceiveMicroSteps
  intro s f v hs hf
  rw [microStep_of_recv hs hf]
  exact ⟨microPop_test_of_empty .rxq, microPop_test_of_nonempty .rxq, microPop_read .rxq,
    microPop_advance_explicit .rxq, microPop_advance_derived .rxq, microPop_count .rxq⟩

/-- Settles O25: the port admits the command, and what the operation needs is tested at its start. -/
theorem startHoldsTheOperation : Obligations.StartHoldsTheOperation := by
  unfold Obligations.StartHoldsTheOperation
  intro i op p s hi hp ho hfg
  have hs : (s.latch .fg p).Presented p := s.presented_latch ho.symm fun _ => hfg
  rw [perform_start_encode, startInstr_of_micro hi, beginMicro_of_presented hi hp hs]
  refine ⟨fun hop hb => ?_, fun hop h0 => ?_, fun hb hr => ?_⟩
  · rw [requireReady_of_rb hop]
    exact requireBound_of_unbound hb _
  · rw [hop]
    exact requireInited_of_uninited h0 _
  · by_cases hop : op = .recv
    · obtain ⟨h1, hq⟩ := hr hop
      rw [hop]
      exact (requireInited_of_inited h1 _).trans (requireBound_of_bound hq _)
    · rw [requireReady_of_rb hop]
      exact requireBound_of_bound (hb hop) _

/-- Settles O35: the six commands by `exec_of_uninited`, the handlers by their enabling condition, and the enables by
the invariant. -/
theorem uninitedEngineRefuses : Obligations.UninitedEngineRefuses := by
  unfold Obligations.UninitedEngineRefuses
  refine fun s h0 => ⟨fun hs => ⟨fun b => ?_, ?_, ?_, ?_, ?_, fun d hd => ?_⟩, fun hs => ⟨?_, ?_⟩, fun hs b => ?_,
    fun hinv => ?_⟩
  · exact exec_of_uninited hs h0 rfl
  · exact exec_of_uninited hs h0 rfl
  · exact exec_of_uninited hs h0 rfl
  · exact exec_of_uninited hs h0 rfl
  · exact exec_of_uninited hs h0 rfl
  · exact exec_of_uninited hs h0 (decide_eq_true hd)
  · refine exec_seTxisr_of_not_enabled hs fun h => ?_
    rw [(SerialEngine.txisrEnabled_iff.mp h).1] at h0
    cases h0
  · refine exec_seRxisr_of_not_enabled hs fun h => ?_
    rw [(SerialEngine.rxisrEnabled_iff.mp h).1] at h0
    cases h0
  · exact exec_lineRxbyte_eq_next.mpr ⟨hs.admitted (List.mem_singleton_self _) rfl, .inl ⟨h0, rfl⟩⟩
  · obtain ⟨htr, hrx, -⟩ := hinv.engine.before h0
    exact ⟨hinv.engine.enabled.trans htr, hrx⟩

/-- Settles O40: the discarded byte, and the byte in the input register with the overrun recorded. -/
theorem lineRxbyteRule : Obligations.LineRxbyteRule := by
  unfold Obligations.LineRxbyteRule
  intro b s hs
  have ha : admissionRefusal (.lineRxbyte b) s = none := hs.admitted (List.mem_singleton_self _) rfl
  refine ⟨fun h0 => ?_, fun h1 hf => ?_, fun h1 hf => ?_⟩ <;> rw [exec_lineRxbyte_eq_next]
  · exact ⟨ha, .inl ⟨h0, rfl⟩⟩
  · exact ⟨ha, .inr ⟨h1, by simp [State.withSe, hf]⟩⟩
  · exact ⟨ha, .inr ⟨h1, by simp [State.withSe, hf]⟩⟩

end Sys2Proof.Proofs
end

section
/-! SUPPORT. What a step can do: its input's operation, the start of one, or one micro-step, each once (rules R78, R79,
R113). -/

namespace Sys2Proof.Machine

open Sys2Proof.Config

/-! ### One micro-step -/

/-- What the next micro-step of the operation `f` in progress can leave (rules R146, R150, R151). -/
inductive Took (f : Progress) (s : State) : State → Prop
  | pushHeld (b : Byte) (hop : f.op = .push b) (hu : f.upc = .u1) (hf : s.rb.isFull s.params.variant = true) :
      Took f s (s.finish f [ccDone, boolByte false])
  | pushTested (b : Byte) (hop : f.op = .push b) (hu : f.upc = .u1) (hf : s.rb.isFull s.params.variant = false) :
      Took f s (s.withFg (some { f with flag := false, upc := .u2 }))
  | pushStored (b : Byte) (hop : f.op = .push b) (hu : f.upc = .u2) :
      Took f s ((s.withRb (s.rb.store b)).withFg (some { f with upc := .u3 }))
  | pushAdvanced (b : Byte) (hop : f.op = .push b) (hu : f.upc = .u3) (hv : s.params.variant = .explicit) :
      Took f s ((s.withRb s.rb.advanceHead).withFg (some { f with upc := .u4 }))
  | pushPublished (b : Byte) (hop : f.op = .push b) (hu : f.upc = .u3) (hv : s.params.variant = .derived) :
      Took f s ((s.withRb s.rb.advanceHead).finish f [ccDone, boolByte true])
  | pushCounted (b : Byte) (hop : f.op = .push b) (hu : f.upc = .u4) (hv : s.params.variant = .explicit) :
      Took f s ((s.withRb (s.rb.countUp .explicit)).finish f [ccDone, boolByte true])
  | popEmpty (hop : f.op = .pop ∨ f.op = .recv) (hu : f.upc = .u1)
      (he : (s.buf (microBuf f.op)).isEmpty s.params.variant = true) : Took f s (s.finish f [ccDone, defaultByte])
  | popTested (hop : f.op = .pop ∨ f.op = .recv) (hu : f.upc = .u1)
      (he : (s.buf (microBuf f.op)).isEmpty s.params.variant = false) :
      Took f s (s.withFg (some { f with flag := false, upc := .u2 }))
  | popRead (hop : f.op = .pop ∨ f.op = .recv) (hu : f.upc = .u2) :
      Took f s (s.withFg (some { f with
        val := slotByte (microBuf f.op) (s.buf (microBuf f.op)).slots (s.buf (microBuf f.op)).tail.toNat, upc := .u3 }))
  | popAdvanced (hop : f.op = .pop ∨ f.op = .recv) (hu : f.upc = .u3) (hv : s.params.variant = .explicit) :
      Took f s ((s.withBuf (microBuf f.op) (s.buf (microBuf f.op)).advanceTail).withFg (some { f with upc := .u4 }))
  | popReleased (hop : f.op = .pop ∨ f.op = .recv) (hu : f.upc = .u3) (hv : s.params.variant = .derived) :
      Took f s ((s.withBuf (microBuf f.op) (s.buf (microBuf f.op)).advanceTail).finish f [ccDone, f.val])
  | popCounted (hop : f.op = .pop ∨ f.op = .recv) (hu : f.upc = .u4) (hv : s.params.variant = .explicit) :
      Took f s ((s.withBuf (microBuf f.op) ((s.buf (microBuf f.op)).countDown .explicit)).finish f [ccDone, f.val])
  | peekEmpty (hop : f.op = .peek) (hu : f.upc = .u1) (he : s.rb.isEmpty s.params.variant = true) :
      Took f s (s.finish f [ccDone, defaultByte])
  | peekTested (hop : f.op = .peek) (hu : f.upc = .u1) (he : s.rb.isEmpty s.params.variant = false) :
      Took f s (s.withFg (some { f with flag := false, upc := .u2 }))
  | peekRead (hop : f.op = .peek) (hu : f.upc = .u2) :
      Took f s (s.finish f [ccDone, slotByte .rb s.rb.slots s.rb.tail.toNat])
  | emptyAnswered (hop : f.op = .empty) (hu : f.upc = .u1) :
      Took f s (s.finish f [ccDone, boolByte (s.rb.isEmpty s.params.variant)])
  | fullAnswered (hop : f.op = .full) (hu : f.upc = .u1) :
      Took f s (s.finish f [ccDone, boolByte (s.rb.isFull s.params.variant)])
  | occAnswered (hop : f.op = .occ) (hu : f.upc = .u1) :
      Took f s (s.finish f (ccDone :: idxBytes (BitVec.ofNat 16 (s.rb.occ s.params.variant))))

section
variable {f : Progress} {s t : State}

theorem took_of_microPush {b : Byte} (hop : f.op = .push b) (h : microPush b f s = .next t) : Took f s t := by
  cases hu : f.upc with
  | u1 =>
    cases hf : s.rb.isFull s.params.variant with
    | true =>
      obtain rfl := Host.Outcome.next.inj ((microPush_test_of_full hu hf).symm.trans h)
      exact .pushHeld b hop hu hf
    | false =>
      obtain rfl := Host.Outcome.next.inj ((microPush_test_of_room hu hf).symm.trans h)
      exact .pushTested b hop hu hf
  | u2 =>
    simp only [microPush, hu, andThen_eq_next, memWrite_eq_next] at h
    obtain ⟨q, ⟨-, rfl⟩, h⟩ := h
    obtain rfl := Host.Outcome.next.inj h
    exact .pushStored b hop hu
  | u3 =>
    cases hv : s.params.variant with
    | explicit =>
      obtain rfl := Host.Outcome.next.inj ((microPush_advance_explicit hu hv).symm.trans h)
      exact .pushAdvanced b hop hu hv
    | derived =>
      obtain rfl := Host.Outcome.next.inj ((microPush_advance_derived hu hv).symm.trans h)
      exact .pushPublished b hop hu hv
  | u4 =>
    cases hv : s.params.variant with
    | explicit =>
      obtain rfl := Host.Outcome.next.inj ((microPush_count hu hv).symm.trans h)
      exact .pushCounted b hop hu hv
    | derived => simp [microPush, hu, hv] at h

theorem took_of_microPop (hop : f.op = .pop ∨ f.op = .recv) (h : microPop (microBuf f.op) f s = .next t) :
    Took f s t := by
  cases hu : f.upc with
  | u1 =>
    cases he : (s.buf (microBuf f.op)).isEmpty s.params.variant with
    | true =>
      obtain rfl := Host.Outcome.next.inj ((microPop_test_of_empty _ hu he).symm.trans h)
      exact .popEmpty hop hu he
    | false =>
      obtain rfl := Host.Outcome.next.inj ((microPop_test_of_nonempty _ hu he).symm.trans h)
      exact .popTested hop hu he
  | u2 =>
    simp only [microPop, hu, andThen_eq_next, memRead_eq_next] at h
    obtain ⟨v, ⟨-, rfl⟩, h⟩ := h
    obtain rfl := Host.Outcome.next.inj h
    exact .popRead hop hu
  | u3 =>
    cases hv : s.params.variant with
    | explicit =>
      obtain rfl := Host.Outcome.next.inj ((microPop_advance_explicit _ hu hv).symm.trans h)
      exact .popAdvanced hop hu hv
    | derived =>
      obtain rfl := Host.Outcome.next.inj ((microPop_advance_derived _ hu hv).symm.trans h)
      exact .popReleased hop hu hv
  | u4 =>
    cases hv : s.params.variant with
    | explicit =>
      obtain rfl := Host.Outcome.next.inj ((microPop_count _ hu hv).symm.trans h)
      exact .popCounted hop hu hv
    | derived => simp [microPop, hu, hv] at h

theorem took_of_microPeek (hop : f.op = .peek) (h : microPeek f s = .next t) : Took f s t := by
  cases hu : f.upc with
  | u1 =>
    cases he : s.rb.isEmpty s.params.variant with
    | true =>
      obtain rfl := Host.Outcome.next.inj ((microPeek_test_of_empty hu he).symm.trans h)
      exact .peekEmpty hop hu he
    | false =>
      obtain rfl := Host.Outcome.next.inj ((microPeek_test_of_nonempty hu he).symm.trans h)
      exact .peekTested hop hu he
  | u2 =>
    simp only [microPeek, hu, andThen_eq_next, memRead_eq_next] at h
    obtain ⟨v, ⟨-, rfl⟩, h⟩ := h
    obtain rfl := Host.Outcome.next.inj h
    exact .peekRead hop hu
  | u3 => simp [microPeek, hu] at h
  | u4 => simp [microPeek, hu] at h

/-- A query has its one micro-step and no other. -/
theorem microQuery_eq_next {bytes : List Byte} :
    microQuery bytes f s = .next t ↔ f.upc = .u1 ∧ t = s.finish f bytes := by
  cases hu : f.upc <;> simp [microQuery, hu, @eq_comm _ t]

theorem took_of_microStep (hs : s.fg = some f) (h : microStep s = .next t) : Took f s t := by
  cases hop : f.op with
  | push b => exact took_of_microPush hop ((microStep_of_push hs hop).symm.trans h)
  | pop =>
    have hbuf : microBuf f.op = .rb := by rw [hop]; rfl
    refine took_of_microPop (.inl hop) ?_
    rw [hbuf, ← microStep_of_pop hs hop, h]
  | recv =>
    have hbuf : microBuf f.op = .rxq := by rw [hop]; rfl
    refine took_of_microPop (.inr hop) ?_
    rw [hbuf, ← microStep_of_recv hs hop, h]
  | peek => exact took_of_microPeek hop ((microStep_of_peek hs hop).symm.trans h)
  | empty =>
    obtain ⟨hu, rfl⟩ := microQuery_eq_next.mp ((microStep_of_empty hs hop).symm.trans h)
    exact .emptyAnswered hop hu
  | full =>
    obtain ⟨hu, rfl⟩ := microQuery_eq_next.mp ((microStep_of_full hs hop).symm.trans h)
    exact .fullAnswered hop hu
  | occ =>
    obtain ⟨hu, rfl⟩ := microQuery_eq_next.mp ((microStep_of_occ hs hop).symm.trans h)
    exact .occAnswered hop hu

end

/-! ### The start -/

theorem requireReady_eq_next {op : MicroOp} {s t : State} {k : Result State} : requireReady op s k = .next t ↔
    ((op ≠ .recv → s.rb.bound = true) ∧ (op = .recv → s.se.inited = true ∧ s.se.rxq.bound = true)) ∧ k = .next t := by
  by_cases hop : op = .recv
  · subst hop
    simp [requireReady, requireInited_eq_next, requireBound_eq_next, and_assoc]
  · rw [requireReady_of_rb hop, requireBound_eq_next]
    simp [hop]

theorem beginMicro_eq_next {i : Instr} {op : MicroOp} {s t : State} : beginMicro i op s = .next t ↔
    admissionRefusal i s = none ∧
      ((op ≠ .recv → s.rb.bound = true) ∧ (op = .recv → s.se.inited = true ∧ s.se.rxq.bound = true)) ∧
      t = s.withFg (some { op := op, port := s.issue.port, upc := .u1, flag := false, val := defaultByte }) := by
  rw [beginMicro, admit_eq_next, requireReady_eq_next]
  simp [@eq_comm _ t]

/-! ### The step -/

/-- The machine with its input taken: another latch and other pending inputs. -/
def State.fetched (s : State) (x : Issue) (xs : List Input) : State := { s with issue := x, inputs := xs }

@[simp] theorem State.fetched_params (s : State) (x : Issue) (xs : List Input) : (s.fetched x xs).params = s.params := rfl
@[simp] theorem State.fetched_rb (s : State) (x : Issue) (xs : List Input) : (s.fetched x xs).rb = s.rb := rfl
@[simp] theorem State.fetched_se (s : State) (x : Issue) (xs : List Input) : (s.fetched x xs).se = s.se := rfl
@[simp] theorem State.fetched_fg (s : State) (x : Issue) (xs : List Input) : (s.fetched x xs).fg = s.fg := rfl
@[simp] theorem State.fetched_issue (s : State) (x : Issue) (xs : List Input) : (s.fetched x xs).issue = x := rfl
@[simp] theorem State.fetched_responses (s : State) (x : Issue) (xs : List Input) :
    (s.fetched x xs).responses = s.responses := rfl
@[simp] theorem State.fetched_buf (s : State) (x : Issue) (xs : List Input) (id : BufId) :
    (s.fetched x xs).buf id = s.buf id := by cases id <;> rfl

/-- What a step that completes was: no input, an atomic operation, the start of one in micro-steps, or one micro-step. -/
inductive Stepped (s : State) : State → Prop
  | idle (hp : s.performs = none) (hr : s.resumes = none) : Stepped s s
  | atomic (i : Instr) (x : Issue) (xs : List Input) (t : State) (hp : s.performs = some i) (hr : s.resumes = none)
      (h : exec i (s.fetched x xs) = .next t) : Stepped s t
  | start (i : Instr) (op : MicroOp) (p : Port) (xs : List Input) (t : State) (hp : s.performs = none)
      (hr : s.resumes = none) (hi : microOpOf i = some op)
      (h : beginMicro i op (s.fetched { agent := .fg, port := p } xs) = .next t) : Stepped s t
  | micro (f : Progress) (xs : List Input) (t : State) (hp : s.performs = none) (hr : s.resumes = some f)
      (hs : s.fg = some f) (h : Took f (s.fetched s.issue xs) t) : Stepped s t

section
variable {s t : State} {a : Agent} {p : Port} {bytes : List Byte} {xs : List Input}

/-- A command that completes is one operation of its port's agent. -/
theorem step_of_command_eq_next (hs : s.inputs = .command a p bytes :: xs) (h : step s = .next t) :
    ∃ i ys, s.performs = some i ∧ exec i (s.fetched { agent := a, port := p } ys) = .next t := by
  cases hd : decode bytes with
  | error e => exact nomatch (step_of_decode_error hd (.inl hs)).symm.trans h
  | ok r =>
    obtain ⟨i, rest⟩ := r
    exact ⟨i, _, by simp only [State.performs, hs, hd], (step_of_command hd hs).symm.trans h⟩

theorem stepped_of_step (h : step s = .next t) : Stepped s t := by
  cases hs : s.inputs with
  | nil =>
    obtain rfl := Host.Outcome.next.inj ((step_of_no_inputs hs).symm.trans h)
    exact .idle (by simp only [State.performs, hs]) (by simp only [State.resumes, hs])
  | cons x xs =>
    cases x with
    | command a p bytes =>
      obtain ⟨i, ys, hp, ht⟩ := step_of_command_eq_next hs h
      exact .atomic i _ ys t hp (by simp only [State.resumes, hs]) ht
    | start p bytes =>
      have hr : s.resumes = none := by simp only [State.resumes, hs]
      cases hd : decode bytes with
      | error e => exact nomatch (step_of_decode_error (a := .fg) hd (.inr hs)).symm.trans h
      | ok r =>
        obtain ⟨i, rest⟩ := r
        have ht := (step_of_start hd hs).symm.trans h
        cases hi : microOpOf i with
        | none =>
          rw [startInstr_of_atomic hi] at ht
          exact .atomic i _ _ t (by simp [State.performs, hs, hd, hi]) hr ht
        | some op =>
          rw [startInstr_of_micro hi] at ht
          exact .start i op p _ t (by simp [State.performs, hs, hd, hi]) hr hi ht
    | resume =>
      have ht := (step_of_resume hs).symm.trans h
      cases hf : s.fg with
      | none => simp [microStep, hf] at ht
      | some f =>
        exact .micro f xs t (by simp only [State.performs, hs]) (by simp only [State.resumes, hs, hf]) hf
          (took_of_microStep hf ht)

/-- Performing an input is the step of the state in which it is the next. -/
theorem perform_eq_step (x : Input) (s : State) : perform x s = step (s.fetched s.issue (x :: s.inputs)) := rfl

end

end Sys2Proof.Machine
end

section
/-! SUPPORT. Proofs about the invariant of the machine (rules R27, R43 to R46, R82, R83): its part for one buffer, what
every operation and every micro-step keep of it, and that no step faults. -/

namespace Sys2Proof.Machine

open Sys2Proof.Config

/-! ### The operation in progress, seen from one buffer -/

/-- Bytes of a push in progress on the buffer `id` that are written and not yet counted. -/
def pendingPush (v : RbVariant) (id : BufId) (fg : Option Progress) : Nat :=
  match id with
  | .rb => uncountedPush v fg
  | .txq => 0
  | .rxq => 0

/-- RB.PUSH works at the producer's end. -/
def MicroOp.isPush : MicroOp → Bool
  | .push _ => true
  | _ => false

/-- RB.POP and SE.RECV take a byte. -/
def MicroOp.isPop : MicroOp → Bool
  | .pop => true
  | .recv => true
  | _ => false

/-- RB.POP, SE.RECV and RB.PEEK work at the consumer's end. -/
def MicroOp.isConsumer : MicroOp → Bool
  | .pop => true
  | .recv => true
  | .peek => true
  | _ => false

theorem MicroOp.isPush_iff {op : MicroOp} : op.isPush = true ↔ ∃ b, op = .push b := by
  cases op <;> simp [MicroOp.isPush]

theorem MicroOp.isPop_iff {op : MicroOp} : op.isPop = true ↔ op = .pop ∨ op = .recv := by
  cases op <;> simp [MicroOp.isPop]

theorem uncountedPush_some (v : RbVariant) (f : Progress) :
    uncountedPush v (some f) = if f.op.isPush = true ∧ f.upc = .u4 then countLag v else 0 := by
  obtain ⟨op, port, upc, flag, val⟩ := f
  cases op <;> cases upc <;> cases v <;> rfl

theorem unreleasedPop_some (v : RbVariant) (id : BufId) (f : Progress) : unreleasedPop v id (some f) =
    if f.op.isPop = true ∧ microBuf f.op = id ∧ f.upc = .u4 then countLag v else 0 := by
  obtain ⟨op, port, upc, flag, val⟩ := f
  cases op <;> cases upc <;> cases id <;> cases v <;> rfl

section
variable {v : RbVariant} {id : BufId} {fg : Option Progress} {f : Progress}

@[simp] theorem pendingPush_none : pendingPush v id none = 0 := by cases id <;> rfl

@[simp] theorem unreleasedPop_none : unreleasedPop v id none = 0 := rfl

theorem pendingPush_eq_zero (h : ∀ f, fg = some f → microBuf f.op = id → f.op.isPush = true → f.upc ≠ .u4) :
    pendingPush v id fg = 0 := by
  cases fg with
  | none => exact pendingPush_none
  | some f =>
    cases id with
    | rb =>
      refine (uncountedPush_some v f).trans (if_neg fun hf => ?_)
      obtain ⟨b, hb⟩ := MicroOp.isPush_iff.mp hf.1
      exact h f rfl (by rw [hb]; rfl) hf.1 hf.2
    | txq => rfl
    | rxq => rfl

theorem unreleasedPop_eq_zero (h : ∀ f, fg = some f → microBuf f.op = id → f.op.isPop = true → f.upc ≠ .u4) :
    unreleasedPop v id fg = 0 := by
  cases fg with
  | none => rfl
  | some f =>
    rw [unreleasedPop_some, if_neg]
    exact fun hf => h f rfl hf.2.1 hf.1 hf.2.2

theorem pendingPush_of_advanced {b : Byte} (hop : f.op = .push b) (hu : f.upc = .u4) :
    pendingPush v .rb (some f) = countLag v :=
  (uncountedPush_some v f).trans (if_pos ⟨by rw [hop]; rfl, hu⟩)

theorem unreleasedPop_of_advanced (hop : f.op = .pop ∨ f.op = .recv) (hu : f.upc = .u4) :
    unreleasedPop v (microBuf f.op) (some f) = countLag v := by
  rw [unreleasedPop_some, if_pos ⟨MicroOp.isPop_iff.mpr hop, rfl, hu⟩]

/-- The DERIVED variant has no count to lag behind. -/
theorem no_lag_of_derived (hv : v = .derived) : pendingPush v id fg = 0 ∧ unreleasedPop v id fg = 0 := by
  subst hv
  cases fg with
  | none => exact ⟨pendingPush_none, rfl⟩
  | some f =>
    constructor
    · cases id with
      | rb =>
        have h := uncountedPush_some .derived f
        rw [countLag, ite_self] at h
        exact h
      | txq => rfl
      | rxq => rfl
    · rw [unreleasedPop_some, countLag, ite_self]

end

/-- What the operation in progress knows of its buffer `q` (rules R82, R83). -/
def OpKnows (P : Params) (q : RingBuf) (f : Progress) : Prop :=
  match f.op with
  | .push b => PushKnows P q b f.upc
  | .pop => PopKnows P q f.val f.upc
  | .recv => PopKnows P q f.val f.upc
  | .peek => f.upc = .u1 ∨ f.upc = .u2 ∧ q.isEmpty P.variant = false
  | .empty => f.upc = .u1
  | .full => f.upc = .u1
  | .occ => f.upc = .u1

/-- The part of the invariant that speaks of the buffer `id`, with the operation `fg` in progress. -/
structure BufInv (P : Params) (id : BufId) (fg : Option Progress) (q : RingBuf) : Prop where
  sound  : q.Sound P id
  linked : q.Linked P (pendingPush P.variant id fg) (unreleasedPop P.variant id fg)
  knows  : ∀ f, fg = some f → microBuf f.op = id → OpKnows P q f

/-- The ports on which an operation with micro-steps is accepted (rule R101). -/
def MicroOp.AnswersOn (op : MicroOp) (p : Port) : Prop :=
  match op with
  | .push _ => p = .rbProducer
  | .pop => p = .rbConsumer
  | .peek => p = .rbConsumer
  | .empty => isRbPort p = true
  | .full => isRbPort p = true
  | .occ => isRbPort p = true
  | .recv => p = .seForeground

/-- The operation in progress was admitted on its port, and what it needs is there (rules R31, R131, R174). -/
structure Admitted (s : State) (f : Progress) : Prop where
  owned : portOwner s.params f.port = .fg
  port  : f.op.AnswersOn f.port
  ready : (f.op ≠ .recv → s.rb.bound = true) ∧ (f.op = .recv → s.se.inited = true)

theorem progressKnows_iff {s : State} {f : Progress} :
    portOwner s.params f.port = .fg ∧ ProgressKnows s f ↔ Admitted s f ∧ OpKnows s.params (s.buf (microBuf f.op)) f := by
  obtain ⟨op, port, upc, flag, val⟩ := f
  constructor
  · rintro ⟨ho, hk⟩
    cases op <;> obtain ⟨hp, hr, hk⟩ := hk <;> exact ⟨⟨ho, hp, by simp [hr]⟩, hk⟩
  · rintro ⟨⟨ho, hp, hr⟩, hk⟩
    cases op <;> exact ⟨ho, hp, by simpa using hr, hk⟩

/-- The invariant, buffer by buffer. -/
theorem State.inv_iff {s : State} : s.Inv ↔
    (∀ id, BufInv s.params id s.fg (s.buf id)) ∧ EngineSound s ∧ ∀ f, s.fg = some f → Admitted s f := by
  have hrx : pendingPush s.params.variant .rxq s.fg = 0 := rfl
  have htx : pendingPush s.params.variant .txq s.fg = 0 := rfl
  have htx' : unreleasedPop s.params.variant .txq s.fg = 0 :=
    unreleasedPop_eq_zero fun f _ hid => by cases hop : f.op <;> rw [hop] at hid <;> cases hid
  constructor
  · intro h
    have hk (f : Progress) (hf : s.fg = some f) := progressKnows_iff.mp (h.progress f hf)
    have hknows (id : BufId) (f : Progress) (hf : s.fg = some f) (hid : microBuf f.op = id) :
        OpKnows s.params (s.buf id) f := hid ▸ (hk f hf).2
    refine ⟨fun id => ?_, h.engine, fun f hf => (hk f hf).1⟩
    cases id with
    | rb => exact ⟨h.rbSound, h.rbLinked, hknows .rb⟩
    | txq => exact ⟨h.txSound, by rw [htx, htx']; exact h.txLinked, hknows .txq⟩
    | rxq => exact ⟨h.rxSound, by rw [hrx]; exact h.rxLinked, hknows .rxq⟩
  · rintro ⟨hbuf, hengine, hadm⟩
    have hl := (hbuf .txq).linked
    rw [htx, htx'] at hl
    exact ⟨(hbuf .rb).sound, (hbuf .txq).sound, (hbuf .rxq).sound, (hbuf .rb).linked, hl, (hbuf .rxq).linked,
      hengine, fun f hf => progressKnows_iff.mpr ⟨hadm f hf, (hbuf _).knows f hf rfl⟩⟩

section
variable {P : Params} {id : BufId} {fg fg' : Option Progress} {q q' : RingBuf} {f : Progress} {w r : Nat}
  {xs : List Byte}

/-! ### The part for one buffer -/

/-- The bytes in the buffer, those of an operation in progress counted as it has got to move them. -/
def RingBuf.bytes (P : Params) (id : BufId) (fg : Option Progress) (q : RingBuf) : List Byte :=
  q.live P id (pendingPush P.variant id fg) (unreleasedPop P.variant id fg)

theorem BufInv.holds (h : BufInv P id fg q) :
    q.Holds P id (pendingPush P.variant id fg) (unreleasedPop P.variant id fg) (q.bytes P id fg) :=
  h.linked.holds h.sound no_lag_of_derived

/-- With no push in progress every byte written is counted. -/
theorem BufInv.holds_of_no_push (h : BufInv P id fg q)
    (hfg : ∀ f, fg = some f → microBuf f.op = id → f.op.isPush = false) :
    q.Holds P id 0 (unreleasedPop P.variant id fg) (q.bytes P id fg) := by
  have hh := h.holds
  rwa [pendingPush_eq_zero fun f hf hid hp => by rw [hfg f hf hid] at hp; cases hp] at hh

/-- With no pop in progress every byte counted is still there. -/
theorem BufInv.holds_of_no_pop (h : BufInv P id fg q)
    (hfg : ∀ f, fg = some f → microBuf f.op = id → f.op.isPop = false) :
    q.Holds P id (pendingPush P.variant id fg) 0 (q.bytes P id fg) := by
  have hh := h.holds
  rwa [unreleasedPop_eq_zero fun f hf hid hp => by rw [hfg f hf hid] at hp; cases hp] at hh

theorem RingBuf.Holds.bufInv (h : q.Holds P id w r xs) (hw : pendingPush P.variant id fg = w)
    (hr : unreleasedPop P.variant id fg = r) (hk : ∀ f, fg = some f → microBuf f.op = id → OpKnows P q f) :
    BufInv P id fg q := by
  subst hw hr
  exact ⟨h.sound, h.linked, hk⟩

/-- With no operation in progress on the buffer nothing is pending there. -/
theorem BufInv.holds_of_quiet (h : BufInv P id fg q) (hfg : ∀ f, fg = some f → microBuf f.op ≠ id) :
    q.Holds P id 0 0 (q.contents P id) := by
  have hh := h.holds
  rwa [RingBuf.bytes, pendingPush_eq_zero fun f hf hid => absurd hid (hfg f hf),
    unreleasedPop_eq_zero fun f hf hid => absurd hid (hfg f hf), RingBuf.live_zero] at hh

/-- An operation on another buffer may begin, go on and end. -/
theorem BufInv.of_quiet (h : BufInv P id fg q) (hfg : ∀ f, fg = some f → microBuf f.op ≠ id)
    (hfg' : ∀ f, fg' = some f → microBuf f.op ≠ id) : BufInv P id fg' q :=
  (h.holds_of_quiet hfg).bufInv (pendingPush_eq_zero fun f hf hid => absurd hid (hfg' f hf))
    (unreleasedPop_eq_zero fun f hf hid => absurd hid (hfg' f hf)) fun f hf hid => absurd hid (hfg' f hf)

/-! ### What other agents leave true for the operation in progress -/

theorem RingBuf.Holds.isEmpty_eq_false (h : q.Holds P id 0 r xs) (hx : xs ≠ []) : q.isEmpty P.variant = false := by
  have hl := h.length
  have hpos := List.length_pos_iff.mpr hx
  exact h.sound.isEmpty_eq_false_iff.mpr (by omega)

theorem RingBuf.Holds.isEmpty_push (h : q.Holds P id 0 r xs) (hf : q.isFull P.variant = false) (b : Byte) :
    ((q.store b).advanceHead.countUp P.variant).isEmpty P.variant = false :=
  (h.push hf).isEmpty_eq_false (by simp)

/-- A pop leaves room. -/
theorem RingBuf.Holds.isFull_pop {x : Byte} (h : q.Holds P id w 0 (x :: xs)) (he : q.isEmpty P.variant = false) :
    (q.advanceTail.countDown P.variant).isFull P.variant = false := by
  have hp := h.pop he
  have hl := h.length
  have hl' := hp.length
  have ho := h.sound.occ_le_usable
  have husable : (q.advanceTail.countDown P.variant).usable P.variant = q.usable P.variant := by
    simp only [RingBuf.usable, RingBuf.countDown_cap, RingBuf.advanceTail_cap]
  rw [List.length_cons] at hl
  rw [hp.sound.isFull_eq_false_iff, husable]
  omega

/-- "Not empty", and the byte read, stay true while the producer pushes (rule R83). -/
theorem PopKnows.push {v : Byte} {u : Upc} (hk : PopKnows P q v u) (h : q.Holds P id 0 r xs)
    (hr : u ≠ .u4 → r = 0) (hf : q.isFull P.variant = false) (b : Byte) :
    PopKnows P ((q.store b).advanceHead.countUp P.variant) v u := by
  cases u with
  | u1 => trivial
  | u2 => exact h.isEmpty_push hf b
  | u3 =>
    obtain ⟨he, hv⟩ := hk
    obtain rfl := hr nofun
    obtain ⟨x, ys, rfl⟩ := List.exists_cons_of_ne_nil (h.ne_nil he)
    refine ⟨h.isEmpty_push hf b, ?_⟩
    rw [RingBuf.Holds.read_tail (h.push hf), ← h.read_tail, hv]
  | u4 => exact hk

/-- "Not full", and the byte stored, stay true while the consumer pops (rule R83). -/
theorem PushKnows.pop {b x : Byte} {u : Upc} (hk : PushKnows P q b u) (h : q.Holds P id w 0 (x :: xs))
    (he : q.isEmpty P.variant = false) : PushKnows P (q.advanceTail.countDown P.variant) b u := by
  cases u with
  | u1 => trivial
  | u2 => exact h.isFull_pop he
  | u3 => exact ⟨h.isFull_pop he, by simpa using hk.2⟩
  | u4 => exact hk

theorem OpKnows.push (hk : OpKnows P q f) (hop : f.op.isPush = false) (h : q.Holds P id 0 r xs)
    (hr : f.op.isPop = true → f.upc ≠ .u4 → r = 0) (hf : q.isFull P.variant = false) (b : Byte) :
    OpKnows P ((q.store b).advanceHead.countUp P.variant) f := by
  unfold OpKnows at hk ⊢
  cases hop' : f.op <;> rw [hop'] at hk hop hr
  case push => cases hop
  case pop | recv => exact hk.push h (hr rfl) hf b
  case peek => exact hk.imp_right fun hk => ⟨hk.1, h.isEmpty_push hf b⟩
  all_goals exact hk

theorem OpKnows.pop {x : Byte} (hk : OpKnows P q f) (hop : f.op.isConsumer = false) (h : q.Holds P id w 0 (x :: xs))
    (he : q.isEmpty P.variant = false) : OpKnows P (q.advanceTail.countDown P.variant) f := by
  unfold OpKnows at hk ⊢
  cases hop' : f.op <;> rw [hop'] at hk hop
  case push => exact hk.pop h he
  case pop | recv | peek => cases hop
  all_goals exact hk

/-! ### What an atomic operation keeps -/

/-- What an atomic operation may not do to a buffer while `op` is in progress on it: the other end is another agent's,
and RB.INIT wants the buffer quiescent (rules R22, R23, R135). -/
def Touch.clashes : Touch → MicroOp → Bool
  | .leave, _ => false
  | .build, _ => true
  | .push _, op => op.isPush
  | .pop, op => op.isConsumer

theorem MicroOp.isPop_eq_false {op : MicroOp} (h : op.isConsumer = false) : op.isPop = false := by
  cases op
  case pop | recv => cases h
  all_goals rfl

theorem BufInv.touched {u : Touch} (h : BufInv P id fg q) (ht : q.Touched P id u q')
    (hu : ∀ f, fg = some f → microBuf f.op = id → u.clashes f.op = false) : BufInv P id fg q' := by
  have hquiet (hb : u = .build) (f : Progress) (hf : fg = some f) : microBuf f.op ≠ id := fun hid => by
    have := hu f hf hid
    rw [hb] at this
    cases this
  have hbuild (hb : u = .build) (hq : q'.Holds P id 0 0 []) : BufInv P id fg q' :=
    BufInv.of_quiet (fg := none) (hq.bufInv pendingPush_none rfl nofun) nofun (hquiet hb)
  cases ht with
  | leave | full | empty => exact h
  | init c hc => exact hbuild rfl (h.sound.holds_init hc)
  | unbind => exact hbuild rfl h.sound.holds_unbind
  | rebuild => exact hbuild rfl (h.sound.holds_unbind.sound.holds_init (Nat.le_refl _))
  | push b hf =>
    have hh := h.holds_of_no_push hu
    have hw : pendingPush P.variant id fg = 0 := pendingPush_eq_zero fun f hfg hid hp =>
      nomatch (hu f hfg hid).symm.trans hp
    refine (hh.push hf).bufInv hw rfl fun f hfg hid => ?_
    refine (h.knows f hfg hid).push (hu f hfg hid) hh (fun hp hne => unreleasedPop_eq_zero ?_) hf b
    rw [hfg]
    rintro _ ⟨⟩ _ _
    exact hne
  | pop he =>
    have hnp (f : Progress) (hfg : fg = some f) (hid : microBuf f.op = id) : f.op.isPop = false :=
      MicroOp.isPop_eq_false (hu f hfg hid)
    have hh := h.holds_of_no_pop hnp
    have hr : unreleasedPop P.variant id fg = 0 := unreleasedPop_eq_zero fun f hfg hid hp =>
      nomatch (hnp f hfg hid).symm.trans hp
    obtain ⟨x, ys, hx⟩ := List.exists_cons_of_ne_nil (hh.ne_nil he)
    rw [hx] at hh
    exact (hh.pop he).bufInv rfl hr fun f hfg hid => (h.knows f hfg hid).pop (hu f hfg hid) hh he

end

end Sys2Proof.Machine
end

section
/-! SUPPORT. Proofs that every step keeps the invariant of the machine, and that none faults. -/

namespace Sys2Proof.Machine

open Sys2Proof.Config

/-! ### The two sides of the engine -/

/-- The operations that write the transmit side of the engine. -/
def isTransmit : Instr → Bool
  | .seInit _ _ _ _ _ _ _ _ | .seSend _ | .seTxisr | .lineTxdone => true
  | _ => false

/-- The operations that write the receive side of the engine, its enable apart. -/
def isReceive : Instr → Bool
  | .seInit _ _ _ _ _ _ _ _ | .seRecv | .seRxisr | .lineRxbyte _ => true
  | _ => false

section
variable {i : Instr} {s t : State}

/-- Every other operation leaves the transmit side and the configuration as they are. -/
theorem exec_keeps_transmit (h : exec i s = .next t) (hi : isTransmit i = false) : t.se = { s.se with
    rxq := t.se.rxq, rxBuf := t.se.rxBuf, rxFull := t.se.rxFull, rxIe := t.se.rxIe, rxOvr := t.se.rxOvr
    rxDrop := t.se.rxDrop, rxLine := t.se.rxLine } := by
  cases i
  case seInit | seSend | seTxisr | lineTxdone => cases hi
  case seRecv => obtain ⟨-, -, q, v, -, rfl⟩ := exec_seRecv_eq_next.mp h; rfl
  case seEi => obtain ⟨-, -, rfl⟩ := exec_seEi_eq_next.mp h; rfl
  case seDi => obtain ⟨-, -, rfl⟩ := exec_seDi_eq_next.mp h; rfl
  case seRxempty => obtain ⟨-, -, rfl⟩ := exec_seRxempty_eq_next.mp h; rfl
  case seStatus => obtain ⟨-, rfl⟩ := exec_seStatus_eq_next.mp h; rfl
  case seRxdrop => obtain ⟨-, rfl⟩ := exec_seRxdrop_eq_next.mp h; rfl
  case seCfgrd => obtain ⟨-, -, -, rfl⟩ := exec_seCfgrd_eq_next.mp h; rfl
  case seRxisr => obtain ⟨-, -, -, -, q, ok, -, rfl⟩ := exec_seRxisr_eq_next.mp h; rfl
  case lineRxbyte => obtain ⟨-, ⟨-, rfl⟩ | ⟨-, rfl⟩⟩ := exec_lineRxbyte_eq_next.mp h <;> rfl
  all_goals
    obtain ⟨q, bytes, rfl⟩ := exec_rb_shape h (by simp [Instr.opcode, opClass])
    rfl

/-- Every other operation leaves the receive side and the configuration as they are. -/
theorem exec_keeps_receive (h : exec i s = .next t) (hi : isReceive i = false) : t.se = { s.se with
    txq := t.se.txq, transmitting := t.se.transmitting, txBuf := t.se.txBuf, txReady := t.se.txReady
    txIe := t.se.txIe, txLine := t.se.txLine, rxIe := t.se.rxIe } := by
  cases i
  case seInit | seRecv | seRxisr | lineRxbyte => cases hi
  case seSend =>
    obtain ⟨-, -, ⟨-, -, rfl⟩ | ⟨-, -, q, ok, -, rfl⟩ | ⟨-, -, rfl⟩⟩ := exec_seSend_eq_next.mp h <;> rfl
  case seEi => obtain ⟨-, -, rfl⟩ := exec_seEi_eq_next.mp h; rfl
  case seDi => obtain ⟨-, -, rfl⟩ := exec_seDi_eq_next.mp h; rfl
  case seRxempty => obtain ⟨-, -, rfl⟩ := exec_seRxempty_eq_next.mp h; rfl
  case seStatus => obtain ⟨-, rfl⟩ := exec_seStatus_eq_next.mp h; rfl
  case seRxdrop => obtain ⟨-, rfl⟩ := exec_seRxdrop_eq_next.mp h; rfl
  case seCfgrd => obtain ⟨-, -, -, rfl⟩ := exec_seCfgrd_eq_next.mp h; rfl
  case seTxisr =>
    obtain ⟨-, -, -, -, ⟨-, rfl⟩ | ⟨-, q, v, -, rfl⟩⟩ := exec_seTxisr_eq_next.mp h <;> rfl
  case lineTxdone => obtain ⟨-, -, rfl⟩ := exec_lineTxdone_eq_next.mp h; rfl
  all_goals
    obtain ⟨q, bytes, rfl⟩ := exec_rb_shape h (by simp [Instr.opcode, opClass])
    rfl

/-- SE.INIT is the one operation on both sides. -/
theorem isInit_of_transmit_receive (ht : isTransmit i = true) (hr : isReceive i = true) :
    ∃ p0 p1 p2 p3 p4 p5 p6 p7, i = .seInit p0 p1 p2 p3 p4 p5 p6 p7 := by
  cases i
  case seInit => exact ⟨_, _, _, _, _, _, _, _, rfl⟩
  case seSend | seTxisr | lineTxdone => cases hr
  all_goals cases ht

/-- Only SE.INIT writes `inited` (rule R35). -/
theorem exec_keeps_inited (h : exec i s = .next t)
    (hi : ∀ p0 p1 p2 p3 p4 p5 p6 p7, i ≠ .seInit p0 p1 p2 p3 p4 p5 p6 p7) : t.se.inited = s.se.inited := by
  cases ht : isTransmit i with
  | false => rw [exec_keeps_transmit h ht]
  | true =>
    cases hr : isReceive i with
    | false => rw [exec_keeps_receive h hr]
    | true =>
      obtain ⟨p0, p1, p2, p3, p4, p5, p6, p7, hinit⟩ := isInit_of_transmit_receive ht hr
      exact absurd hinit (hi p0 p1 p2 p3 p4 p5 p6 p7)

/-- What every operation leaves alone (rules R31, R234, R236). -/
theorem exec_keeps (h : exec i s = .next t) :
    t.params = s.params ∧ t.fg = s.fg ∧ t.issue = s.issue ∧ t.inputs = s.inputs := by
  obtain ⟨hp, hf, hi, hx, -⟩ := Proofs.operationsStayInTheirUnit i s t h
  exact ⟨hp, hf, hi, hx⟩

end

/-! ### Whose buffer it is -/

section
variable {i : Instr} {s t : State} {f : Progress}

theorem admissionRefusal_of_exec (h : exec i s = .next t) : admissionRefusal i s = none := by
  cases ha : admissionRefusal i s with
  | none => rfl
  | some r => exact nomatch (exec_of_admissionRefusal ha).symm.trans h

theorem touchOf_rb_eq_build : touchOf .rb i s = .build ↔ ∃ c, i = .rbInit c := by
  cases i
  case rbInit c => exact ⟨fun _ => ⟨c, rfl⟩, fun _ => rfl⟩
  all_goals exact ⟨nofun, nofun⟩

theorem touchOf_rxq_eq_build :
    touchOf .rxq i s = .build ↔ ∃ p0 p1 p2 p3 p4 p5 p6 p7, i = .seInit p0 p1 p2 p3 p4 p5 p6 p7 := by
  cases i
  case seInit => exact ⟨fun _ => ⟨_, _, _, _, _, _, _, _, rfl⟩, fun _ => rfl⟩
  all_goals exact ⟨nofun, nofun⟩

/-- An admitted command meets a busy foreground on another agent's port only (rule R286). -/
theorem port_ne_of_busy (ha : admissionRefusal i s = none) (hs : s.fg = some f) {p : Port}
    (hp : portOwner s.params p = .fg) : s.issue.port ≠ p := by
  obtain ⟨-, ho, hfg, -⟩ := admissionRefusal_eq_none.mp ha
  rintro rfl
  rw [hfg (ho.trans hp)] at hs
  cases hs

theorem port_of_mem_singleton {p : Port} (ha : admissionRefusal i s = none) (hp : portsOf i = [p]) :
    s.issue.port = p := by
  obtain ⟨hmem, -⟩ := admissionRefusal_eq_none.mp ha
  rw [hp] at hmem
  exact List.mem_singleton.mp hmem

/-- While the foreground has an operation in progress on a buffer, what other agents may do there is at the other end
(rules R22, R23, R33, R135). -/
theorem touchOf_clashes_eq_false (ha : admissionRefusal i s = none) (hs : s.fg = some f) (hf : Admitted s f) :
    (touchOf (microBuf f.op) i s).clashes f.op = false := by
  have howned := port_ne_of_busy ha hs hf.owned
  have hport := hf.port
  cases hu : touchOf (microBuf f.op) i s with
  | leave => rfl
  | build =>
    exfalso
    cases hid : microBuf f.op <;> rw [hid] at hu
    case rb =>
      obtain ⟨c, rfl⟩ := touchOf_rb_eq_build.mp hu
      obtain ⟨-, -, -, hb⟩ := admissionRefusal_eq_none.mp ha
      simp [initDuringOperation, State.inProgressOn, hs, hid] at hb
    case txq => cases hop : f.op <;> rw [hop] at hid <;> cases hid
    case rxq =>
      obtain ⟨p0, p1, p2, p3, p4, p5, p6, p7, rfl⟩ := touchOf_rxq_eq_build.mp hu
      exact port_ne_of_busy ha hs rfl (port_of_mem_singleton ha rfl)
  | push b =>
    cases hop : f.op <;> rw [hop] at hu hport
    case push c =>
      obtain rfl := touchOf_rb_eq_push.mp hu
      exact absurd ((port_of_mem_singleton ha rfl).trans (Eq.symm hport)) howned
    all_goals rfl
  | pop =>
    cases hop : f.op <;> rw [hop] at hu hport
    case pop | peek =>
      obtain rfl := touchOf_rb_eq_pop.mp hu
      exact absurd ((port_of_mem_singleton ha rfl).trans (Eq.symm hport)) howned
    case recv =>
      obtain rfl := touchOf_rxq_eq_pop.mp hu
      exact absurd ((port_of_mem_singleton ha rfl).trans (Eq.symm hport)) howned
    all_goals rfl

/-! ### The engine's part -/

/-- The engine's part of the invariant reads the instance and these registers. -/
theorem EngineSound.congr (h : EngineSound s) (hp : t.params = s.params) (he : t.se =
    { s.se with
      rxq := t.se.rxq, txBuf := t.se.txBuf, rxBuf := t.se.rxBuf, txLine := t.se.txLine, rxLine := t.se.rxLine
      cfg := t.se.cfg })
    (hb : t.se.rxq.bound = s.se.rxq.bound) (hc : t.se.rxq.cap = s.se.rxq.cap) : EngineSound t := by
  obtain ⟨henabled, hidle, hbefore, hafter, husable⟩ := h
  rw [← hb] at hbefore hafter
  rw [← hc] at hafter
  constructor <;> rw [he] <;> simp only [hp] <;> assumption

theorem RingBuf.push_bound_cap {P : Params} {id : BufId} {q q' : RingBuf} {b : Byte} {ok : Bool}
    (h : q.push P id b = .next (q', ok)) : q'.bound = q.bound ∧ q'.cap = q.cap := by
  rw [(RingBuf.push_frame h).1]
  exact ⟨rfl, rfl⟩

theorem RingBuf.pop_bound_cap {P : Params} {id : BufId} {q q' : RingBuf} {v : Byte}
    (h : q.pop P id = .next (q', v)) : q'.bound = q.bound ∧ q'.cap = q.cap := by
  rw [(RingBuf.pop_frame h).1]
  exact ⟨rfl, rfl⟩

/-- SE.INIT leaves an Idle engine with empty queues, configured or not inited (rule R170). -/
theorem engineSound_afterInit {P : Params} {c : SerialConfig} {valid : Bool}
    (hp : s.params = P)
    (hv : valid = true → 1 ≤ usableOf P.variant P.txCap ∧ 1 ≤ usableOf P.variant P.rxCap)
    {e : SerialEngine} (ht : s.se = e.afterInit P c valid) : EngineSound s := by
  subst hp
  have hempty (v : RbVariant) (c : Idx) (q : RingBuf) : (q.unbind.init v c).isEmpty v = true := by cases v <;> rfl
  cases valid with
  | true =>
    constructor <;> rw [ht]
    · rfl
    · exact fun _ => ⟨hempty .., rfl⟩
    · exact nofun
    · exact fun _ => ⟨rfl, rfl, rfl, rfl, rfl⟩
    · exact fun _ => hv rfl
  | false =>
    constructor <;> rw [ht]
    · rfl
    · exact fun _ => ⟨by cases s.params.variant <;> rfl, rfl⟩
    · exact fun _ => ⟨rfl, rfl, rfl, rfl, rfl, rfl, rfl, rfl⟩
    · exact nofun
    · exact nofun

/-- On an inited engine a step that keeps its configuration and the bounds of its queues has to keep rule R43 only. -/
theorem EngineSound.of_inited (h : EngineSound s) (h1 : s.se.inited = true) (hp : t.params = s.params)
    (h1' : t.se.inited = true) (hc : t.se.cfgErr = s.se.cfgErr)
    (htx : t.se.txq.bound = s.se.txq.bound ∧ t.se.txq.cap = s.se.txq.cap)
    (hrx : t.se.rxq.bound = s.se.rxq.bound ∧ t.se.rxq.cap = s.se.rxq.cap)
    (henabled : t.se.txIe = t.se.transmitting)
    (hidle : t.se.transmitting = false → t.se.txq.isEmpty t.params.variant = true ∧ t.se.txReady = true) :
    EngineSound t where
  enabled := henabled
  idle := hidle
  before h0 := by
    rw [h1'] at h0
    cases h0
  after _ := by
    rw [hc, htx.1, htx.2, hrx.1, hrx.2, hp]
    exact h.after h1
  usable _ := by
    rw [hp]
    exact h.usable h1

theorem engineSound_of_exec (h : exec i s = .next t) (hs : EngineSound s) : EngineSound t := by
  cases i
  case seInit =>
    obtain ⟨-, rfl⟩ := exec_seInit_eq_next.mp h
    refine engineSound_afterInit rfl (fun hv => ?_) rfl
    obtain ⟨htx, hrx, -⟩ := configValid_iff.mp hv
    exact ⟨htx, hrx⟩
  case seSend b =>
    obtain ⟨-, h1, ⟨-, -, rfl⟩ | ⟨ht, -, q, ok, hq, rfl⟩ | ⟨-, -, rfl⟩⟩ := exec_seSend_eq_next.mp h
    · exact hs.of_inited h1 rfl h1 rfl ⟨rfl, rfl⟩ ⟨rfl, rfl⟩ rfl nofun
    · refine hs.of_inited h1 rfl h1 rfl (RingBuf.push_bound_cap hq) ⟨rfl, rfl⟩ hs.enabled fun h0 => ?_
      exact nomatch ht.symm.trans h0
    · exact hs.congr rfl rfl rfl rfl
  case seRecv =>
    obtain ⟨-, -, q, v, hq, rfl⟩ := exec_seRecv_eq_next.mp h
    obtain ⟨hb, hc⟩ := RingBuf.pop_bound_cap hq
    exact hs.congr rfl rfl hb hc
  case seEi =>
    obtain ⟨-, h1, rfl⟩ := exec_seEi_eq_next.mp h
    exact hs.of_inited h1 rfl h1 rfl ⟨rfl, rfl⟩ ⟨rfl, rfl⟩ hs.enabled hs.idle
  case seDi =>
    obtain ⟨-, h1, rfl⟩ := exec_seDi_eq_next.mp h
    exact hs.of_inited h1 rfl h1 rfl ⟨rfl, rfl⟩ ⟨rfl, rfl⟩ hs.enabled hs.idle
  case seRxempty => obtain ⟨-, -, rfl⟩ := exec_seRxempty_eq_next.mp h; exact hs.congr rfl rfl rfl rfl
  case seStatus => obtain ⟨-, rfl⟩ := exec_seStatus_eq_next.mp h; exact hs.congr rfl rfl rfl rfl
  case seRxdrop => obtain ⟨-, rfl⟩ := exec_seRxdrop_eq_next.mp h; exact hs.congr rfl rfl rfl rfl
  case seCfgrd => obtain ⟨-, -, -, rfl⟩ := exec_seCfgrd_eq_next.mp h; exact hs.congr rfl rfl rfl rfl
  case seTxisr =>
    obtain ⟨-, h1, hie, hr, ⟨he, rfl⟩ | ⟨he, q, v, hq, rfl⟩⟩ := exec_seTxisr_eq_next.mp h
    · exact hs.of_inited h1 rfl h1 rfl ⟨rfl, rfl⟩ ⟨rfl, rfl⟩ rfl fun _ => ⟨he, hr⟩
    · refine hs.of_inited h1 rfl h1 rfl (RingBuf.pop_bound_cap hq) ⟨rfl, rfl⟩ hs.enabled fun h0 => ?_
      exact nomatch he.symm.trans (hs.idle h0).1
  case seRxisr =>
    obtain ⟨-, h1, -, -, q, ok, hq, rfl⟩ := exec_seRxisr_eq_next.mp h
    exact hs.of_inited h1 rfl h1 rfl ⟨rfl, rfl⟩ (RingBuf.push_bound_cap hq) hs.enabled hs.idle
  case lineTxdone =>
    obtain ⟨-, hr, rfl⟩ := exec_lineTxdone_eq_next.mp h
    have h1 : s.se.inited = true := by
      by_contra h0
      obtain ⟨-, -, hr', -⟩ := hs.before (Bool.eq_false_of_not_eq_true h0)
      exact nomatch hr.symm.trans hr'
    exact hs.of_inited h1 rfl h1 rfl ⟨rfl, rfl⟩ ⟨rfl, rfl⟩ hs.enabled fun h0 => ⟨(hs.idle h0).1, rfl⟩
  case lineRxbyte b =>
    obtain ⟨-, ⟨-, rfl⟩ | ⟨h1, rfl⟩⟩ := exec_lineRxbyte_eq_next.mp h
    · exact hs
    · exact hs.of_inited h1 rfl h1 rfl ⟨rfl, rfl⟩ ⟨rfl, rfl⟩ hs.enabled hs.idle
  all_goals
    obtain ⟨q, bytes, rfl⟩ := exec_rb_shape h (by simp [Instr.opcode, opClass])
    exact hs.congr rfl rfl rfl rfl

/-! ### Every atomic operation keeps the invariant -/

theorem RingBuf.Touched.bound_eq {P : Params} {id : BufId} {q q' : RingBuf} {u : Touch} (h : q.Touched P id u q')
    (hu : u ≠ .build) : q'.bound = q.bound := by
  cases h with
  | leave | full | empty => rfl
  | init | unbind | rebuild => exact absurd rfl hu
  | push | pop => simp

theorem microBuf_of_ne_recv {op : MicroOp} (h : op ≠ .recv) : microBuf op = .rb := by
  cases op
  case recv => exact absurd rfl h
  all_goals rfl

theorem admitted_of_exec (h : exec i s = .next t) (hs : s.fg = some f) (hf : Admitted s f) : Admitted t f := by
  have ha := admissionRefusal_of_exec h
  obtain ⟨hp, -⟩ := exec_keeps h
  obtain ⟨hb, h1⟩ := hf.ready
  refine ⟨by rw [hp]; exact hf.owned, hf.port, fun hop => ?_, fun hop => ?_⟩
  · have hid : microBuf f.op = .rb := microBuf_of_ne_recv hop
    have hu : touchOf .rb i s ≠ .build := fun hu => by
      have := touchOf_clashes_eq_false ha hs hf
      rw [hid, hu] at this
      cases this
    rw [(exec_touches_rb h).bound_eq hu, hb hop]
  · refine (exec_keeps_inited h fun p0 p1 p2 p3 p4 p5 p6 p7 hi => ?_).trans (h1 hop)
    subst hi
    exact port_ne_of_busy ha hs rfl (port_of_mem_singleton ha rfl)

theorem inv_of_exec (hinv : s.Inv) (h : exec i s = .next t) : t.Inv := by
  obtain ⟨hbuf, hengine, hadm⟩ := State.inv_iff.mp hinv
  obtain ⟨hp, hfg, -⟩ := exec_keeps h
  refine State.inv_iff.mpr ⟨fun id => ?_, engineSound_of_exec h hengine, fun f hf => ?_⟩
  · rw [hp, hfg]
    refine (hbuf id).touched (exec_touches h id) fun f hf hid => ?_
    subst hid
    exact touchOf_clashes_eq_false (admissionRefusal_of_exec h) hf (hadm f hf)
  · rw [hfg] at hf
    exact admitted_of_exec h hf (hadm f hf)

/-! ### The start and every micro-step keep the invariant -/

/-- A step inside the foreground's operation changes its own buffer only, and leaves it bound as it was. -/
theorem inv_of_own {id : BufId} {fg' : Option Progress} {q' : RingBuf} (hinv : s.Inv) (hs : s.fg = some f)
    (hid : microBuf f.op = id) (hfg' : ∀ f', fg' = some f' → f'.op = f.op ∧ f'.port = f.port)
    (hq : BufInv s.params id fg' q') (hb : q'.bound = (s.buf id).bound) (hc : q'.cap = (s.buf id).cap)
    (ht : t.params = s.params ∧ t.fg = fg' ∧ t.rb = (s.withBuf id q').rb ∧ t.se = (s.withBuf id q').se) : t.Inv := by
  obtain ⟨hbuf, hengine, hadm⟩ := State.inv_iff.mp hinv
  obtain ⟨hp, htfg, htrb, htse⟩ := ht
  have hother (id' : BufId) (hne : id ≠ id') : BufInv s.params id' fg' (s.buf id') :=
    (hbuf id').of_quiet (fun f' hf' => by rw [hs] at hf'; cases hf'; rwa [hid])
      fun f' hf' => by rwa [(hfg' f' hf').1, hid]
  have hready (hrb : t.rb.bound = s.rb.bound) (h1 : t.se.inited = s.se.inited) (f' : Progress)
      (hf' : t.fg = some f') : Admitted t f' := by
    obtain ⟨hop, hport⟩ := hfg' f' (htfg.symm.trans hf')
    have hf := hadm f hs
    exact ⟨by rw [hp, hport]; exact hf.owned, by rw [hop, hport]; exact hf.port, by rw [hop, hrb, h1]; exact hf.ready⟩
  cases id with
  | rb =>
    refine State.inv_iff.mpr ⟨fun id' => ?_, ?_, hready (by rw [htrb]; exact hb) (by rw [htse]; rfl)⟩
    · rw [hp, htfg]
      cases id' with
      | rb => rw [State.buf, htrb]; exact hq
      | txq => rw [State.buf, htse]; exact hother _ nofun
      | rxq => rw [State.buf, htse]; exact hother _ nofun
    · exact hengine.congr hp (by rw [htse]; rfl) (by rw [htse]; rfl) (by rw [htse]; rfl)
  | txq => cases hop : f.op <;> rw [hop] at hid <;> cases hid
  | rxq =>
    refine State.inv_iff.mpr ⟨fun id' => ?_, ?_, hready (by rw [htrb]; rfl) (by rw [htse]; rfl)⟩
    · rw [hp, htfg]
      cases id' with
      | rb => rw [State.buf, htrb]; exact hother _ nofun
      | txq => rw [State.buf, htse]; exact hother _ nofun
      | rxq => rw [State.buf, htse]; exact hq
    · exact hengine.congr hp (by rw [htse]; rfl) (by rw [htse]; exact hb) (by rw [htse]; exact hc)

section
variable {P : Params} {id : BufId} {q : RingBuf}

/-- Away from P4 and C4 nothing is pending on any buffer. -/
theorem no_pending_of_ne_u4 (v : RbVariant) (id : BufId) {fg : Option Progress}
    (h : ∀ f, fg = some f → f.upc ≠ .u4) : pendingPush v id fg = 0 ∧ unreleasedPop v id fg = 0 :=
  ⟨pendingPush_eq_zero fun f hf _ _ => h f hf, unreleasedPop_eq_zero fun f hf _ _ => h f hf⟩

/-- A test or a read changes what the operation knows, and not the buffer. -/
theorem BufInv.unmoved {fg' : Option Progress} (h : BufInv P id (some f) q) (hu : f.upc ≠ .u4)
    (hu' : ∀ f', fg' = some f' → f'.upc ≠ .u4) (hk : ∀ f', fg' = some f' → OpKnows P q f') : BufInv P id fg' q := by
  have hh := h.holds
  obtain ⟨hw, hr⟩ := no_pending_of_ne_u4 P.variant id (fg := some f) (by rintro _ ⟨⟩; exact hu)
  obtain ⟨hw', hr'⟩ := no_pending_of_ne_u4 P.variant id hu'
  rw [hw, hr] at hh
  exact hh.bufInv hw' hr' fun f' hf' _ => hk f' hf'

end

/-- A pop in progress is no push. -/
theorem pendingPush_of_popping (hop : f.op = .pop ∨ f.op = .recv) (v : RbVariant) (id : BufId) :
    pendingPush v id (some f) = 0 :=
  pendingPush_eq_zero (by rintro _ ⟨⟩ _ hp; obtain hop | hop := hop <;> rw [hop] at hp <;> cases hp)

theorem opKnows_of_popping {P : Params} {q : RingBuf} (hop : f.op = .pop ∨ f.op = .recv) :
    OpKnows P q f ↔ PopKnows P q f.val f.upc := by
  obtain hop | hop := hop <;> simp only [OpKnows, hop]

theorem opKnows_of_pushing {P : Params} {q : RingBuf} {b : Byte} (hop : f.op = .push b) :
    OpKnows P q f ↔ PushKnows P q b f.upc := by
  simp only [OpKnows, hop]

@[simp] theorem State.withBuf_params (s : State) (id : BufId) (q : RingBuf) : (s.withBuf id q).params = s.params := by
  cases id <;> rfl

theorem State.withBuf_self (s : State) (id : BufId) : s.withBuf id (s.buf id) = s := by cases id <;> rfl

section
variable (hinv : s.Inv) (hs : s.fg = some f)
include hinv hs

theorem State.Inv.ownBuf (id : BufId) : BufInv s.params id (some f) (s.buf id) :=
  hs ▸ (State.inv_iff.mp hinv).1 id

theorem State.Inv.knows {id : BufId} (hid : microBuf f.op = id) : OpKnows s.params (s.buf id) f :=
  (hinv.ownBuf hs _).knows f rfl hid

/-- Up to its third micro-step an operation has moved nothing. -/
theorem State.Inv.own_before (id : BufId) (hu : f.upc ≠ .u4) :
    (s.buf id).Holds s.params id 0 0 ((s.buf id).bytes s.params id (some f)) := by
  have hh := (hinv.ownBuf hs id).holds
  obtain ⟨hw, hr⟩ := no_pending_of_ne_u4 s.params.variant id (fg := some f) (by rintro _ ⟨⟩; exact hu)
  rwa [hw, hr] at hh

/-- An operation that ends in an answer leaves its buffer as it is. -/
theorem inv_of_answer (hu : f.upc ≠ .u4) (bytes : List Byte) : (s.finish f bytes).Inv :=
  inv_of_own hinv hs rfl (fg' := none) nofun ((hinv.ownBuf hs _).unmoved hu nofun nofun) rfl rfl
    ⟨rfl, rfl, by rw [State.withBuf_self]; rfl, by rw [State.withBuf_self]; rfl⟩

/-- An operation that has learnt something leaves its buffer as it is. -/
theorem inv_of_learnt {f' : Progress} (hu : f.upc ≠ .u4) (hu' : f'.upc ≠ .u4) (hop : f'.op = f.op)
    (hport : f'.port = f.port) (hk : OpKnows s.params (s.buf (microBuf f.op)) f') :
    (s.withFg (some f')).Inv :=
  inv_of_own hinv hs rfl (fg' := some f') (by rintro _ ⟨⟩; exact ⟨hop, hport⟩)
    ((hinv.ownBuf hs _).unmoved hu (by rintro _ ⟨⟩; exact hu') (by rintro _ ⟨⟩; exact hk)) rfl rfl
    ⟨rfl, rfl, by rw [State.withBuf_self]; rfl, by rw [State.withBuf_self]; rfl⟩

/-! The parts of a push. -/

section
variable {b : Byte} (hop : f.op = .push b)
include hop

/-- After P3 the byte is there and not yet counted. -/
theorem State.Inv.pushing_after (hu : f.upc = .u4) :
    s.rb.Holds s.params .rb (countLag s.params.variant) 0 (s.rb.bytes s.params .rb (some f)) := by
  have hh := (hinv.ownBuf hs .rb).holds
  have hr : unreleasedPop s.params.variant .rb (some f) = 0 :=
    unreleasedPop_eq_zero (by rintro _ ⟨⟩ _ hp; rw [hop] at hp; cases hp)
  rwa [pendingPush_of_advanced hop hu, hr] at hh

theorem inv_of_pushStored (hu : f.upc = .u2) :
    ((s.withRb (s.rb.store b)).withFg (some { f with upc := .u3 })).Inv := by
  have hid : microBuf f.op = .rb := by rw [hop]; rfl
  have hf : s.rb.isFull s.params.variant = false := by
    have hk := (opKnows_of_pushing hop).mp (hinv.knows hs hid)
    rwa [hu] at hk
  have hh := hinv.own_before hs .rb (by rw [hu]; nofun)
  obtain ⟨hw', hr'⟩ := no_pending_of_ne_u4 s.params.variant .rb (fg := some { f with upc := .u3 })
    (by rintro _ ⟨⟩; nofun)
  refine inv_of_own hinv hs hid (by rintro _ ⟨⟩; exact ⟨rfl, rfl⟩) ((hh.store hf b).bufInv hw' hr' ?_) rfl rfl
    ⟨rfl, rfl, rfl, rfl⟩
  rintro _ ⟨⟩ -
  exact (opKnows_of_pushing (f := { f with upc := .u3 }) hop).mpr
    ⟨(RingBuf.isFull_store ..).trans hf, Memory.read?_write_same ..⟩

/-- P3 takes the byte in. -/
theorem State.Inv.pushing_advanced (hu : f.upc = .u3) : s.rb.advanceHead.Holds s.params .rb
    (countLag s.params.variant) 0 (s.rb.bytes s.params .rb (some f) ++ [b]) := by
  have hid : microBuf f.op = .rb := by rw [hop]; rfl
  obtain ⟨hf, hb⟩ : s.rb.isFull s.params.variant = false ∧ Memory.read? s.rb.slots s.rb.head.toNat = some b := by
    have hk := (opKnows_of_pushing hop).mp (hinv.knows hs hid)
    rwa [hu] at hk
  exact (hinv.own_before hs .rb (by rw [hu]; nofun)).advanceHead hf hb

theorem inv_of_pushAdvanced (hu : f.upc = .u3) (hv : s.params.variant = .explicit) :
    ((s.withRb s.rb.advanceHead).withFg (some { f with upc := .u4 })).Inv := by
  have hid : microBuf f.op = .rb := by rw [hop]; rfl
  have hh := hinv.pushing_advanced hs hop hu
  refine inv_of_own hinv hs hid (by rintro _ ⟨⟩; exact ⟨rfl, rfl⟩)
    (fg' := some { f with upc := .u4 }) (hh.bufInv (pendingPush_of_advanced hop rfl) (unreleasedPop_eq_zero ?_) ?_)
    rfl rfl ⟨rfl, rfl, rfl, rfl⟩
  · rintro _ ⟨⟩ _ hp
    rw [hop] at hp
    cases hp
  · rintro _ ⟨⟩ -
    exact (opKnows_of_pushing (f := { f with upc := .u4 }) hop).mpr hv

theorem inv_of_pushPublished (hu : f.upc = .u3) (hv : s.params.variant = .derived) (bytes : List Byte) :
    ((s.withRb s.rb.advanceHead).finish f bytes).Inv := by
  have hid : microBuf f.op = .rb := by rw [hop]; rfl
  have hh := hinv.pushing_advanced hs hop hu
  exact inv_of_own hinv hs hid (fg' := none) nofun (hh.bufInv (by rw [hv]; rfl) rfl nofun) rfl rfl
    ⟨rfl, rfl, rfl, rfl⟩

theorem inv_of_pushCounted (hu : f.upc = .u4) (hv : s.params.variant = .explicit) (bytes : List Byte) :
    ((s.withRb (s.rb.countUp .explicit)).finish f bytes).Inv := by
  have hid : microBuf f.op = .rb := by rw [hop]; rfl
  have hc := (hinv.pushing_after hs hop hu).countUp
  rw [hv] at hc
  exact inv_of_own hinv hs hid (fg' := none) nofun (hc.bufInv pendingPush_none rfl nofun) rfl rfl
    ⟨rfl, rfl, rfl, rfl⟩

end

/-! The parts of a pop. -/

section
variable (hop : f.op = .pop ∨ f.op = .recv)
include hop

/-- After C3 the byte is taken and still counted. -/
theorem State.Inv.popping_after (hu : f.upc = .u4) : (s.buf (microBuf f.op)).Holds s.params (microBuf f.op) 0
    (countLag s.params.variant) ((s.buf (microBuf f.op)).bytes s.params (microBuf f.op) (some f)) := by
  have hh := (hinv.ownBuf hs (microBuf f.op)).holds
  rwa [pendingPush_of_popping hop, unreleasedPop_of_advanced hop hu] at hh

theorem State.Inv.popping_nonempty (hu : f.upc = .u2 ∨ f.upc = .u3) :
    (s.buf (microBuf f.op)).isEmpty s.params.variant = false := by
  have hk := (opKnows_of_popping hop).mp (hinv.knows hs rfl)
  obtain hu | hu := hu <;> rw [hu] at hk
  · exact hk
  · exact hk.1

/-- Before C3 the buffer holds a byte, and after C2 that is the byte read. -/
theorem State.Inv.popping_head (hu : f.upc = .u2 ∨ f.upc = .u3) : ∃ x xs,
    (s.buf (microBuf f.op)).bytes s.params (microBuf f.op) (some f) = x :: xs ∧
      (s.buf (microBuf f.op)).Holds s.params (microBuf f.op) 0 0 (x :: xs) ∧ (f.upc = .u3 → x = f.val) := by
  have hh := hinv.own_before hs (microBuf f.op) (by obtain hu | hu := hu <;> rw [hu] <;> nofun)
  obtain ⟨x, ys, hx⟩ := List.exists_cons_of_ne_nil (hh.ne_nil (hinv.popping_nonempty hs hop hu))
  rw [hx] at hh
  refine ⟨x, ys, hx, hh, fun hu => ?_⟩
  have hk := (opKnows_of_popping hop).mp (hinv.knows hs rfl)
  rw [hu] at hk
  exact Option.some.inj (hh.read_tail.symm.trans hk.2)

theorem inv_of_popRead (hu : f.upc = .u2) : (s.withFg (some { f with
    val := slotByte (microBuf f.op) (s.buf (microBuf f.op)).slots (s.buf (microBuf f.op)).tail.toNat
    upc := .u3 })).Inv := by
  obtain ⟨x, xs, -, hh, -⟩ := hinv.popping_head hs hop (.inl hu)
  rw [slotByte_of_read hh.read_tail]
  refine inv_of_learnt hinv hs (by rw [hu]; nofun) nofun rfl rfl ?_
  exact (opKnows_of_popping (f := { f with val := x, upc := .u3 }) hop).mpr
    ⟨hinv.popping_nonempty hs hop (.inl hu), hh.read_tail⟩

/-- C3 takes the byte that C2 read. -/
theorem State.Inv.popping_advanced (hu : f.upc = .u3) : ∃ xs,
    (s.buf (microBuf f.op)).bytes s.params (microBuf f.op) (some f) = f.val :: xs ∧
      (s.buf (microBuf f.op)).advanceTail.Holds s.params (microBuf f.op) 0 (countLag s.params.variant) xs := by
  obtain ⟨x, xs, hx, hh, hval⟩ := hinv.popping_head hs hop (.inr hu)
  exact ⟨xs, by rw [hx, hval hu], hh.advanceTail (hinv.popping_nonempty hs hop (.inr hu))⟩

theorem inv_of_popAdvanced (hu : f.upc = .u3) (hv : s.params.variant = .explicit) :
    ((s.withBuf (microBuf f.op) (s.buf (microBuf f.op)).advanceTail).withFg (some { f with upc := .u4 })).Inv := by
  obtain ⟨xs, -, hh⟩ := hinv.popping_advanced hs hop hu
  refine inv_of_own hinv hs rfl (fg' := some { f with upc := .u4 }) (by rintro _ ⟨⟩; exact ⟨rfl, rfl⟩)
    (hh.bufInv (pendingPush_of_popping (f := { f with upc := .u4 }) hop _ _)
      (unreleasedPop_of_advanced (f := { f with upc := .u4 }) hop rfl) ?_)
    rfl rfl ⟨State.withBuf_params .., rfl, rfl, rfl⟩
  rintro _ ⟨⟩ -
  exact (opKnows_of_popping (f := { f with upc := .u4 }) hop).mpr hv

theorem inv_of_popReleased (hu : f.upc = .u3) (hv : s.params.variant = .derived) (bytes : List Byte) :
    ((s.withBuf (microBuf f.op) (s.buf (microBuf f.op)).advanceTail).finish f bytes).Inv := by
  obtain ⟨xs, -, hh⟩ := hinv.popping_advanced hs hop hu
  exact inv_of_own hinv hs rfl (fg' := none) nofun (hh.bufInv pendingPush_none (by rw [hv]; rfl) nofun) rfl rfl
    ⟨State.withBuf_params .., rfl, rfl, rfl⟩

theorem inv_of_popCounted (hu : f.upc = .u4) (hv : s.params.variant = .explicit) (bytes : List Byte) :
    ((s.withBuf (microBuf f.op) ((s.buf (microBuf f.op)).countDown .explicit)).finish f bytes).Inv := by
  have hc := (hinv.popping_after hs hop hu).countDown
  rw [hv] at hc
  exact inv_of_own hinv hs rfl (fg' := none) nofun (hc.bufInv pendingPush_none rfl nofun) rfl rfl
    ⟨State.withBuf_params .., rfl, rfl, rfl⟩

end

theorem inv_of_took (h : Took f s t) : t.Inv := by
  have hu1 {u : Upc} (hu : f.upc = u) (hne : u ≠ .u4) : f.upc ≠ .u4 := by rwa [hu]
  cases h with
  | pushHeld b hop hu hf => exact inv_of_answer hinv hs (hu1 hu nofun) _
  | pushTested b hop hu hf =>
    refine inv_of_learnt hinv hs (hu1 hu nofun) nofun rfl rfl ?_
    rw [show microBuf f.op = .rb by rw [hop]; rfl]
    exact (opKnows_of_pushing (f := { f with flag := false, upc := .u2 }) hop).mpr hf
  | pushStored b hop hu => exact inv_of_pushStored hinv hs hop hu
  | pushAdvanced b hop hu hv => exact inv_of_pushAdvanced hinv hs hop hu hv
  | pushPublished b hop hu hv => exact inv_of_pushPublished hinv hs hop hu hv _
  | pushCounted b hop hu hv => exact inv_of_pushCounted hinv hs hop hu hv _
  | popEmpty hop hu he => exact inv_of_answer hinv hs (hu1 hu nofun) _
  | popTested hop hu he =>
    exact inv_of_learnt hinv hs (hu1 hu nofun) nofun rfl rfl
      ((opKnows_of_popping (f := { f with flag := false, upc := .u2 }) hop).mpr he)
  | popRead hop hu => exact inv_of_popRead hinv hs hop hu
  | popAdvanced hop hu hv => exact inv_of_popAdvanced hinv hs hop hu hv
  | popReleased hop hu hv => exact inv_of_popReleased hinv hs hop hu hv _
  | popCounted hop hu hv => exact inv_of_popCounted hinv hs hop hu hv _
  | peekEmpty hop hu he => exact inv_of_answer hinv hs (hu1 hu nofun) _
  | peekTested hop hu he =>
    refine inv_of_learnt hinv hs (hu1 hu nofun) nofun rfl rfl ?_
    rw [hop]
    exact .inr ⟨rfl, he⟩
  | peekRead hop hu => exact inv_of_answer hinv hs (hu1 hu nofun) _
  | emptyAnswered hop hu | fullAnswered hop hu | occAnswered hop hu => exact inv_of_answer hinv hs (hu1 hu nofun) _

end

/-- At its first micro-step an operation knows nothing yet. -/
theorem opKnows_first (P : Params) (q : RingBuf) (op : MicroOp) (p : Port) (flag : Bool) (val : Byte) :
    OpKnows P q { op := op, port := p, upc := .u1, flag := flag, val := val } := by
  cases op
  case peek => exact .inl rfl
  case push | pop | recv => trivial
  all_goals rfl

theorem answersOn_of_micro {op : MicroOp} {p : Port} (hi : microOpOf i = some op) (hp : p ∈ portsOf i) :
    op.AnswersOn p := by
  cases i <;> simp only [microOpOf, reduceCtorEq, Option.some.injEq] at hi <;> subst hi <;>
    simp only [portsOf, List.mem_cons, List.not_mem_nil, or_false] at hp
  case rbEmpty | rbFull | rbOcc => obtain rfl | rfl := hp <;> rfl
  all_goals exact hp

theorem inv_of_beginMicro {op : MicroOp} (hinv : s.Inv) (hi : microOpOf i = some op) (hfg : s.issue.agent = .fg)
    (h : beginMicro i op s = .next t) : t.Inv := by
  obtain ⟨ha, ⟨hb, hr⟩, rfl⟩ := beginMicro_eq_next.mp h
  obtain ⟨hmem, ho, hidle, -⟩ := admissionRefusal_eq_none.mp ha
  have hs : s.fg = none := hidle hfg
  obtain ⟨hbuf, hengine, -⟩ := State.inv_iff.mp hinv
  refine State.inv_iff.mpr ⟨fun id => ?_, hengine.congr rfl rfl rfl rfl, ?_⟩
  · have hq := (hbuf id).holds_of_quiet (by rw [hs]; exact nofun)
    have hbufs : ∀ fg, ((s.withFg fg).buf id) = s.buf id := by cases id <;> exact fun _ => rfl
    obtain ⟨hw, hr⟩ := no_pending_of_ne_u4 s.params.variant id
      (fg := some { op := op, port := s.issue.port, upc := .u1, flag := false, val := defaultByte })
      (by rintro _ ⟨⟩; nofun)
    rw [hbufs]
    exact hq.bufInv hw hr (by rintro _ ⟨⟩ -; exact opKnows_first ..)
  · rintro _ ⟨⟩
    exact ⟨ho.symm.trans hfg, answersOn_of_micro hi hmem, hb, fun hop => (hr hop).1⟩

theorem inv_fetched (h : s.Inv) (x : Issue) (xs : List Input) : (s.fetched x xs).Inv := h.congr rfl rfl rfl rfl

/-- Every step keeps the invariant. -/
theorem inv_of_step (hinv : s.Inv) (h : step s = .next t) : t.Inv := by
  cases stepped_of_step h with
  | idle => exact hinv
  | atomic i x xs _ _ _ h => exact inv_of_exec (inv_fetched hinv x xs) h
  | start i op p xs _ _ _ hi h => exact inv_of_beginMicro (inv_fetched hinv _ xs) hi rfl h
  | micro f xs _ _ _ hs h => exact inv_of_took (inv_fetched hinv _ xs) hs h

theorem inv_of_perform {x : Input} (hinv : s.Inv) (h : perform x s = .next t) : t.Inv :=
  inv_of_step (inv_fetched hinv s.issue (x :: s.inputs)) ((perform_eq_step x s).symm.trans h)

end

end Sys2Proof.Machine

namespace Sys2Proof.Proofs

open Sys2Proof Sys2Proof.Machine

/-- Settles O8: the atomic operations and the start by their answers, the micro-steps one by one. -/
theorem stepKeepsTheInvariant : Obligations.StepKeepsTheInvariant := by
  unfold Obligations.StepKeepsTheInvariant
  exact fun s s' => inv_of_step

end Sys2Proof.Proofs
end

section
/-! SUPPORT. Proofs that no step faults (rules R11, R37, R44, R72). -/

namespace Sys2Proof.Machine

open Sys2Proof.Config

/-! ### Answers that are no fault -/

/-- The answer is a value or a refusal. -/
def NoFault {α : Type} (r : Result α) : Prop := ∀ f, r ≠ .fault f

section
variable {α β : Type} {r : Result α} {k : α → Result β}

theorem noFault_next (a : α) : NoFault (.next a : Result α) := nofun

theorem noFault_refused (e : Refusal) : NoFault (.refused e : Result α) := nofun

theorem NoFault.andThen (h : NoFault r) (hk : ∀ a, r = .next a → NoFault (k a)) : NoFault (andThen r k) := by
  cases r with
  | next a => exact hk a rfl
  | fault f => exact absurd rfl (h f)
  | refused e => exact noFault_refused e

theorem NoFault.refuseIf {p : Bool} {e : Refusal} (h : p = false → NoFault r) : NoFault (refuseIf p e r) := by
  cases p with
  | true => exact noFault_refused e
  | false => exact h rfl

theorem NoFault.requireBound (h : NoFault r) (q : RingBuf) : NoFault (requireBound q r) := NoFault.refuseIf fun _ => h

end

section
variable {i : Instr} {s : State} {k : Result State}

theorem NoFault.whenAdmitted (h : NoFault k) : NoFault (whenAdmitted i s k) := by
  intro f hf
  exact h f (admit_eq_fault.mp hf).2

theorem NoFault.requireInited (h : NoFault k) : NoFault (requireInited s k) := NoFault.refuseIf fun _ => h

end

/-! ### Slots and the transmitter -/

section
variable {P : Params} {id : BufId} {q : RingBuf}

theorem noFault_memRead {j : Idx} (h : slotExists P id q j = true) : NoFault (memRead P id q j) := by
  rw [memRead, if_pos h]
  exact noFault_next _

theorem noFault_memWrite {j : Idx} (h : slotExists P id q j = true) (b : Byte) : NoFault (memWrite P id q j b) := by
  rw [memWrite, if_pos h]
  exact noFault_next _

/-- A push that finds room writes the slot at `head`, which is in range (rule R72). -/
theorem RingBuf.Sound.noFault_push (h : q.Sound P id) (b : Byte) : NoFault (q.push P id b) := by
  refine NoFault.requireBound ?_ q
  split
  · exact noFault_next _
  · rename_i hf
    exact (noFault_memWrite (h.head_exists (Bool.eq_false_of_not_eq_true hf)) b).andThen fun _ _ => noFault_next _

/-- A pop that finds a byte reads the slot at `tail`, which is in range (rule R72). -/
theorem RingBuf.Sound.noFault_pop (h : q.Sound P id) : NoFault (q.pop P id) := by
  refine NoFault.requireBound ?_ q
  split
  · exact noFault_next _
  · rename_i he
    exact (noFault_memRead (h.tail_exists (Bool.eq_false_of_not_eq_true he))).andThen fun _ _ => noFault_next _

theorem RingBuf.Sound.noFault_peek (h : q.Sound P id) : NoFault (q.peek P id) := by
  refine NoFault.requireBound ?_ q
  split
  · exact noFault_next _
  · rename_i he
    exact noFault_memRead (h.tail_exists (Bool.eq_false_of_not_eq_true he))

theorem noFault_txWrite {e : SerialEngine} (h : e.txReady = true) (b : Byte) : NoFault (e.txWrite b) := by
  rw [SerialEngine.txWrite, if_pos h]
  exact noFault_next _

end

/-! ### Every step -/

section
variable {i : Instr} {s : State} {f : Progress}

/-- SE.TXISR runs with the transmitter ready, and the pop does not change that (rule R44). -/
theorem noFault_txDrain (hq : s.se.txq.Sound s.params .txq) (hr : s.se.txReady = true) : NoFault (txDrain s) := by
  unfold txDrain
  split
  · exact hq.noFault_pop.andThen fun r _ =>
      (noFault_txWrite (e := (s.withTxq r.1).se) hr r.2).andThen fun _ _ => noFault_next _
  · exact noFault_next _

theorem noFault_exec (hinv : s.Inv) (i : Instr) : NoFault (exec i s) := by
  cases i <;> refine NoFault.whenAdmitted ?_
  case rbInit => exact NoFault.refuseIf fun _ => noFault_next _
  case rbEmpty | rbFull | rbOcc => exact (noFault_next _).requireBound _
  case rbPeek => exact hinv.rbSound.noFault_peek.andThen fun _ _ => noFault_next _
  case rbPush b => exact (hinv.rbSound.noFault_push b).andThen fun _ _ => noFault_next _
  case rbPop => exact hinv.rbSound.noFault_pop.andThen fun _ _ => noFault_next _
  case seInit => exact noFault_next _
  case seSend b =>
    refine NoFault.requireInited ?_
    split
    · rename_i ht
      have hr := (hinv.engine.idle (by simpa using ht)).2
      exact (noFault_txWrite hr b).andThen fun _ _ => noFault_next _
    · split
      · exact (hinv.txSound.noFault_push b).andThen fun _ _ => noFault_next _
      · exact noFault_next _
  case seRecv => exact NoFault.requireInited (hinv.rxSound.noFault_pop.andThen fun _ _ => noFault_next _)
  case seEi | seDi | seRxempty => exact NoFault.requireInited (noFault_next _)
  case seStatus | seRxdrop => exact noFault_next _
  case seCfgrd => exact NoFault.refuseIf fun _ => NoFault.requireInited (noFault_next _)
  case seTxisr =>
    refine NoFault.refuseIf fun he => noFault_txDrain hinv.txSound ?_
    obtain ⟨-, -, hr⟩ := SerialEngine.txisrEnabled_iff.mp (by simpa using he)
    exact hr
  case seRxisr =>
    exact NoFault.refuseIf fun _ => (hinv.rxSound.noFault_push s.se.rxBuf).andThen fun _ _ => noFault_next _
  case lineTxdone => exact NoFault.refuseIf fun _ => noFault_next _
  case lineRxbyte => exact noFault_next _

theorem noFault_beginMicro (i : Instr) (op : MicroOp) (s : State) : NoFault (beginMicro i op s) := by
  refine NoFault.whenAdmitted ?_
  cases op
  case recv => exact NoFault.requireInited ((noFault_next _).requireBound _)
  all_goals exact (noFault_next _).requireBound _

/-- P2 knows that the buffer is not full. -/
theorem noFault_microPush (hinv : s.Inv) (hs : s.fg = some f) {b : Byte} (hop : f.op = .push b) :
    NoFault (microPush b f s) := by
  have hid : microBuf f.op = .rb := by rw [hop]; rfl
  have hk := (opKnows_of_pushing hop).mp (hinv.knows hs hid)
  unfold microPush
  cases hu : f.upc <;> rw [hu] at hk <;> dsimp only
  · exact noFault_next _
  · exact (noFault_memWrite (hinv.rbSound.head_exists hk) b).andThen fun _ _ => noFault_next _
  · exact noFault_next _
  · split
    · exact noFault_next _
    · exact noFault_refused _

/-- C2 knows that the buffer is not empty. -/
theorem noFault_microPop (hinv : s.Inv) (hs : s.fg = some f) (hop : f.op = .pop ∨ f.op = .recv) :
    NoFault (microPop (microBuf f.op) f s) := by
  have hk := (opKnows_of_popping hop).mp (hinv.knows hs rfl)
  have hq := (hinv.ownBuf hs (microBuf f.op)).sound
  unfold microPop
  cases hu : f.upc <;> rw [hu] at hk <;> dsimp only
  · exact noFault_next _
  · exact (noFault_memRead (hq.tail_exists hk)).andThen fun _ _ => noFault_next _
  · exact noFault_next _
  · split
    · exact noFault_next _
    · exact noFault_refused _

theorem noFault_microPeek (hinv : s.Inv) (hs : s.fg = some f) (hop : f.op = .peek) : NoFault (microPeek f s) := by
  have hid : microBuf f.op = .rb := by rw [hop]; rfl
  have hk := hinv.knows hs hid
  unfold OpKnows at hk
  rw [hop] at hk
  unfold microPeek
  cases hu : f.upc <;> rw [hu] at hk <;> dsimp only
  · exact noFault_next _
  · have he : s.rb.isEmpty s.params.variant = false := by simpa using hk
    exact (noFault_memRead (hinv.rbSound.tail_exists he)).andThen fun _ _ => noFault_next _
  · exact noFault_refused _
  · exact noFault_refused _

theorem noFault_microQuery (bytes : List Byte) (f : Progress) (s : State) : NoFault (microQuery bytes f s) := by
  unfold microQuery
  split
  · exact noFault_next _
  all_goals exact noFault_refused _

theorem noFault_microStep (hinv : s.Inv) : NoFault (microStep s) := by
  cases hs : s.fg with
  | none =>
    rw [microStep, hs]
    exact noFault_refused _
  | some f =>
    cases hop : f.op with
    | push b => rw [microStep_of_push hs hop]; exact noFault_microPush hinv hs hop
    | pop =>
      rw [microStep_of_pop hs hop]
      have := noFault_microPop hinv hs (.inl hop)
      rwa [hop] at this
    | recv =>
      rw [microStep_of_recv hs hop]
      have := noFault_microPop hinv hs (.inr hop)
      rwa [hop] at this
    | peek => rw [microStep_of_peek hs hop]; exact noFault_microPeek hinv hs hop
    | empty => rw [microStep_of_empty hs hop]; exact noFault_microQuery _ f s
    | full => rw [microStep_of_full hs hop]; exact noFault_microQuery _ f s
    | occ => rw [microStep_of_occ hs hop]; exact noFault_microQuery _ f s

theorem noFault_fetch (bytes : List Byte) : NoFault (fetch bytes) := by
  unfold fetch
  split
  · exact noFault_next _
  · exact noFault_refused _

theorem noFault_perform (hinv : s.Inv) (x : Input) : NoFault (perform x s) := by
  cases x with
  | command a p bytes =>
    refine (noFault_fetch bytes).andThen fun r _ => noFault_exec ?_ r.1
    rw [State.present_eq]
    exact inv_fetched hinv ..
  | start p bytes =>
    refine (noFault_fetch bytes).andThen fun r _ => ?_
    cases hi : microOpOf r.1 with
    | none =>
      rw [startInstr_of_atomic hi, State.present_eq]
      exact noFault_exec (inv_fetched hinv ..) r.1
    | some op =>
      rw [startInstr_of_micro hi]
      exact noFault_beginMicro _ op _
  | resume => exact noFault_microStep hinv

end

end Sys2Proof.Machine

namespace Sys2Proof.Proofs

open Sys2Proof Sys2Proof.Machine

/-- Settles O9: each slot access and each write to the transmitter is in a branch that makes it safe. -/
theorem invariantStepNeverFaults : Obligations.InvariantStepNeverFaults := by
  unfold Obligations.InvariantStepNeverFaults
  intro s f hinv
  cases hs : s.inputs with
  | nil =>
    rw [step_of_no_inputs hs]
    exact noFault_next s f
  | cons x xs =>
    simp only [step, hs]
    exact noFault_perform (inv_fetched hinv s.issue xs) x f

end Sys2Proof.Proofs
end

section
/-! SUPPORT. Proofs about runs of whole commands, and with them about the engine's hardware (rule R43) and the draining
engine (rule R284). -/

namespace Sys2Proof.Machine

open Sys2Proof.Config

/-! ### Buffers that no operation is in progress on -/

section
variable {P : Params} {id : BufId} {w r : Nat} {xs : List Byte} {q : RingBuf}

theorem RingBuf.Holds.isEmpty_iff (h : q.Holds P id 0 0 xs) : q.isEmpty P.variant = true ↔ xs = [] := by
  rw [h.sound.isEmpty_iff, ← List.length_eq_zero_iff]
  have := h.length
  omega

theorem RingBuf.Holds.length_eq_occ (h : q.Holds P id 0 0 xs) : xs.length = q.occ P.variant := by
  have := h.length
  omega

theorem RingBuf.Holds.push_eq {b : Byte} (h : q.Holds P id 0 r xs) (hb : q.bound = true)
    (hf : q.isFull P.variant = false) :
    q.push P id b = .next ((q.store b).advanceHead.countUp P.variant, true) :=
  RingBuf.push_of_room hb hf h.sound b

theorem RingBuf.Holds.pop_eq {x : Byte} (h : q.Holds P id w 0 (x :: xs)) (hb : q.bound = true)
    (he : q.isEmpty P.variant = false) : q.pop P id = .next (q.advanceTail.countDown P.variant, x) :=
  RingBuf.pop_of_written hb he h.sound h.read_tail

end

section
variable {s t : State}

theorem State.Inv.buf_holds (hinv : s.Inv) {id : BufId} (h : s.inProgressOn id = false) :
    (s.buf id).Holds s.params id 0 0 ((s.buf id).contents s.params id) :=
  ((State.inv_iff.mp hinv).1 id).holds_of_quiet fun f hf hid => by simp [State.inProgressOn, hf, hid] at h

theorem inProgressOn_of_idle (h : s.fg = none) (id : BufId) : s.inProgressOn id = false := by
  rw [State.inProgressOn, h]

/-- No operation with micro-steps works on `txq` (rule R33). -/
theorem inProgressOn_txq (s : State) : s.inProgressOn .txq = false := by
  unfold State.inProgressOn
  split
  · rename_i f _
    cases f.op <;> rfl
  · rfl

theorem State.Inv.rb_holds (hinv : s.Inv) (h : s.inProgressOn .rb = false) :
    s.rb.Holds s.params .rb 0 0 (s.rb.contents s.params .rb) := hinv.buf_holds h

theorem State.Inv.txq_holds (hinv : s.Inv) : s.se.txq.Holds s.params .txq 0 0 (s.se.txq.contents s.params .txq) :=
  hinv.buf_holds (inProgressOn_txq s)

/-! ### Responses -/

theorem State.lastResponse_append {rs : List Response} {r : Response} (h : s.responses = rs ++ [r]) :
    s.lastResponse = r.bytes := by
  rw [State.lastResponse, h, List.getLast?_concat]

theorem State.lastResponse_respond (s : State) (bytes : List Byte) : (s.respond bytes).lastResponse = bytes :=
  State.lastResponse_append (State.respond_responses s bytes)

theorem State.lastResult_respond (s : State) (a b : Byte) : (s.respond [a, b]).lastResult = b := by
  rw [State.lastResult, State.lastResponse_respond]
  rfl

/-! ### Runs -/

theorem performAll_append (xs ys : List Input) (s : State) :
    performAll (xs ++ ys) s = andThen (performAll xs s) (performAll ys) := by
  induction xs generalizing s with
  | nil => rfl
  | cons x xs ih =>
    rw [List.cons_append, performAll, performAll]
    cases perform x s with
    | next u => exact ih u
    | fault f => rfl
    | refused r => rfl

theorem performAll_cons_eq_next {x : Input} {xs : List Input} :
    performAll (x :: xs) s = .next t ↔ ∃ u, perform x s = .next u ∧ performAll xs u = .next t := andThen_eq_next

theorem performAll_append_eq_next {xs ys : List Input} :
    performAll (xs ++ ys) s = .next t ↔ ∃ u, performAll xs s = .next u ∧ performAll ys u = .next t := by
  rw [performAll_append, andThen_eq_next]

/-- A command of its port's owner is admitted, where an owner that is the foreground is idle. -/
theorem admitted_latch {i : Instr} {a : Agent} {p : Port} (hp : p ∈ portsOf i) (ha : a = portOwner s.params p)
    (hfg : a = .fg → s.fg = none) (hi : initDuringOperation i (s.latch a p) = false) :
    admissionRefusal i (s.latch a p) = none :=
  (s.presented_latch ha hfg).admitted hp hi

theorem perform_seTxisr_eq_next : perform (commandOf .irq .seInterrupt .seTxisr) s = .next t ↔
    s.se.inited = true ∧ s.se.txIe = true ∧ s.se.txReady = true ∧
      (s.se.txq.isEmpty s.params.variant = true ∧
          t = (s.latch .irq .seInterrupt).withSe { s.se with txIe := false, transmitting := false } ∨
        s.se.txq.isEmpty s.params.variant = false ∧ ∃ q v, s.se.txq.pop s.params .txq = .next (q, v) ∧
          t = (s.latch .irq .seInterrupt).withSe { s.se with txq := q, txBuf := v, txReady := false }) := by
  rw [perform_commandOf, exec_seTxisr_eq_next]
  exact and_iff_right (admitted_latch (List.mem_singleton_self _) rfl nofun rfl)

theorem perform_seRxisr_eq_next : perform (commandOf .irq .seInterrupt .seRxisr) s = .next t ↔
    s.se.inited = true ∧ s.se.rxIe = true ∧ s.se.rxFull = true ∧
      ∃ q ok, s.se.rxq.push s.params .rxq s.se.rxBuf = .next (q, ok) ∧
        t = (s.latch .irq .seInterrupt).withSe { s.se with
          rxFull := false, rxq := q, rxDrop := if ok then s.se.rxDrop else satAdd1 s.se.rxDrop } := by
  rw [perform_commandOf, exec_seRxisr_eq_next]
  exact and_iff_right (admitted_latch (List.mem_singleton_self _) rfl nofun rfl)

theorem perform_lineTxdone_eq_next : perform (commandOf .line .seLine .lineTxdone) s = .next t ↔
    s.se.txReady = false ∧
      t = (s.latch .line .seLine).withSe { s.se with txLine := s.se.txLine ++ [s.se.txBuf], txReady := true } := by
  rw [perform_commandOf, exec_lineTxdone_eq_next]
  exact and_iff_right (admitted_latch (List.mem_singleton_self _) rfl nofun rfl)

/-! ### SE.TXISR -/

/-- The pending handler runs: it feeds the oldest queued byte, or returns to Idle where none is queued (rule R200). -/
theorem State.Inv.seTxisr_runs (hinv : s.Inv) (h1 : s.se.inited = true) (ht : s.se.transmitting = true)
    (hr : s.se.txReady = true) : ∃ t, perform (commandOf .irq .seInterrupt .seTxisr) s = .next t ∧
      (s.se.txq.contents s.params .txq = [] ∧ t.se = { s.se with txIe := false, transmitting := false } ∨
        ∃ x xs q, s.se.txq.contents s.params .txq = x :: xs ∧ q.contents s.params .txq = xs ∧
          t.se = { s.se with txq := q, txBuf := x, txReady := false }) ∧
      t.params = s.params ∧ t.fg = s.fg := by
  have hie : s.se.txIe = true := hinv.engine.enabled.trans ht
  obtain ⟨-, hb, -⟩ := hinv.engine.after h1
  have hh := hinv.txq_holds
  cases he : s.se.txq.isEmpty s.params.variant with
  | true =>
    exact ⟨_, perform_seTxisr_eq_next.mpr ⟨h1, hie, hr, .inl ⟨he, rfl⟩⟩, .inl ⟨hh.isEmpty_iff.mp he, rfl⟩, rfl, rfl⟩
  | false =>
    obtain ⟨x, xs, hx⟩ := List.exists_cons_of_ne_nil (hh.ne_nil he)
    rw [hx] at hh
    exact ⟨_, perform_seTxisr_eq_next.mpr ⟨h1, hie, hr, .inr ⟨he, _, _, hh.pop_eq hb he, rfl⟩⟩,
      .inr ⟨x, xs, _, hx, (hh.pop he).contents_eq, rfl⟩, rfl, rfl⟩

/-- What SE.RXISR's push can answer: it always answers on a bound buffer. -/
theorem RingBuf.Sound.push_total {P : Params} {id : BufId} {q : RingBuf} (h : q.Sound P id) (hb : q.bound = true)
    (b : Byte) : ∃ q' ok, q.push P id b = .next (q', ok) := by
  cases hf : q.isFull P.variant with
  | true => exact ⟨_, _, RingBuf.push_of_full hb hf b⟩
  | false => exact ⟨_, _, RingBuf.push_of_room hb hf h b⟩

/-! ### LINE.TXDONE and SE.TXISR until Idle -/

/-- The engine is Idle, with nothing left to send. -/
def State.IsIdle (s : State) : Prop :=
  s.se.transmitting = false ∧ s.se.txq.isEmpty s.params.variant = true ∧ s.se.txReady = true ∧ s.se.txIe = false

theorem State.Inv.isIdle (hinv : s.Inv) (ht : s.se.transmitting = false) : s.IsIdle := by
  obtain ⟨he, hr⟩ := hinv.engine.idle ht
  exact ⟨ht, he, hr, hinv.engine.enabled.trans ht⟩

/-- From `s` at most `n` steps of LINE.TXDONE and SE.TXISR lead to Idle, and leave the input register and the
foreground as they are. -/
def Drains (n : Nat) (s : State) : Prop :=
  ∃ xs t, xs.length ≤ n ∧
    (∀ x ∈ xs, x = commandOf .line .seLine .lineTxdone ∨ x = commandOf .irq .seInterrupt .seTxisr) ∧
    performAll xs s = .next t ∧ t.IsIdle ∧ t.se.rxFull = s.se.rxFull ∧ t.fg = s.fg

theorem Drains.step {n : Nat} {x : Input} (h : Drains n t)
    (hx : x = commandOf .line .seLine .lineTxdone ∨ x = commandOf .irq .seInterrupt .seTxisr)
    (hp : perform x s = .next t) (hrx : t.se.rxFull = s.se.rxFull) (hfg : t.fg = s.fg) : Drains (n + 1) s := by
  obtain ⟨xs, u, hlen, hall, hrun, hidle, hurx, hufg⟩ := h
  exact ⟨x :: xs, u, Nat.succ_le_succ hlen, List.forall_mem_cons.mpr ⟨hx, hall⟩,
    performAll_cons_eq_next.mpr ⟨t, hp, hrun⟩, hidle, hurx.trans hrx, hufg.trans hfg⟩

theorem Drains.mono {m n : Nat} (h : Drains m s) (hmn : m ≤ n) : Drains n s := by
  obtain ⟨xs, t, hlen, h⟩ := h
  exact ⟨xs, t, hlen.trans hmn, h⟩

theorem drains_of_idle (hinv : s.Inv) (ht : s.se.transmitting = false) : Drains 0 s :=
  ⟨[], s, Nat.le_refl _, nofun, rfl, hinv.isIdle ht, rfl, rfl⟩

/-- A byte in flight is one LINE.TXDONE away from the transmitter's being ready. -/
theorem drains_of_in_flight {n : Nat} (hr : s.se.txReady = false)
    (h : ∀ t, perform (commandOf .line .seLine .lineTxdone) s = .next t → t.params = s.params →
      t.se = { s.se with txLine := s.se.txLine ++ [s.se.txBuf], txReady := true } → Drains n t) : Drains (n + 1) s := by
  have hp := perform_lineTxdone_eq_next.mpr ⟨hr, rfl⟩
  exact (h _ hp rfl rfl).step (.inl rfl) hp rfl rfl

/-- Each queued byte is fed by SE.TXISR and sent by LINE.TXDONE; then SE.TXISR returns to Idle. -/
theorem drains_of_ready (n : Nat) : ∀ s : State, s.Inv → s.se.inited = true → s.se.transmitting = true →
    s.se.txReady = true → (s.se.txq.contents s.params .txq).length = n → Drains (2 * n + 1) s := by
  induction n with
  | zero =>
    intro s hinv h1 ht hr hn
    obtain ⟨t, hp, ⟨-, hse⟩ | ⟨x, xs, q, hx, -⟩, hparams, hfg⟩ := hinv.seTxisr_runs h1 ht hr
    · exact (drains_of_idle (inv_of_perform hinv hp) (by rw [hse])).step (.inr rfl) hp (by rw [hse]) hfg
    · rw [hx] at hn
      cases hn
  | succ n ih =>
    intro s hinv h1 ht hr hn
    obtain ⟨t, hp, ⟨hx, -⟩ | ⟨x, xs, q, hx, hq, hse⟩, hparams, hfg⟩ := hinv.seTxisr_runs h1 ht hr
    · rw [hx] at hn
      cases hn
    · refine Drains.step (n := 2 * n + 2) ?_ (.inr rfl) hp (by rw [hse]) hfg
      refine drains_of_in_flight (by rw [hse]) fun u hu huparams huse => ?_
      rw [hse] at huse
      refine ih u (inv_of_perform (inv_of_perform hinv hp) hu) (by rw [huse]; exact h1) (by rw [huse]; exact ht)
        (by rw [huse]) ?_
      rw [huse, huparams, hparams, hq]
      rw [hx] at hn
      exact Nat.succ.inj hn

theorem State.Inv.drains (hinv : s.Inv) (h1 : s.se.inited = true) :
    Drains (2 * (s.se.txq.occ s.params.variant + 1)) s := by
  have hlen := hinv.txq_holds.length_eq_occ
  cases ht : s.se.transmitting with
  | false => exact (drains_of_idle hinv ht).mono (Nat.zero_le _)
  | true =>
    cases hr : s.se.txReady with
    | true => exact (drains_of_ready _ s hinv h1 ht hr hlen).mono (by omega)
    | false =>
      refine drains_of_in_flight (n := 2 * s.se.txq.occ s.params.variant + 1) hr fun t hp hparams hse => ?_
      refine drains_of_ready _ t (inv_of_perform hinv hp) (by rw [hse]; exact h1) (by rw [hse]; exact ht)
        (by rw [hse]) ?_
      rw [hse, hparams, hlen]

end

end Sys2Proof.Machine

namespace Sys2Proof.Proofs

open Sys2Proof Sys2Proof.Machine

/-- Settles O10: all four are the invariant of the state after the step, with SE.TXISR run on it. -/
theorem engineStateMatchesItsHardware : Obligations.EngineStateMatchesItsHardware := by
  unfold Obligations.EngineStateMatchesItsHardware
  intro s s' hs h h1
  have hinv := inv_of_step hs h
  have henabled := hinv.engine.enabled
  refine ⟨henabled, hinv.engine.idle, fun ht hr => ⟨?_, ?_⟩, fun hpending => ⟨hinv.engine.idle, fun ⟨_, hr⟩ => ?_⟩⟩
  · exact SerialEngine.txisrEnabled_iff.mpr ⟨h1, henabled.trans ht, hr⟩
  · obtain ⟨t, hp, ⟨hx, hse⟩ | ⟨x, xs, q, hx, -, hse⟩, -⟩ := hinv.seTxisr_runs h1 ht hr
    · exact ⟨t, hp, .inr ⟨by rw [hse], by rw [hse], hx⟩⟩
    · exact ⟨t, hp, .inl ⟨by rw [hse]; exact ht, by rw [hse], by rw [hse, hx]; rfl⟩⟩
  · rw [← henabled]
    exact Bool.eq_false_of_not_eq_true fun hie => hpending ⟨hie, hr⟩

/-- Settles O57: a byte in flight first, then one pair of steps for each queued byte, then the return to Idle. -/
theorem engineDrains : Obligations.EngineDrains := by
  unfold Obligations.EngineDrains
  intro s hinv h1 hfg
  obtain ⟨xs, t, hlen, hall, hrun, ⟨ht, he, hr, hie⟩, hrx, htfg⟩ := hinv.drains h1
  exact ⟨xs, t, hlen, hall, hrun, ht, he, hr, hie, fun hf => ⟨ht, hrx.trans hf, htfg.trans hfg⟩⟩

end Sys2Proof.Proofs
end

section
/-! SUPPORT. Proofs about the FIFO order of the RB unit (rule R153), the handlers' order (rule R232) and the sender that
no handler serves (rules R173, R268). -/

namespace Sys2Proof.Machine

open Sys2Proof.Config

/-! ### RB.PUSH and RB.POP on a quiescent buffer -/

section
variable {s t : State}

/-- A push that answers success appended its byte. -/
theorem State.Inv.contents_of_push (hinv : s.Inv) (hq : s.inProgressOn .rb = false) {b : Byte}
    (h : exec (.rbPush b) s = .next t) (hr : t.lastResult = 0x01) :
    t.rb.contents t.params .rb = s.rb.contents s.params .rb ++ [b] := by
  obtain ⟨-, q, ok, hpush, rfl⟩ := exec_rbPush_eq_next.mp h
  rw [State.lastResult_respond] at hr
  obtain ⟨-, -, rfl⟩ | ⟨hf, rfl, -⟩ := RingBuf.push_cases hpush
  · cases hr
  · exact ((hinv.rb_holds hq).push hf).contents_eq

/-- A pop on a buffer that holds a byte returns the oldest. -/
theorem State.Inv.contents_of_pop (hinv : s.Inv) (hq : s.inProgressOn .rb = false) {x : Byte} {c : List Byte}
    (hx : s.rb.contents s.params .rb = x :: c) (h : exec .rbPop s = .next t) :
    t.lastResult = x ∧ t.rb.contents t.params .rb = c := by
  obtain ⟨-, q, v, hpop, rfl⟩ := exec_rbPop_eq_next.mp h
  have hh := hinv.rb_holds hq
  rw [hx] at hh
  rw [State.lastResult_respond]
  obtain ⟨he, -⟩ | ⟨he, rfl, rfl⟩ := RingBuf.pop_cases hpop
  · exact nomatch hh.isEmpty_iff.mp he
  · exact ⟨slotByte_of_read hh.read_tail, (hh.pop he).contents_eq⟩

/-- The RB unit holds `xs`, on a machine with the invariant and the foreground idle. -/
structure Queued (xs : List Byte) (s : State) : Prop where
  inv   : s.Inv
  idle  : s.fg = none
  bound : s.rb.bound = true
  bytes : s.rb.contents s.params .rb = xs

theorem Queued.holds {xs : List Byte} (h : Queued xs s) : s.rb.Holds s.params .rb 0 0 xs :=
  h.bytes ▸ h.inv.rb_holds (inProgressOn_of_idle h.idle .rb)

theorem Queued.push {xs : List Byte} (h : Queued xs s) (hroom : xs.length < s.rb.usable s.params.variant) (b : Byte) :
    ∃ t, perform (commandOf (portOwner s.params .rbProducer) .rbProducer (.rbPush b)) s = .next t ∧
      Queued (xs ++ [b]) t ∧ t.params = s.params ∧ t.rb.cap = s.rb.cap ∧
      t.responses = s.responses ++ [{ port := .rbProducer, bytes := [0x00, 0x01] }] := by
  have hh := h.holds
  have hf : s.rb.isFull s.params.variant = false := by
    rw [hh.sound.isFull_eq_false_iff, ← hh.length_eq_occ]
    exact hroom
  have hp : perform (commandOf (portOwner s.params .rbProducer) .rbProducer (.rbPush b)) s = .next
      (((s.latch (portOwner s.params .rbProducer) .rbProducer).withRb
        ((s.rb.store b).advanceHead.countUp s.params.variant)).respond [ccDone, boolByte true]) := by
    rw [perform_commandOf, exec_rbPush_eq_next]
    exact ⟨admitted_latch (List.mem_singleton_self _) rfl (fun _ => h.idle) rfl, _, _, hh.push_eq h.bound hf, rfl⟩
  exact ⟨_, hp, ⟨inv_of_perform h.inv hp, h.idle, by simpa using h.bound, (hh.push hf).contents_eq⟩, rfl, by simp, rfl⟩

theorem Queued.pop {x : Byte} {xs : List Byte} (h : Queued (x :: xs) s) :
    ∃ t, perform (commandOf (portOwner s.params .rbConsumer) .rbConsumer .rbPop) s = .next t ∧
      Queued xs t ∧ t.params = s.params ∧
      t.responses = s.responses ++ [{ port := .rbConsumer, bytes := [0x00, x] }] := by
  have hh := h.holds
  have he : s.rb.isEmpty s.params.variant = false := hh.isEmpty_eq_false nofun
  have hp : perform (commandOf (portOwner s.params .rbConsumer) .rbConsumer .rbPop) s = .next
      (((s.latch (portOwner s.params .rbConsumer) .rbConsumer).withRb
        (s.rb.advanceTail.countDown s.params.variant)).respond [ccDone, x]) := by
    rw [perform_commandOf, exec_rbPop_eq_next]
    exact ⟨admitted_latch (List.mem_singleton_self _) rfl (fun _ => h.idle) rfl, _, _, hh.pop_eq h.bound he, rfl⟩
  exact ⟨_, hp, ⟨inv_of_perform h.inv hp, h.idle, by simpa using h.bound, (hh.pop he).contents_eq⟩, rfl, rfl⟩

theorem Queued.pushes {xs : List Byte} (h : Queued xs s) (bs : List Byte)
    (hroom : xs.length + bs.length ≤ s.rb.usable s.params.variant) :
    ∃ t, performAll (bs.map fun b => commandOf (portOwner s.params .rbProducer) .rbProducer (.rbPush b)) s = .next t ∧
      Queued (xs ++ bs) t ∧ t.params = s.params ∧
      t.responses = s.responses ++ bs.map fun _ => { port := .rbProducer, bytes := [0x00, 0x01] } := by
  induction bs generalizing s xs with
  | nil => exact ⟨s, rfl, by rwa [List.append_nil], rfl, by simp⟩
  | cons b bs ih =>
    rw [List.length_cons] at hroom
    obtain ⟨u, hp, hu, huparams, hucap, hures⟩ := h.push (by omega) b
    obtain ⟨t, hrun, ht, htparams, htres⟩ := ih hu (by
      rw [RingBuf.usable, hucap, huparams, List.length_append, List.length_singleton, ← RingBuf.usable]
      omega)
    rw [huparams] at hrun
    refine ⟨t, performAll_cons_eq_next.mpr ⟨u, hp, hrun⟩, ?_, htparams.trans huparams, ?_⟩
    · rwa [List.append_assoc] at ht
    · rw [htres, hures, List.append_assoc]
      rfl

theorem Queued.pops (bs : List Byte) (h : Queued bs s) :
    ∃ t, performAll (bs.map fun _ => commandOf (portOwner s.params .rbConsumer) .rbConsumer .rbPop) s = .next t ∧
      Queued [] t ∧ t.responses = s.responses ++ bs.map fun b => { port := .rbConsumer, bytes := [0x00, b] } := by
  induction bs generalizing s with
  | nil => exact ⟨s, rfl, h, by simp⟩
  | cons b bs ih =>
    obtain ⟨u, hp, hu, huparams, hures⟩ := h.pop
    obtain ⟨t, hrun, ht, htres⟩ := ih hu
    rw [huparams] at hrun
    refine ⟨t, performAll_cons_eq_next.mpr ⟨u, hp, hrun⟩, ht, ?_⟩
    rw [htres, hures, List.append_assoc]
    rfl

/-! ### SE.SEND with no handler run -/

/-- The engine is Draining and `txq` holds `xs`, on a machine with the invariant and the foreground idle. -/
structure Sending (xs : List Byte) (s : State) : Prop where
  inv      : s.Inv
  idle     : s.fg = none
  inited   : s.se.inited = true
  draining : s.se.transmitting = true
  bytes    : s.se.txq.contents s.params .txq = xs

theorem Sending.holds {xs : List Byte} (h : Sending xs s) : s.se.txq.Holds s.params .txq 0 0 xs :=
  h.bytes ▸ h.inv.txq_holds

theorem Sending.accepted {xs : List Byte} (h : Sending xs s) (hroom : xs.length < s.se.txq.usable s.params.variant)
    (b : Byte) : ∃ t, perform (commandOf .fg .seForeground (.seSend b)) s = .next t ∧ Sending (xs ++ [b]) t ∧
      t.params = s.params ∧ t.se.txq.cap = s.se.txq.cap ∧
      t.responses = s.responses ++ [{ port := .seForeground, bytes := [0x00] }] := by
  have hh := h.holds
  obtain ⟨-, hb, -⟩ := h.inv.engine.after h.inited
  have hf : s.se.txq.isFull s.params.variant = false := by
    rw [hh.sound.isFull_eq_false_iff, ← hh.length_eq_occ]
    exact hroom
  have hp : perform (commandOf .fg .seForeground (.seSend b)) s = .next (((s.latch .fg .seForeground).withTxq
      ((s.se.txq.store b).advanceHead.countUp s.params.variant)).respond [ccDone]) := by
    rw [perform_commandOf, exec_seSend_eq_next]
    exact ⟨admitted_latch (List.mem_singleton_self _) rfl (fun _ => h.idle) rfl, h.inited,
      .inr (.inl ⟨h.draining, hf, _, _, hh.push_eq hb hf, rfl⟩)⟩
  exact ⟨_, hp, ⟨inv_of_perform h.inv hp, h.idle, h.inited, h.draining, (hh.push hf).contents_eq⟩, rfl, by simp, rfl⟩

/-- From Idle the first byte goes to the transmitter (rule R172). -/
theorem State.Inv.sending (hinv : s.Inv) (h1 : s.se.inited = true) (ht : s.se.transmitting = false)
    (hfg : s.fg = none) (b : Byte) :
    ∃ t, perform (commandOf .fg .seForeground (.seSend b)) s = .next t ∧ Sending [] t ∧
      t.params = s.params ∧ t.se.txq.cap = s.se.txq.cap ∧
      t.responses = s.responses ++ [{ port := .seForeground, bytes := [0x00] }] := by
  obtain ⟨he, hr⟩ := hinv.engine.idle ht
  have hp : perform (commandOf .fg .seForeground (.seSend b)) s = .next (((s.latch .fg .seForeground).withSe
      { s.se with txBuf := b, txReady := false, transmitting := true, txIe := true }).respond [ccDone]) := by
    rw [perform_commandOf, exec_seSend_eq_next]
    exact ⟨admitted_latch (List.mem_singleton_self _) rfl (fun _ => hfg) rfl, h1, .inl ⟨ht, hr, rfl⟩⟩
  exact ⟨_, hp, ⟨inv_of_perform hinv hp, hfg, h1, rfl, hinv.txq_holds.isEmpty_iff.mp he⟩, rfl, rfl, rfl⟩

theorem Sending.accepts {xs : List Byte} (h : Sending xs s) (bs : List Byte)
    (hroom : xs.length + bs.length ≤ s.se.txq.usable s.params.variant) :
    ∃ t, performAll (bs.map fun b => commandOf .fg .seForeground (.seSend b)) s = .next t ∧ Sending (xs ++ bs) t ∧
      t.se.txq.usable t.params.variant = s.se.txq.usable s.params.variant ∧
      t.responses = s.responses ++ bs.map fun _ => { port := .seForeground, bytes := [0x00] } := by
  induction bs generalizing s xs with
  | nil => exact ⟨s, rfl, by rwa [List.append_nil], rfl, by simp⟩
  | cons b bs ih =>
    rw [List.length_cons] at hroom
    obtain ⟨u, hp, hu, huparams, hucap, hures⟩ := h.accepted (by omega) b
    have husable : u.se.txq.usable u.params.variant = s.se.txq.usable s.params.variant := by
      rw [RingBuf.usable, hucap, huparams, ← RingBuf.usable]
    obtain ⟨t, hrun, ht, htusable, htres⟩ := ih hu (by
      rw [husable, List.length_append, List.length_singleton]
      omega)
    refine ⟨t, performAll_cons_eq_next.mpr ⟨u, hp, hrun⟩, ?_, htusable.trans husable, ?_⟩
    · rwa [List.append_assoc] at ht
    · rw [htres, hures, List.append_assoc]
      rfl

/-- A full `txq` holds the next byte back (rule R172). -/
theorem Sending.held {xs : List Byte} (h : Sending xs s) (hfull : xs.length = s.se.txq.usable s.params.variant)
    (b : Byte) : ∃ u, perform (commandOf .fg .seForeground (.seSend b)) s = .next u ∧ u.lastResponse = [0x01] ∧
      u.se = s.se ∧ u.rb = s.rb := by
  have hh := h.holds
  have hf : s.se.txq.isFull s.params.variant = true := by
    rw [hh.sound.isFull_iff, ← hh.length_eq_occ]
    exact hfull
  refine ⟨(s.latch .fg .seForeground).respond [ccHeld], ?_, State.lastResponse_respond .., rfl, rfl⟩
  rw [perform_commandOf, exec_seSend_eq_next]
  exact ⟨admitted_latch (List.mem_singleton_self _) rfl (fun _ => h.idle) rfl, h.inited,
    .inr (.inr ⟨h.draining, hf, rfl⟩)⟩

/-! ### A held sender -/

/-- What holds of a held sender: the engine is Draining and `txq` is full. -/
def Held (s : State) : Prop :=
  s.se.inited = true ∧ s.se.transmitting = true ∧ s.se.txq.isFull s.params.variant = true

theorem instr_of_seLine {i : Instr} (h : .seLine ∈ portsOf i) : i = .lineTxdone ∨ ∃ b, i = .lineRxbyte b := by
  cases i
  case lineTxdone => exact .inl rfl
  case lineRxbyte b => exact .inr ⟨b, rfl⟩
  all_goals simp [portsOf] at h

/-- The line's events leave a held sender held, and answer nothing. -/
theorem Held.line {i : Instr} (h : Held s) (hp : perform (commandOf .line .seLine i) s = .next t) :
    Held t ∧ t.se.txq = s.se.txq ∧ t.responses = s.responses := by
  rw [perform_commandOf] at hp
  obtain ⟨hmem, -⟩ := admissionRefusal_eq_none.mp (admissionRefusal_of_exec hp)
  obtain rfl | ⟨b, rfl⟩ := instr_of_seLine hmem
  · obtain ⟨-, -, rfl⟩ := exec_lineTxdone_eq_next.mp hp
    exact ⟨h, rfl, rfl⟩
  · obtain ⟨-, ⟨-, rfl⟩ | ⟨-, rfl⟩⟩ := exec_lineRxbyte_eq_next.mp hp <;> exact ⟨h, rfl, rfl⟩

/-- Every further attempt is answered HELD. -/
theorem Held.send {b : Byte} (h : Held s) (hp : perform (commandOf .fg .seForeground (.seSend b)) s = .next t) :
    Held t ∧ t.se.txq = s.se.txq ∧
      t.responses = s.responses ++ [{ port := .seForeground, bytes := [0x01] }] := by
  obtain ⟨h1, ht, hf⟩ := h
  rw [perform_commandOf] at hp
  obtain ⟨-, -, ⟨ht', -⟩ | ⟨-, hf', -⟩ | ⟨-, -, rfl⟩⟩ := exec_seSend_eq_next.mp hp
  · exact nomatch ht.symm.trans ht'
  · exact nomatch hf.symm.trans hf'
  · exact ⟨⟨h1, ht, hf⟩, rfl, rfl⟩

theorem Held.performAll {xs : List Input} (h : Held s)
    (hxs : ∀ x ∈ xs, (∃ b, x = commandOf .fg .seForeground (.seSend b)) ∨ ∃ i, x = commandOf .line .seLine i)
    (hrun : performAll xs s = .next t) : Held t ∧ t.se.txq = s.se.txq ∧
      ∃ k, t.responses = s.responses ++ List.replicate k { port := .seForeground, bytes := [0x01] } := by
  induction xs generalizing s with
  | nil =>
    obtain rfl := Host.Outcome.next.inj hrun
    exact ⟨h, rfl, 0, by simp⟩
  | cons x xs ih =>
    obtain ⟨u, hx, hrest⟩ := performAll_cons_eq_next.mp hrun
    obtain ⟨hhead, htail⟩ := List.forall_mem_cons.mp hxs
    obtain ⟨b, rfl⟩ | ⟨i, rfl⟩ := hhead
    · obtain ⟨hu, hq, hres⟩ := h.send hx
      obtain ⟨ht, htq, k, hk⟩ := ih hu htail hrest
      exact ⟨ht, htq.trans hq, k + 1, by rw [hk, hres, List.append_assoc, List.replicate_succ]; rfl⟩
    · obtain ⟨hu, hq, hres⟩ := h.line hx
      obtain ⟨ht, htq, k, hk⟩ := ih hu htail hrest
      exact ⟨ht, htq.trans hq, k, by rw [hk, hres]⟩

end

end Sys2Proof.Machine

namespace Sys2Proof.Proofs

open Sys2Proof Sys2Proof.Machine

/-- Settles O19: one push and one pop by the list the buffer holds, and the run by induction on the bytes. -/
theorem fifoOrder : Obligations.FifoOrder := by
  unfold Obligations.FifoOrder
  refine ⟨fun s t b hinv hq => hinv.contents_of_push hq, fun s t x c hinv hq => hinv.contents_of_pop hq,
    fun s bs hinv hfg hb hempty hroom => ?_⟩
  have hs : Queued [] s := ⟨hinv, hfg, hb, hempty⟩
  obtain ⟨u, hpush, hu, huparams, hures⟩ := hs.pushes bs (by simpa using hroom)
  obtain ⟨t, hpop, ht, htres⟩ := Queued.pops bs hu
  rw [huparams] at hpop
  exact ⟨t, performAll_append_eq_next.mpr ⟨u, hpush, hpop⟩, by rw [htres, hures], ht.bytes⟩

/-- Settles O41: the handlers write registers of their own, and neither reads what the other writes. -/
theorem handlersCommute : Obligations.HandlersCommute := by
  unfold Obligations.HandlersCommute
  intro s hinv htx hrx
  obtain ⟨h1, hie, hr⟩ := SerialEngine.txisrEnabled_iff.mp htx
  obtain ⟨-, hrie, hrf⟩ := SerialEngine.rxisrEnabled_iff.mp hrx
  obtain ⟨-, htb, hrb, -⟩ := hinv.engine.after h1
  obtain ⟨qr, ok, hpush⟩ := hinv.rxSound.push_total hrb s.se.rxBuf
  have hrxisr : perform (commandOf .irq .seInterrupt .seRxisr) s = .next _ :=
    perform_seRxisr_eq_next.mpr ⟨h1, hrie, hrf, qr, ok, hpush, rfl⟩
  cases he : s.se.txq.isEmpty s.params.variant with
  | true =>
    have htxisr : perform (commandOf .irq .seInterrupt .seTxisr) s = .next _ :=
      perform_seTxisr_eq_next.mpr ⟨h1, hie, hr, .inl ⟨he, rfl⟩⟩
    exact ⟨_, performAll_cons_eq_next.mpr ⟨_, htxisr, performAll_cons_eq_next.mpr
        ⟨_, perform_seRxisr_eq_next.mpr ⟨h1, hrie, hrf, qr, ok, hpush, rfl⟩, rfl⟩⟩,
      performAll_cons_eq_next.mpr ⟨_, hrxisr, performAll_cons_eq_next.mpr
        ⟨_, perform_seTxisr_eq_next.mpr ⟨h1, hie, hr, .inl ⟨he, rfl⟩⟩, rfl⟩⟩⟩
  | false =>
    obtain ⟨x, xs, hx⟩ := List.exists_cons_of_ne_nil (hinv.txq_holds.ne_nil he)
    have hpop := (hx ▸ hinv.txq_holds).pop_eq htb he
    have htxisr : perform (commandOf .irq .seInterrupt .seTxisr) s = .next _ :=
      perform_seTxisr_eq_next.mpr ⟨h1, hie, hr, .inr ⟨he, _, x, hpop, rfl⟩⟩
    exact ⟨_, performAll_cons_eq_next.mpr ⟨_, htxisr, performAll_cons_eq_next.mpr
        ⟨_, perform_seRxisr_eq_next.mpr ⟨h1, hrie, hrf, qr, ok, hpush, rfl⟩, rfl⟩⟩,
      performAll_cons_eq_next.mpr ⟨_, hrxisr, performAll_cons_eq_next.mpr
        ⟨_, perform_seTxisr_eq_next.mpr ⟨h1, hie, hr, .inr ⟨he, _, x, hpop, rfl⟩⟩, rfl⟩⟩⟩

/-- Settles O55: the first byte goes to the transmitter and the others to `txq`, until it is full. -/
theorem sendQueuesOneMoreThanCapacity : Obligations.SendQueuesOneMoreThanCapacity := by
  unfold Obligations.SendQueuesOneMoreThanCapacity
  intro s bs hinv h1 ht hfg hlen
  cases bs with
  | nil => exact ⟨s, rfl, by simp, fun h => by rw [List.length_nil] at h; omega⟩
  | cons b bs =>
    rw [List.length_cons] at hlen
    obtain ⟨u, hp, hu, huparams, hucap, hures⟩ := hinv.sending h1 ht hfg b
    have husable : u.se.txq.usable u.params.variant = s.se.txq.usable s.params.variant := by
      rw [RingBuf.usable, hucap, huparams, ← RingBuf.usable]
    obtain ⟨t, hrun, ht, htusable, htres⟩ := hu.accepts bs (by rw [husable, List.length_nil]; omega)
    refine ⟨t, performAll_cons_eq_next.mpr ⟨u, hp, hrun⟩, ?_, fun hfull b => ht.held ?_ b⟩
    · rw [htres, hures, List.append_assoc]
      rfl
    · rw [htusable, husable]
      rw [List.length_cons] at hfull
      rw [List.nil_append]
      omega

/-- Settles O56: a held sender stays held under each of the two kinds of input, by induction on the run. -/
theorem heldSenderWaitsForTheHandler : Obligations.HeldSenderWaitsForTheHandler := by
  unfold Obligations.HeldSenderWaitsForTheHandler
  intro s t xs _ h1 ht hf hxs hrun
  obtain ⟨⟨-, ht', -⟩, hq, hres⟩ := Held.performAll ⟨h1, ht, hf⟩ hxs hrun
  exact ⟨hq, ht', hres⟩

end Sys2Proof.Proofs
end

section
/-! SUPPORT. Proofs about what a step leaves alone, of all agents (rules R22, R23, R33, R83, R230, R240). -/

namespace Sys2Proof.Machine

open Sys2Proof.Config

/-! ### The role a step plays at a buffer -/

/-- What the micro-steps of an operation do to its own buffer. -/
def microTouch : MicroOp → Touch
  | .push b => .push b
  | .pop => .pop
  | .recv => .pop
  | _ => .leave

/-- What the next step may do to the buffer `id`: an atomic operation at once, one in micro-steps part by part. -/
def State.touches (s : State) (id : BufId) : Touch :=
  match s.performs, s.resumes with
  | some i, _ => touchOf id i s
  | none, some f => if microBuf f.op = id then microTouch f.op else .leave
  | none, none => .leave

/-- What a step keeps of a buffer, by its role there: the indices and the slots of the other role (rules R22, R23), and
what the other role may have seen (rule R83). -/
inductive RingBuf.Kept (P : Params) (q q' : RingBuf) : Touch → Prop
  | leave (h : q' = q) : Kept P q q' .leave
  | build (hslots : q'.slots = q.slots) : Kept P q q' .build
  | push (b : Byte) (htail : q'.tail = q.tail) (hcap : q'.cap = q.cap) (hbound : q'.bound = q.bound)
      (hempty : q.isEmpty P.variant = false → q'.isEmpty P.variant = false)
      (hfull : q.isFull P.variant = true → q'.slots = q.slots) : Kept P q q' (.push b)
  | pop (hhead : q'.head = q.head) (hslots : q'.slots = q.slots) (hcap : q'.cap = q.cap) (hbound : q'.bound = q.bound)
      (hfull : q.isFull P.variant = false → q'.isFull P.variant = false) : Kept P q q' .pop

section
variable {P : Params} {id : BufId} {q q' : RingBuf} {u : Touch}

theorem RingBuf.Kept.of_push_nothing (P : Params) (q : RingBuf) (b : Byte) : q.Kept P q (.push b) :=
  .push b rfl rfl rfl (fun h => h) fun _ => rfl

theorem RingBuf.Kept.of_pop_nothing (P : Params) (q : RingBuf) : q.Kept P q .pop :=
  .pop rfl rfl rfl rfl fun h => h

theorem RingBuf.Kept.cap_bound (h : q.Kept P q' u) (hu : u ≠ .build) : q'.cap = q.cap ∧ q'.bound = q.bound := by
  cases h with
  | leave h => rw [h]; exact ⟨rfl, rfl⟩
  | build => exact absurd rfl hu
  | push _ _ hcap hbound => exact ⟨hcap, hbound⟩
  | pop _ _ hcap hbound => exact ⟨hcap, hbound⟩

theorem RingBuf.Kept.head_slots (h : q.Kept P q' u) (hu : u ≠ .build) (hp : ∀ b, u ≠ .push b) :
    q'.head = q.head ∧ q'.slots = q.slots := by
  cases h with
  | leave h => rw [h]; exact ⟨rfl, rfl⟩
  | build => exact absurd rfl hu
  | push b => exact absurd rfl (hp b)
  | pop hhead hslots => exact ⟨hhead, hslots⟩

theorem RingBuf.Kept.slots_eq (h : q.Kept P q' u) (hp : ∀ b, u = .push b → q.isFull P.variant = true) :
    q'.slots = q.slots := by
  cases h with
  | leave h => rw [h]
  | build hslots => exact hslots
  | push b _ _ _ _ hfull => exact hfull (hp b rfl)
  | pop _ hslots => exact hslots

theorem RingBuf.Kept.tail_eq (h : q.Kept P q' u) (hu : u ≠ .build) (hp : u ≠ .pop) : q'.tail = q.tail := by
  cases h with
  | leave h => rw [h]
  | build => exact absurd rfl hu
  | push _ htail => exact htail
  | pop => exact absurd rfl hp

theorem RingBuf.Kept.eq (h : q.Kept P q' u) (hu : u = .leave) : q' = q := by
  cases h with
  | leave h => exact h
  | build | push | pop => cases hu

theorem RingBuf.Kept.not_full (h : q.Kept P q' u) (hu : u ≠ .build) (hp : ∀ b, u ≠ .push b)
    (hf : q.isFull P.variant = false) : q'.isFull P.variant = false := by
  cases h with
  | leave h => rw [h]; exact hf
  | build => exact absurd rfl hu
  | push b => exact absurd rfl (hp b)
  | pop _ _ _ _ hfull => exact hfull hf

theorem RingBuf.Kept.not_empty (h : q.Kept P q' u) (hu : u ≠ .build) (hp : u ≠ .pop)
    (he : q.isEmpty P.variant = false) : q'.isEmpty P.variant = false := by
  cases h with
  | leave h => rw [h]; exact he
  | build => exact absurd rfl hu
  | push _ _ _ _ hempty => exact hempty he
  | pop => exact absurd rfl hp

/-! ### Atomic operations -/

theorem BufInv.kept_of_touched {fg : Option Progress} (h : BufInv P id fg q) (ht : q.Touched P id u q')
    (hu : ∀ f, fg = some f → microBuf f.op = id → u.clashes f.op = false) : q.Kept P q' u := by
  cases ht with
  | leave => exact .leave rfl
  | init | unbind | rebuild => exact .build rfl
  | full b => exact RingBuf.Kept.of_push_nothing P q b
  | empty => exact RingBuf.Kept.of_pop_nothing P q
  | push b hf =>
    have hh := h.holds_of_no_push hu
    exact .push b (by simp) (by simp) (by simp) (fun _ => hh.isEmpty_push hf b) fun hf' => nomatch hf.symm.trans hf'
  | pop he =>
    have hh := h.holds_of_no_pop fun f hfg hid => MicroOp.isPop_eq_false (hu f hfg hid)
    obtain ⟨x, ys, hx⟩ := List.exists_cons_of_ne_nil (hh.ne_nil he)
    rw [hx] at hh
    exact .pop (by simp) (by simp) (by simp) (by simp) fun _ => hh.isFull_pop he

end

section
variable {i : Instr} {s t : State} {f : Progress}

theorem exec_keeps_buf (hinv : s.Inv) (h : exec i s = .next t) (id : BufId) :
    (s.buf id).Kept s.params (t.buf id) (touchOf id i s) := by
  obtain ⟨hbuf, -, hadm⟩ := State.inv_iff.mp hinv
  refine (hbuf id).kept_of_touched (exec_touches h id) fun f hf hid => ?_
  subst hid
  exact touchOf_clashes_eq_false (admissionRefusal_of_exec h) hf (hadm f hf)

/-! ### Micro-steps -/

@[simp] theorem State.buf_finish (s : State) (f : Progress) (bytes : List Byte) (id : BufId) :
    (s.finish f bytes).buf id = s.buf id := by cases id <;> rfl

@[simp] theorem State.buf_withFg (s : State) (fg : Option Progress) (id : BufId) : (s.withFg fg).buf id = s.buf id := by
  cases id <;> rfl

@[simp] theorem State.buf_withBuf_same (s : State) (id : BufId) (q : RingBuf) : (s.withBuf id q).buf id = q := by
  cases id <;> rfl

theorem State.buf_withBuf_other (s : State) {id id' : BufId} (q : RingBuf) (h : id ≠ id') :
    (s.withBuf id q).buf id' = s.buf id' := by
  cases id <;> cases id'
  case rb.rb | txq.txq | rxq.rxq => exact absurd rfl h
  all_goals rfl

theorem State.buf_withRb_other (s : State) {id : BufId} (q : RingBuf) (h : .rb ≠ id) :
    (s.withRb q).buf id = s.buf id := s.buf_withBuf_other q h

theorem microBuf_of_push {b : Byte} (h : f.op = .push b) : microBuf f.op = .rb := by rw [h]; rfl

theorem microBuf_of_peek (h : f.op = .peek) : microBuf f.op = .rb := by rw [h]; rfl

/-- A micro-step leaves every buffer but its operation's as it is. -/
theorem Took.other_buf (h : Took f s t) {id : BufId} (hid : microBuf f.op ≠ id) : t.buf id = s.buf id := by
  cases h with
  | pushStored b hop | pushAdvanced b hop =>
    rw [State.buf_withFg, State.buf_withRb_other s _ (microBuf_of_push hop ▸ hid)]
  | pushPublished b hop | pushCounted b hop =>
    rw [State.buf_finish, State.buf_withRb_other s _ (microBuf_of_push hop ▸ hid)]
  | popAdvanced => rw [State.buf_withFg, State.buf_withBuf_other s _ hid]
  | popReleased | popCounted => rw [State.buf_finish, State.buf_withBuf_other s _ hid]
  | pushHeld | popEmpty | peekEmpty | peekRead | emptyAnswered | fullAnswered | occAnswered => rw [State.buf_finish]
  | pushTested | popTested | popRead | peekTested => rw [State.buf_withFg]

/-- A micro-step writes no register of the engine but those of `rxq`, and nothing of the instance. -/
theorem Took.keeps (h : Took f s t) : t.params = s.params ∧ t.se = { s.se with rxq := t.se.rxq } := by
  have hwith (id : BufId) (q : RingBuf) (hop : f.op = .pop ∨ f.op = .recv) :
      (s.withBuf (microBuf f.op) q).se = { s.se with rxq := (s.withBuf (microBuf f.op) q).se.rxq } := by
    obtain hop | hop := hop <;> rw [hop] <;> rfl
  cases h with
  | popAdvanced hop | popReleased hop | popCounted hop => exact ⟨State.withBuf_params .., hwith .rxq _ hop⟩
  | pushStored | pushAdvanced | pushPublished | pushCounted | pushHeld | popEmpty | peekEmpty | peekRead |
    emptyAnswered | fullAnswered | occAnswered | pushTested | popTested | popRead | peekTested => exact ⟨rfl, rfl⟩

theorem RingBuf.Holds.isFull_of_length_lt {P : Params} {id : BufId} {r : Nat} {xs : List Byte} {q : RingBuf}
    (h : q.Holds P id 0 r xs) (hlen : xs.length + r < q.usable P.variant) : q.isFull P.variant = false := by
  have hl := h.length
  exact h.sound.isFull_eq_false_iff.mpr (by omega)

/-- The parts of a push keep what the consumer may know, and write no slot of a full buffer. -/
theorem kept_of_pushing (hinv : s.Inv) (hs : s.fg = some f) {b : Byte} (hop : f.op = .push b) (h : Took f s t) :
    s.rb.Kept s.params t.rb (.push b) := by
  have hknows := (opKnows_of_pushing hop).mp (hinv.knows hs (microBuf_of_push hop))
  cases h with
  | pushHeld | pushTested => exact RingBuf.Kept.of_push_nothing ..
  | pushStored c _ hu =>
    rw [hu] at hknows
    exact .push b rfl rfl rfl (fun he => (RingBuf.isEmpty_store ..).trans he) fun hf => nomatch hknows.symm.trans hf
  | pushAdvanced _ _ hu hv =>
    refine .push b rfl rfl rfl (fun he => ?_) fun _ => rfl
    rw [hv] at he ⊢
    exact he
  | pushPublished _ _ hu hv =>
    have ha := hinv.pushing_advanced hs hop hu
    rw [hv] at ha
    exact .push b rfl rfl rfl (fun _ => RingBuf.Holds.isEmpty_eq_false ha (by simp)) fun _ => rfl
  | pushCounted _ _ hu hv =>
    have hh := hinv.pushing_after hs hop hu
    have hc := hh.countUp
    have hl := hh.length
    rw [hv] at hc hl
    refine .push b rfl rfl rfl (fun _ => RingBuf.Holds.isEmpty_eq_false hc ?_) fun _ => rfl
    exact List.ne_nil_of_length_pos (by rw [countLag] at hl; omega)
  | popEmpty hop' | popTested hop' | popRead hop' | popAdvanced hop' | popReleased hop' | popCounted hop' =>
    obtain hop' | hop' := hop' <;> exact nomatch hop.symm.trans hop'
  | peekEmpty hop' | peekTested hop' | peekRead hop' | emptyAnswered hop' | fullAnswered hop' | occAnswered hop' =>
    exact nomatch hop.symm.trans hop'

/-- The parts of a pop keep what the producer may know. -/
theorem kept_of_popping (hinv : s.Inv) (hs : s.fg = some f) (hop : f.op = .pop ∨ f.op = .recv) (h : Took f s t) :
    (s.buf (microBuf f.op)).Kept s.params (t.buf (microBuf f.op)) .pop := by
  have hno (op : MicroOp) (hop' : f.op = op) (hne : op ≠ .pop ∧ op ≠ .recv) : False := by
    obtain hop | hop := hop
    · exact hne.1 (hop'.symm.trans hop)
    · exact hne.2 (hop'.symm.trans hop)
  cases h with
  | popEmpty | popTested | popRead =>
    simp only [State.buf_finish, State.buf_withFg]
    exact RingBuf.Kept.of_pop_nothing ..
  | popAdvanced _ _ hv =>
    rw [State.buf_withFg, State.buf_withBuf_same]
    refine .pop rfl rfl rfl rfl fun hf => ?_
    rw [hv] at hf ⊢
    exact hf
  | popReleased _ hu hv =>
    rw [State.buf_finish, State.buf_withBuf_same]
    obtain ⟨x, xs, -, hh, -⟩ := hinv.popping_head hs hop (.inr hu)
    have hl := hh.length
    have ho := hh.sound.occ_le_usable
    have ha := hh.advanceTail (hinv.popping_nonempty hs hop (.inr hu))
    refine .pop rfl rfl rfl rfl fun _ => ha.isFull_of_length_lt ?_
    rw [List.length_cons] at hl
    rw [hv, countLag, RingBuf.usable, RingBuf.advanceTail_cap, ← RingBuf.usable, ← hv]
    omega
  | popCounted _ hu hv =>
    rw [State.buf_finish, State.buf_withBuf_same]
    have hh := hinv.popping_after hs hop hu
    have hl := hh.length
    have ho := hh.sound.occ_le_usable
    have hc := hh.countDown
    rw [hv] at hc
    refine .pop rfl rfl rfl rfl fun _ => hc.isFull_of_length_lt ?_
    rw [hv] at hl ho ⊢
    rw [countLag] at hl
    rw [RingBuf.usable, RingBuf.countDown_cap, ← RingBuf.usable]
    omega
  | pushHeld _ hop' | pushTested _ hop' | pushStored _ hop' | pushAdvanced _ hop' | pushPublished _ hop'
  | pushCounted _ hop' => exact (hno _ hop' ⟨nofun, nofun⟩).elim
  | peekEmpty hop' | peekTested hop' | peekRead hop' | emptyAnswered hop' | fullAnswered hop' | occAnswered hop' =>
    exact (hno _ hop' ⟨nofun, nofun⟩).elim

/-- RB.PEEK and the queries leave every buffer as it is. -/
theorem Took.buf_of_asking (h : Took f s t) (hpush : ∀ b, f.op ≠ .push b) (hpop : f.op ≠ .pop ∧ f.op ≠ .recv)
    (id : BufId) : t.buf id = s.buf id := by
  cases h with
  | pushHeld b hop | pushTested b hop | pushStored b hop | pushAdvanced b hop | pushPublished b hop
  | pushCounted b hop => exact absurd hop (hpush b)
  | popEmpty hop | popTested hop | popRead hop | popAdvanced hop | popReleased hop | popCounted hop =>
    exact absurd hop (not_or.mpr hpop)
  | peekTested => rw [State.buf_withFg]
  | peekEmpty | peekRead | emptyAnswered | fullAnswered | occAnswered => rw [State.buf_finish]

theorem took_keeps_buf (hinv : s.Inv) (hs : s.fg = some f) (h : Took f s t) (id : BufId) :
    (s.buf id).Kept s.params (t.buf id) (if microBuf f.op = id then microTouch f.op else .leave) := by
  split
  · rename_i hid
    subst hid
    cases hop : f.op with
    | push b => exact kept_of_pushing hinv hs hop h
    | pop =>
      have hk := kept_of_popping hinv hs (.inl hop) h
      rwa [hop] at hk
    | recv =>
      have hk := kept_of_popping hinv hs (.inr hop) h
      rwa [hop] at hk
    | peek | empty | full | occ =>
      exact .leave (h.buf_of_asking (by rw [hop]; exact nofun) (by rw [hop]; exact ⟨nofun, nofun⟩) _)
  · rename_i hid
    exact .leave (h.other_buf hid)

/-! ### Every step -/

theorem touchOf_fetched (id : BufId) (i : Instr) (s : State) (x : Issue) (xs : List Input) :
    touchOf id i (s.fetched x xs) = touchOf id i s := by cases id <;> rfl

theorem touches_of_performs {id : BufId} (hp : s.performs = some i) : s.touches id = touchOf id i s := by
  rw [State.touches, hp]

theorem touches_of_resumes {id : BufId} (hp : s.performs = none) (hr : s.resumes = some f) :
    s.touches id = if microBuf f.op = id then microTouch f.op else .leave := by
  rw [State.touches, hp, hr]

theorem touches_of_nothing {id : BufId} (hp : s.performs = none) (hr : s.resumes = none) : s.touches id = .leave := by
  rw [State.touches, hp, hr]

/-- What a step of any agent keeps of each buffer. -/
theorem step_keeps_buf (hinv : s.Inv) (h : step s = .next t) (id : BufId) :
    (s.buf id).Kept s.params (t.buf id) (s.touches id) := by
  cases stepped_of_step h with
  | idle hp hr =>
    rw [touches_of_nothing hp hr]
    exact .leave rfl
  | atomic i x xs _ hp hr h =>
    rw [touches_of_performs hp, ← touchOf_fetched id i s x xs, ← State.fetched_buf s x xs id]
    exact exec_keeps_buf (inv_fetched hinv x xs) h id
  | start i op p xs _ hp hr hi h =>
    obtain ⟨-, -, rfl⟩ := beginMicro_eq_next.mp h
    rw [touches_of_nothing hp hr, State.buf_withFg, State.fetched_buf]
    exact .leave rfl
  | micro f xs _ hp hr hs h =>
    rw [touches_of_resumes hp hr, ← State.fetched_buf s s.issue xs id]
    exact took_keeps_buf (inv_fetched hinv _ xs) hs h id

theorem step_keeps_params (h : step s = .next t) : t.params = s.params := by
  cases stepped_of_step h with
  | idle => rfl
  | atomic i x xs _ _ _ h => exact (exec_keeps h).1
  | start i op p xs _ _ _ _ h =>
    obtain ⟨-, -, rfl⟩ := beginMicro_eq_next.mp h
    rfl
  | micro f xs _ _ _ _ h => exact h.keeps.1

/-! ### Whose step it is -/

theorem State.pushes_iff : s.pushes = true ↔
    (∃ b, s.performs = some (.rbPush b)) ∨ ∃ f b, s.resumes = some f ∧ f.op = .push b := by
  unfold State.pushes
  split
  · simp_all
  · simp_all
  · rename_i h1 h2
    simp only [Bool.false_eq_true, false_iff, not_or, not_exists, not_and]
    exact ⟨h1, fun f b hr hop => h2 b f.port f.upc f.flag f.val (by rw [hr, ← hop])⟩

theorem State.pops_iff : s.pops = true ↔
    s.performs = some .rbPop ∨ ∃ f, s.resumes = some f ∧ f.op = .pop := by
  unfold State.pops
  split
  · simp_all
  · simp_all
  · rename_i h1 h2
    simp only [Bool.false_eq_true, false_iff, not_or, not_exists, not_and]
    exact ⟨h1, fun f hr hop => h2 f.port f.upc f.flag f.val (by rw [hr, ← hop])⟩

theorem State.receives_iff : s.receives = true ↔
    s.performs = some .seRecv ∨ ∃ f, s.resumes = some f ∧ f.op = .recv := by
  unfold State.receives
  split
  · simp_all
  · simp_all
  · rename_i h1 h2
    simp only [Bool.false_eq_true, false_iff, not_or, not_exists, not_and]
    exact ⟨h1, fun f hr hop => h2 f.port f.upc f.flag f.val (by rw [hr, ← hop])⟩

theorem State.initsBuffer_iff : s.initsBuffer = true ↔ ∃ c, s.performs = some (.rbInit c) := by
  unfold State.initsBuffer
  split <;> simp_all

theorem State.initsEngine_iff :
    s.initsEngine = true ↔ ∃ p0 p1 p2 p3 p4 p5 p6 p7, s.performs = some (.seInit p0 p1 p2 p3 p4 p5 p6 p7) := by
  unfold State.initsEngine
  split <;> simp_all

theorem touchOf_txq_eq_build :
    touchOf .txq i s = .build ↔ ∃ p0 p1 p2 p3 p4 p5 p6 p7, i = .seInit p0 p1 p2 p3 p4 p5 p6 p7 := by
  cases i
  case seInit => exact ⟨fun _ => ⟨_, _, _, _, _, _, _, _, rfl⟩, fun _ => rfl⟩
  case seSend b =>
    rw [touchOf_seSend]
    split <;> simp
  all_goals exact ⟨nofun, nofun⟩

/-- A role at a buffer is that of an atomic operation, or of the operation whose micro-step is taken. -/
theorem touches_cases {id : BufId} {u : Touch} (h : s.touches id = u) (hu : u ≠ .leave) :
    (∃ i, s.performs = some i ∧ touchOf id i s = u) ∨
      ∃ f, s.resumes = some f ∧ microBuf f.op = id ∧ microTouch f.op = u := by
  cases hp : s.performs with
  | some i => exact .inl ⟨i, rfl, (touches_of_performs hp).symm.trans h⟩
  | none =>
    cases hr : s.resumes with
    | none => exact absurd ((touches_of_nothing hp hr).symm.trans h).symm hu
    | some f =>
      rw [touches_of_resumes hp hr] at h
      split at h
      · exact .inr ⟨f, rfl, ‹_›, h⟩
      · exact absurd h.symm hu

theorem microTouch_ne_build (op : MicroOp) : microTouch op ≠ .build := by cases op <;> nofun

theorem touches_rb_ne_build (h : s.initsBuffer = false) : s.touches .rb ≠ .build := fun hu => by
  obtain ⟨i, hp, hi⟩ | ⟨f, -, -, hf⟩ := touches_cases hu nofun
  · obtain ⟨c, rfl⟩ := touchOf_rb_eq_build.mp hi
    exact nomatch h.symm.trans (State.initsBuffer_iff.mpr ⟨c, hp⟩)
  · exact microTouch_ne_build _ hf

theorem touches_rb_ne_push (h : s.pushes = false) (b : Byte) : s.touches .rb ≠ .push b := fun hu => by
  refine Bool.false_ne_true (h.symm.trans (State.pushes_iff.mpr ?_))
  obtain ⟨i, hp, hi⟩ | ⟨f, hr, -, hf⟩ := touches_cases hu nofun
  · obtain rfl := touchOf_rb_eq_push.mp hi
    exact .inl ⟨b, hp⟩
  · refine .inr ⟨f, b, hr, ?_⟩
    cases hop : f.op <;> rw [hop] at hf <;> cases hf
    rfl

theorem touches_rb_ne_pop (h : s.pops = false) : s.touches .rb ≠ .pop := fun hu => by
  refine Bool.false_ne_true (h.symm.trans (State.pops_iff.mpr ?_))
  obtain ⟨i, hp, hi⟩ | ⟨f, hr, hid, hf⟩ := touches_cases hu nofun
  · obtain rfl := touchOf_rb_eq_pop.mp hi
    exact .inl hp
  · refine .inr ⟨f, hr, ?_⟩
    cases hop : f.op <;> rw [hop] at hf hid
    case recv => cases hid
    all_goals cases hf

theorem not_microBuf_txq (op : MicroOp) : microBuf op ≠ .txq := by cases op <;> nofun

theorem touches_txq_ne_build (h : s.initsEngine = false) : s.touches .txq ≠ .build := fun hu => by
  obtain ⟨i, hp, hi⟩ | ⟨f, -, hid, -⟩ := touches_cases hu nofun
  · obtain ⟨p0, p1, p2, p3, p4, p5, p6, p7, rfl⟩ := touchOf_txq_eq_build.mp hi
    exact nomatch h.symm.trans (State.initsEngine_iff.mpr ⟨_, _, _, _, _, _, _, _, hp⟩)
  · exact not_microBuf_txq _ hid

theorem touches_txq_ne_push (h : ∀ b, s.performs ≠ some (.seSend b)) (b : Byte) : s.touches .txq ≠ .push b :=
  fun hu => by
  obtain ⟨i, hp, hi⟩ | ⟨f, -, hid, -⟩ := touches_cases hu nofun
  · obtain ⟨rfl, -⟩ := touchOf_txq_eq_push.mp hi
    exact h b hp
  · exact not_microBuf_txq _ hid

theorem touches_txq_ne_pop (h : s.performs ≠ some .seTxisr) : s.touches .txq ≠ .pop := fun hu => by
  obtain ⟨i, hp, hi⟩ | ⟨f, -, hid, -⟩ := touches_cases hu nofun
  · obtain rfl := touchOf_txq_eq_pop.mp hi
    exact h hp
  · exact not_microBuf_txq _ hid

theorem touches_rxq_ne_build (h : s.initsEngine = false) : s.touches .rxq ≠ .build := fun hu => by
  obtain ⟨i, hp, hi⟩ | ⟨f, -, -, hf⟩ := touches_cases hu nofun
  · obtain ⟨p0, p1, p2, p3, p4, p5, p6, p7, rfl⟩ := touchOf_rxq_eq_build.mp hi
    exact nomatch h.symm.trans (State.initsEngine_iff.mpr ⟨_, _, _, _, _, _, _, _, hp⟩)
  · exact microTouch_ne_build _ hf

theorem touches_rxq_ne_push (h : s.performs ≠ some .seRxisr) (b : Byte) : s.touches .rxq ≠ .push b := fun hu => by
  obtain ⟨i, hp, hi⟩ | ⟨f, -, hid, hf⟩ := touches_cases hu nofun
  · obtain ⟨rfl, -⟩ := touchOf_rxq_eq_push.mp hi
    exact h hp
  · cases hop : f.op <;> rw [hop] at hf hid
    case push => cases hid
    all_goals cases hf

theorem touches_rxq_ne_pop (h : s.receives = false) : s.touches .rxq ≠ .pop := fun hu => by
  refine Bool.false_ne_true (h.symm.trans (State.receives_iff.mpr ?_))
  obtain ⟨i, hp, hi⟩ | ⟨f, hr, hid, hf⟩ := touches_cases hu nofun
  · obtain rfl := touchOf_rxq_eq_pop.mp hi
    exact .inl hp
  · refine .inr ⟨f, hr, ?_⟩
    cases hop : f.op <;> rw [hop] at hf hid
    case pop => cases hid
    all_goals cases hf

/-- A role at a buffer that is none of the three leaves it. -/
theorem eq_leave_of_ne {u : Touch} (hb : u ≠ .build) (hp : ∀ b, u ≠ .push b) (hq : u ≠ .pop) : u = .leave := by
  cases u with
  | leave => rfl
  | build => exact absurd rfl hb
  | push b => exact absurd rfl (hp b)
  | pop => exact absurd rfl hq

end

end Sys2Proof.Machine

namespace Sys2Proof.Proofs

open Sys2Proof Sys2Proof.Machine

/-- Settles O28: each buffer by the role of the step there. -/
theorem staleAnswersAreSafeInOneDirection : Obligations.StaleAnswersAreSafeInOneDirection := by
  unfold Obligations.StaleAnswersAreSafeInOneDirection
  intro s s' hinv h
  have hrb := step_keeps_buf hinv h .rb
  have htx := step_keeps_buf hinv h .txq
  have hrx := step_keeps_buf hinv h .rxq
  rw [step_keeps_params h]
  exact ⟨fun hi hp => hrb.not_full (touches_rb_ne_build hi) (touches_rb_ne_push hp),
    fun hi hp => hrb.not_empty (touches_rb_ne_build hi) (touches_rb_ne_pop hp),
    fun hi hp => htx.not_full (touches_txq_ne_build hi) (touches_txq_ne_push hp),
    fun hi hp => htx.not_empty (touches_txq_ne_build hi) (touches_txq_ne_pop hp),
    fun hi hp => hrx.not_full (touches_rxq_ne_build hi) (touches_rxq_ne_push hp),
    fun hi hp => hrx.not_empty (touches_rxq_ne_build hi) (touches_rxq_ne_pop hp)⟩

/-- Settles O20: the buffer is full and empty at once, so a push stores nothing and a pop takes nothing. -/
theorem unusableBufferStaysEmptyAndFull : Obligations.UnusableBufferStaysEmptyAndFull := by
  unfold Obligations.UnusableBufferStaysEmptyAndFull
  intro s hinv hb h0
  have hle := hinv.rbSound.occ_le_usable
  have hf : s.rb.isFull s.params.variant = true := hinv.rbSound.isFull_iff.mpr (by omega)
  have he : s.rb.isEmpty s.params.variant = true := hinv.rbSound.isEmpty_iff.mpr (by omega)
  obtain ⟨-, -, hpushFull, -⟩ := rbPushRule 0 s
  obtain ⟨-, -, hpop, -⟩ := rbPopRule s
  obtain ⟨-, -, hpeek, -⟩ := rbPeekRule s
  refine ⟨fun s' h hi => ?_, fun b hs => (rbPushRule b s).2.2.1 hs hb hf, fun hs => hpop hs hb he,
    fun hs => hpeek hs hb he⟩
  have hk := step_keeps_buf hinv h .rb
  obtain ⟨hcap, hbound⟩ := hk.cap_bound (touches_rb_ne_build hi)
  refine ⟨hbound.trans hb, ?_, hk.slots_eq fun _ _ => hf⟩
  rw [step_keeps_params h, RingBuf.usable, show s'.rb.cap = s.rb.cap from hcap]
  exact h0

end Sys2Proof.Proofs
end

section
/-! SUPPORT. Proofs about ownership over every step (rules R22, R23, R33), the engine's state (rule R240) and the receive
interrupt (rule R230). -/

namespace Sys2Proof.Machine

open Sys2Proof.Config

section
variable {i : Instr} {s t : State} {f : Progress} {a : Agent} {p : Port} {bytes : List Byte} {xs : List Input}

/-! ### The agent of a step -/

/-- A command that completes came from its port's owner, on a port that accepts it. -/
theorem owner_of_command (hs : s.inputs = .command a p bytes :: xs) (h : step s = .next t) (hp : s.performs = some i) :
    p ∈ portsOf i ∧ a = portOwner s.params p := by
  obtain ⟨j, ys, hj, ht⟩ := step_of_command_eq_next hs h
  obtain rfl := Option.some.inj (hp.symm.trans hj)
  obtain ⟨hmem, ho, -⟩ := admissionRefusal_eq_none.mp (admissionRefusal_of_exec ht)
  exact ⟨hmem, ho⟩

/-- A start that runs as one step is the foreground's, on a port that it owns. -/
theorem owner_of_start (hs : s.inputs = .start p bytes :: xs) (h : step s = .next t) (hp : s.performs = some i) :
    p ∈ portsOf i ∧ portOwner s.params p = .fg := by
  simp only [State.performs, hs] at hp
  cases hd : decode bytes with
  | error e => simp [hd] at hp
  | ok r =>
    obtain ⟨j, rest⟩ := r
    simp only [hd, Option.isNone_iff_eq_none, Option.ite_none_right_eq_some] at hp
    obtain ⟨hi, hp⟩ := hp
    obtain rfl := Option.some.inj hp
    rw [step_of_start hd hs, startInstr_of_atomic hi] at h
    obtain ⟨hmem, ho, -⟩ := admissionRefusal_eq_none.mp (admissionRefusal_of_exec h)
    exact ⟨hmem, ho.symm⟩

theorem resumes_of_command (hs : s.inputs = .command a p bytes :: xs) : s.resumes = none := by
  simp only [State.resumes, hs]

theorem performs_of_resume (hs : s.inputs = .resume :: xs) : s.performs = none := by
  simp only [State.performs, hs]

theorem fg_of_resumes (h : s.resumes = some f) : s.fg = some f := by
  unfold State.resumes at h
  split at h
  · exact h
  · cases h

theorem holderAgent_eq_fg {h : Holder} : holderAgent h = .fg ↔ h = .fg := by
  cases h <;> simp [holderAgent]

/-- The operation in progress is the foreground's, on its own port. -/
theorem State.Inv.admitted (hinv : s.Inv) (h : s.resumes = some f) : Admitted s f :=
  (State.inv_iff.mp hinv).2.2 f (fg_of_resumes h)

/-! ### The engine's registers in the foreground's own steps -/

/-- A step that is no atomic operation writes no register of the engine but those of `rxq`. -/
theorem step_keeps_se (h : step s = .next t) (hp : s.performs = none) : t.se = { s.se with rxq := t.se.rxq } := by
  cases stepped_of_step h with
  | idle => rfl
  | atomic i x xs _ hp' => exact nomatch hp.symm.trans hp'
  | start i op p xs _ _ _ _ h =>
    obtain ⟨-, -, rfl⟩ := beginMicro_eq_next.mp h
    rfl
  | micro f xs _ _ _ _ h => exact h.keeps.2

/-- An atomic step is its operation on the machine with its input taken. -/
theorem exec_of_step (h : step s = .next t) (hp : s.performs = some i) :
    ∃ x xs, exec i (s.fetched x xs) = .next t := by
  cases stepped_of_step h with
  | atomic j x xs _ hj _ h =>
    obtain rfl := Option.some.inj (hp.symm.trans hj)
    exact ⟨x, xs, h⟩
  | idle hp' | start _ _ _ _ _ hp' | micro _ _ _ hp' => exact nomatch hp.symm.trans hp'

theorem initsEngine_of_performs {p0 p1 p2 p3 p4 p5 p6 p7 : Byte}
    (hp : s.performs = some (.seInit p0 p1 p2 p3 p4 p5 p6 p7)) : s.initsEngine = true :=
  State.initsEngine_iff.mpr ⟨_, _, _, _, _, _, _, _, hp⟩

theorem transmitting_afterInit (P : Params) (c : SerialConfig) (valid : Bool) (e : SerialEngine) :
    (e.afterInit P c valid).transmitting = false := by cases valid <;> rfl

/-- Only SE.INIT, SE.SEND and SE.TXISR write the engine's state (rule R240). -/
theorem exec_keeps_transmitting (h : exec i s = .next t) (hsend : ∀ b, i ≠ .seSend b) (hisr : i ≠ .seTxisr)
    (hinit : ∀ p0 p1 p2 p3 p4 p5 p6 p7, i ≠ .seInit p0 p1 p2 p3 p4 p5 p6 p7) :
    t.se.transmitting = s.se.transmitting := by
  cases hi : isTransmit i with
  | false => rw [exec_keeps_transmit h hi]
  | true =>
    cases i
    case seSend b => exact absurd rfl (hsend b)
    case seTxisr => exact absurd rfl hisr
    case seInit => exact absurd rfl (hinit _ _ _ _ _ _ _ _)
    case lineTxdone =>
      obtain ⟨-, -, rfl⟩ := exec_lineTxdone_eq_next.mp h
      rfl
    all_goals cases hi

/-- What SE.SEND leaves of the engine's state: Draining, and from Idle with the byte in flight (rule R172). -/
theorem transmitting_of_seSend {b : Byte} (h : exec (.seSend b) s = .next t) : t.se.transmitting = true ∧
    (s.se.transmitting = false → t.se.txBuf = b ∧ t.se.txReady = false ∧ t.se.txIe = true) := by
  obtain ⟨-, -, ⟨-, -, rfl⟩ | ⟨ht, -, q, ok, -, rfl⟩ | ⟨ht, -, rfl⟩⟩ := exec_seSend_eq_next.mp h
  · exact ⟨rfl, fun _ => ⟨rfl, rfl, rfl⟩⟩
  · exact ⟨ht, fun h0 => nomatch ht.symm.trans h0⟩
  · exact ⟨ht, fun h0 => nomatch ht.symm.trans h0⟩

/-- What SE.TXISR leaves of the engine's state: Idle on an empty `txq`, with the enable cleared (rule R200). -/
theorem transmitting_of_seTxisr (h : exec .seTxisr s = .next t) :
    s.se.txq.isEmpty s.params.variant = true ∧ t.se.transmitting = false ∧ t.se.txIe = false ∨
      s.se.txq.isEmpty s.params.variant = false ∧ t.se.transmitting = s.se.transmitting := by
  obtain ⟨-, -, -, -, ⟨he, rfl⟩ | ⟨he, q, v, -, rfl⟩⟩ := exec_seTxisr_eq_next.mp h
  · exact .inl ⟨he, rfl, rfl⟩
  · exact .inr ⟨he, rfl⟩

/-! ### The receive side while its interrupt is disabled -/

/-- Only SE.INIT and SE.RXISR count drops or take the waiting byte. -/
theorem exec_keeps_waiting (h : exec i s = .next t) (hisr : i ≠ .seRxisr)
    (hinit : ∀ p0 p1 p2 p3 p4 p5 p6 p7, i ≠ .seInit p0 p1 p2 p3 p4 p5 p6 p7) :
    t.se.rxDrop = s.se.rxDrop ∧ (s.se.rxFull = true → t.se.rxFull = true) := by
  cases hi : isReceive i with
  | false =>
    rw [exec_keeps_receive h hi]
    exact ⟨rfl, fun h => h⟩
  | true =>
    cases i
    case seRxisr => exact absurd rfl hisr
    case seInit => exact absurd rfl (hinit _ _ _ _ _ _ _ _)
    case seRecv =>
      obtain ⟨-, -, q, v, -, rfl⟩ := exec_seRecv_eq_next.mp h
      exact ⟨rfl, fun h => h⟩
    case lineRxbyte b =>
      obtain ⟨-, ⟨-, rfl⟩ | ⟨-, rfl⟩⟩ := exec_lineRxbyte_eq_next.mp h
      · exact ⟨rfl, fun h => h⟩
      · exact ⟨rfl, fun _ => rfl⟩
    all_goals cases hi

/-- Without its enable SE.RXISR does not run (rule R228). -/
theorem performs_ne_seRxisr (h : step s = .next t) (hie : s.se.rxIe = false) : s.performs ≠ some .seRxisr := by
  intro hp
  obtain ⟨x, xs, ht⟩ := exec_of_step h hp
  obtain ⟨-, -, hie', -⟩ := exec_seRxisr_eq_next.mp ht
  exact nomatch hie.symm.trans hie'

theorem performs_ne_seInit (hi : s.initsEngine = false) (p0 p1 p2 p3 p4 p5 p6 p7 : Byte) :
    s.performs ≠ some (.seInit p0 p1 p2 p3 p4 p5 p6 p7) := fun hp =>
  nomatch hi.symm.trans (initsEngine_of_performs hp)

theorem step_keeps_waiting (h : step s = .next t) (hie : s.se.rxIe = false) (hi : s.initsEngine = false) :
    t.se.rxDrop = s.se.rxDrop ∧ (s.se.rxFull = true → t.se.rxFull = true) := by
  cases hp : s.performs with
  | none =>
    rw [step_keeps_se h hp]
    exact ⟨rfl, fun h => h⟩
  | some i =>
    obtain ⟨x, xs, ht⟩ := exec_of_step h hp
    refine exec_keeps_waiting (s := s.fetched x xs) ht (fun hi => ?_) fun p0 p1 p2 p3 p4 p5 p6 p7 hj => ?_
    · exact performs_ne_seRxisr h hie (hi ▸ hp)
    · exact performs_ne_seInit hi _ _ _ _ _ _ _ _ (hj ▸ hp)

/-! ### The engine's state over every step -/

theorem step_seSend {b : Byte} (h : step s = .next t) (hp : s.performs = some (.seSend b)) : t.se.transmitting = true ∧
    (s.se.transmitting = false → t.se.txBuf = b ∧ t.se.txReady = false ∧ t.se.txIe = true) := by
  obtain ⟨x, xs, ht⟩ := exec_of_step h hp
  exact transmitting_of_seSend (s := s.fetched x xs) ht

/-- SE.TXISR runs while Draining only (rule R43). -/
theorem step_seTxisr (hinv : s.Inv) (h : step s = .next t) (hp : s.performs = some .seTxisr) :
    s.se.txq.isEmpty s.params.variant = true ∧ t.se.transmitting = false ∧ t.se.txIe = false ∨
      s.se.txq.isEmpty s.params.variant = false ∧ t.se.transmitting = true := by
  obtain ⟨x, xs, ht⟩ := exec_of_step h hp
  obtain ⟨-, -, hie, -⟩ := exec_seTxisr_eq_next.mp ht
  refine (transmitting_of_seTxisr ht).imp_right fun ⟨he, hkeep⟩ => ⟨he, hkeep.trans ?_⟩
  exact hinv.engine.enabled.symm.trans hie

theorem transmitting_of_initsEngine (h : step s = .next t) (hi : s.initsEngine = true) : t.se.transmitting = false := by
  obtain ⟨p0, p1, p2, p3, p4, p5, p6, p7, hp⟩ := State.initsEngine_iff.mp hi
  obtain ⟨x, xs, ht⟩ := exec_of_step h hp
  obtain ⟨-, rfl⟩ := exec_seInit_eq_next.mp ht
  exact transmitting_afterInit ..

theorem step_keeps_transmitting (h : step s = .next t) (hs : ∀ b, s.performs ≠ some (.seSend b))
    (hr : s.performs ≠ some .seTxisr) (hi : s.initsEngine = false) : t.se.transmitting = s.se.transmitting := by
  cases hp : s.performs with
  | none => rw [step_keeps_se h hp]
  | some i =>
    obtain ⟨x, xs, ht⟩ := exec_of_step h hp
    exact exec_keeps_transmitting (s := s.fetched x xs) ht (fun b hj => hs b (hj ▸ hp)) (fun hj => hr (hj ▸ hp))
      fun p0 p1 p2 p3 p4 p5 p6 p7 hj => performs_ne_seInit hi _ _ _ _ _ _ _ _ (hj ▸ hp)

end

end Sys2Proof.Machine

namespace Sys2Proof.Proofs

open Sys2Proof Sys2Proof.Machine Sys2Proof.Config

/-- Settles O49: the registers by the role of the step at the buffer, the agents by the port of the command or of the
operation in progress. -/
theorem indicesBelongToTheirRoles : Obligations.IndicesBelongToTheirRoles := by
  unfold Obligations.IndicesBelongToTheirRoles
  intro s s' hinv h hi
  have hk : s.rb.Kept s.params s'.rb (s.touches .rb) := step_keeps_buf hinv h .rb
  have hbuild := touches_rb_ne_build hi
  obtain ⟨hcap, hbound⟩ := hk.cap_bound hbuild
  refine ⟨hcap, hbound, fun hp => hk.head_slots hbuild (touches_rb_ne_push hp),
    fun hp => hk.tail_eq hbuild (touches_rb_ne_pop hp), fun hpush hpop => ?_, fun a p bytes xs hs hp => ?_,
    fun a p bytes xs hs hp => ?_, fun xs hs hp => ?_, fun xs hs hp => ?_⟩
  · rw [hk.eq (eq_leave_of_ne hbuild (touches_rb_ne_push hpush) (touches_rb_ne_pop hpop))]
  · obtain ⟨b, hp⟩ | ⟨f, b, hr, -⟩ := State.pushes_iff.mp hp
    · obtain ⟨hmem, rfl⟩ := owner_of_command hs h hp
      rw [List.mem_singleton.mp hmem]
      rfl
    · exact nomatch (resumes_of_command hs).symm.trans hr
  · obtain hp | ⟨f, hr, -⟩ := State.pops_iff.mp hp
    · obtain ⟨hmem, rfl⟩ := owner_of_command hs h hp
      rw [List.mem_singleton.mp hmem]
      rfl
    · exact nomatch (resumes_of_command hs).symm.trans hr
  · obtain ⟨b, hp⟩ | ⟨f, b, hr, hop⟩ := State.pushes_iff.mp hp
    · exact nomatch (performs_of_resume hs).symm.trans hp
    · obtain ⟨howned, hport, -⟩ := hinv.admitted hr
      rw [hop] at hport
      rw [show f.port = .rbProducer from hport] at howned
      exact holderAgent_eq_fg.mp howned
  · obtain hp | ⟨f, hr, hop⟩ := State.pops_iff.mp hp
    · exact nomatch (performs_of_resume hs).symm.trans hp
    · obtain ⟨howned, hport, -⟩ := hinv.admitted hr
      rw [hop] at hport
      rw [show f.port = .rbConsumer from hport] at howned
      exact holderAgent_eq_fg.mp howned

/-- Settles O50: the registers by the role of the step at each queue, the agents by the port of the command. -/
theorem engineQueuesAreReachedByTheirOperationsOnly : Obligations.EngineQueuesAreReachedByTheirOperationsOnly := by
  unfold Obligations.EngineQueuesAreReachedByTheirOperationsOnly
  intro s s' hinv h
  have htx : s.se.txq.Kept s.params s'.se.txq (s.touches .txq) := step_keeps_buf hinv h .txq
  have hrx : s.se.rxq.Kept s.params s'.se.rxq (s.touches .rxq) := step_keeps_buf hinv h .rxq
  refine ⟨fun hne => ?_, fun hne => ?_,
    fun hi hp => htx.head_slots (touches_txq_ne_build hi) (touches_txq_ne_push hp),
    fun hi hp => htx.tail_eq (touches_txq_ne_build hi) (touches_txq_ne_pop hp),
    fun hi hp => hrx.head_slots (touches_rxq_ne_build hi) (touches_rxq_ne_push hp),
    fun hi hp => hrx.tail_eq (touches_rxq_ne_build hi) (touches_rxq_ne_pop hp),
    fun a p bytes xs hs hp => ?_, fun a p bytes xs hs hp => ?_, fun p bytes xs hs => ⟨fun hp => ?_, fun hp => ?_⟩⟩
  · by_contra hc
    simp only [not_or, not_exists, Bool.not_eq_true] at hc
    obtain ⟨hi, hsend, hisr⟩ := hc
    exact hne (htx.eq (eq_leave_of_ne (touches_txq_ne_build hi) (touches_txq_ne_push hsend) (touches_txq_ne_pop hisr)))
  · by_contra hc
    simp only [not_or, Bool.not_eq_true] at hc
    obtain ⟨hi, hrecv, hisr⟩ := hc
    exact hne (hrx.eq (eq_leave_of_ne (touches_rxq_ne_build hi) (touches_rxq_ne_push hisr) (touches_rxq_ne_pop hrecv)))
  · have hport {i : Instr} (hp : s.performs = some i) (hi : portsOf i = [.seForeground]) : a = .fg := by
      obtain ⟨hmem, rfl⟩ := owner_of_command hs h hp
      rw [hi] at hmem
      rw [List.mem_singleton.mp hmem]
      rfl
    obtain hp | ⟨b, hp⟩ | hp := hp
    · obtain ⟨p0, p1, p2, p3, p4, p5, p6, p7, hp⟩ := State.initsEngine_iff.mp hp
      exact hport hp rfl
    · exact hport hp rfl
    · obtain hp | ⟨f, hr, -⟩ := State.receives_iff.mp hp
      · exact hport hp rfl
      · exact nomatch (resumes_of_command hs).symm.trans hr
  · obtain hp | hp := hp <;> obtain ⟨hmem, rfl⟩ := owner_of_command hs h hp <;> rw [List.mem_singleton.mp hmem] <;> rfl
  · obtain ⟨hmem, ho⟩ := owner_of_start hs h hp
    rw [List.mem_singleton.mp hmem] at ho
    cases ho
  · obtain ⟨hmem, ho⟩ := owner_of_start hs h hp
    rw [List.mem_singleton.mp hmem] at ho
    cases ho

/-- Settles O43: `transmitting` is written by three operations only, by what each leaves of it. -/
theorem transmitStateTransitions : Obligations.TransmitStateTransitions := by
  unfold Obligations.TransmitStateTransitions
  intro s s' hinv h
  refine ⟨fun h0 h1 => ?_, fun h1 h0 => ?_, fun b hp => (step_seSend h hp).1, fun hp he => ?_, fun hp he => ?_,
    transmitting_of_initsEngine h⟩
  · by_contra hc
    have hs (b : Byte) : s.performs ≠ some (.seSend b) := fun hp => hc ⟨b, hp, (step_seSend h hp).2 h0⟩
    by_cases hi : s.initsEngine = true
    · exact nomatch h1.symm.trans (transmitting_of_initsEngine h hi)
    · by_cases hp : s.performs = some .seTxisr
      · obtain ⟨x, xs, ht⟩ := exec_of_step h hp
        obtain ⟨-, -, hie, -⟩ := exec_seTxisr_eq_next.mp ht
        exact nomatch h0.symm.trans (hinv.engine.enabled.symm.trans hie)
      · exact nomatch h0.symm.trans ((step_keeps_transmitting h hs hp (by simpa using hi)).symm.trans h1)
  · by_cases hi : s.initsEngine = true
    · exact .inr hi
    · by_cases hp : s.performs = some .seTxisr
      · obtain ⟨he, -, hie⟩ | ⟨-, h1'⟩ := step_seTxisr hinv h hp
        · exact .inl ⟨hp, he, hie⟩
        · exact nomatch h0.symm.trans h1'
      · have hs (b : Byte) : s.performs ≠ some (.seSend b) := fun hp => nomatch h0.symm.trans (step_seSend h hp).1
        exact nomatch h1.symm.trans ((step_keeps_transmitting h hs hp (by simpa using hi)).symm.trans h0)
  · obtain ⟨he', -⟩ | ⟨-, h1⟩ := step_seTxisr hinv h hp
    · exact nomatch he.symm.trans he'
    · exact h1
  · obtain ⟨-, h0, -⟩ | ⟨he', -⟩ := step_seTxisr hinv h hp
    · exact h0
    · exact nomatch he.symm.trans he'

/-- Settles O42: the disabled handler pushes nothing; SE.EI writes its one flag, and the handler then pushes. -/
theorem disabledReceiveInterruptPushesNothing : Obligations.DisabledReceiveInterruptPushesNothing := by
  unfold Obligations.DisabledReceiveInterruptPushesNothing
  refine ⟨fun s s' hinv hie h => ?_, fun s t hinv h => ?_, fun s hs _ hie => ?_⟩
  · have hrx : s.se.rxq.Kept s.params s'.se.rxq (s.touches .rxq) := step_keeps_buf hinv h .rxq
    have hpush := touches_rxq_ne_push (performs_ne_seRxisr h hie)
    refine ⟨hrx.slots_eq fun b hb => absurd hb (hpush b), fun hi => ⟨?_, step_keeps_waiting h hie hi⟩⟩
    exact (hrx.head_slots (touches_rxq_ne_build hi) hpush).1
  · have htinv := inv_of_exec hinv h
    obtain ⟨-, h1, rfl⟩ := exec_seEi_eq_next.mp h
    refine ⟨by simp [SerialEngine.rxisrEnabled, h1], fun hfull hfg hf => ?_⟩
    obtain ⟨-, -, hb, -⟩ := hinv.engine.after h1
    have hh : s.se.rxq.Holds s.params .rxq 0 0 (s.se.rxq.contents s.params .rxq) :=
      hinv.buf_holds (inProgressOn_of_idle hfg .rxq)
    exact ⟨_, perform_seRxisr_eq_next.mpr ⟨h1, rfl, hfull, _, _, hh.push_eq hb hf, rfl⟩, (hh.push hf).contents_eq⟩
  · refine exec_seTxisr_of_not_enabled hs fun h => ?_
    obtain ⟨-, hie', -⟩ := SerialEngine.txisrEnabled_iff.mp h
    exact nomatch hie.symm.trans hie'

end Sys2Proof.Proofs
end

section
/-! SUPPORT. Proofs about the bytes that pass through a buffer while an operation on it may be in progress: what each
step appends to them and what it takes from them (rules R27, R29). -/

namespace Sys2Proof.Machine

open Sys2Proof.Config

/-! ### The bytes not yet pushed and not yet popped -/

/-- The byte that a push in progress has written behind `head` and not yet answered for (between P3 and P4). -/
def uncountedBytes : Option Progress → List Byte
  | none => []
  | some f =>
    match f.op with
    | .push b => if f.upc = .u4 then [b] else []
    | _ => []

/-- The byte that a pop in progress on the buffer `id` has passed and not yet answered with (between C3 and C4). -/
def unreleasedBytes (id : BufId) : Option Progress → List Byte
  | none => []
  | some f => if f.op.isPop = true ∧ microBuf f.op = id ∧ f.upc = .u4 then [f.val] else []

/-- The bytes of the buffer `id` that no pop has answered with yet, oldest first. -/
def State.unanswered (s : State) (id : BufId) : List Byte :=
  unreleasedBytes id s.fg ++ (s.buf id).bytes s.params id s.fg

section
variable {P : Params} {id : BufId} {fg : Option Progress} {q : RingBuf} {f : Progress}

@[simp] theorem uncountedBytes_none : uncountedBytes none = [] := rfl

@[simp] theorem unreleasedBytes_none : unreleasedBytes id none = [] := rfl

theorem uncountedBytes_of_push {b : Byte} (hop : f.op = .push b) (hu : f.upc = .u4) :
    uncountedBytes (some f) = [b] := by
  simp only [uncountedBytes, hop, if_pos hu]

theorem uncountedBytes_eq_nil (h : ∀ f, fg = some f → f.op.isPush = true → f.upc ≠ .u4) : uncountedBytes fg = [] := by
  cases fg with
  | none => rfl
  | some f =>
    cases hop : f.op with
    | push b =>
      simp only [uncountedBytes, hop]
      exact if_neg (h f rfl (by rw [hop]; rfl))
    | pop | peek | empty | full | occ | recv => simp only [uncountedBytes, hop]

theorem uncountedBytes_before (hu : f.upc ≠ .u4) : uncountedBytes (some f) = [] :=
  uncountedBytes_eq_nil (by rintro _ ⟨⟩ -; exact hu)

theorem unreleasedBytes_of_pop (hop : f.op = .pop ∨ f.op = .recv) (hu : f.upc = .u4) :
    unreleasedBytes (microBuf f.op) (some f) = [f.val] := if_pos ⟨MicroOp.isPop_iff.mpr hop, rfl, hu⟩

theorem unreleasedBytes_eq_nil (h : ∀ f, fg = some f → microBuf f.op = id → f.op.isPop = true → f.upc ≠ .u4) :
    unreleasedBytes id fg = [] := by
  cases fg with
  | none => rfl
  | some f => exact if_neg fun hf => h f rfl hf.2.1 hf.1 hf.2.2

theorem unreleasedBytes_of_push {b : Byte} (hop : f.op = .push b) : unreleasedBytes id (some f) = [] :=
  unreleasedBytes_eq_nil (by rintro _ ⟨⟩ - hp; rw [hop] at hp; cases hp)

theorem unreleasedPop_of_pushing {v : RbVariant} {b : Byte} (hop : f.op = .push b) :
    unreleasedPop v id (some f) = 0 :=
  unreleasedPop_eq_zero (by rintro _ ⟨⟩ - hp; rw [hop] at hp; cases hp)

theorem RingBuf.bytes_of_quiet
    (h : ∀ f, fg = some f → microBuf f.op = id → f.op.isPush = true ∨ f.op.isPop = true → f.upc ≠ .u4) :
    q.bytes P id fg = q.contents P id := by
  rw [RingBuf.bytes, pendingPush_eq_zero fun f hf hid hp => h f hf hid (.inl hp),
    unreleasedPop_eq_zero fun f hf hid hp => h f hf hid (.inr hp), RingBuf.live_zero]

/-- A push of another agent appends its byte. -/
theorem BufInv.bytes_push (h : BufInv P id fg q) (hfg : ∀ f, fg = some f → microBuf f.op = id → f.op.isPush = false)
    (hf : q.isFull P.variant = false) (b : Byte) :
    ((q.store b).advanceHead.countUp P.variant).bytes P id fg = q.bytes P id fg ++ [b] := by
  rw [RingBuf.bytes, pendingPush_eq_zero fun f hf hid hp => nomatch (hfg f hf hid).symm.trans hp]
  exact ((h.holds_of_no_push hfg).push hf).live_eq

/-- A pop of another agent takes the oldest byte. -/
theorem BufInv.bytes_pop (h : BufInv P id fg q) (hfg : ∀ f, fg = some f → microBuf f.op = id → f.op.isPop = false)
    (he : q.isEmpty P.variant = false) : q.bytes P id fg =
      slotByte id q.slots q.tail.toNat :: (q.advanceTail.countDown P.variant).bytes P id fg := by
  have hh := h.holds_of_no_pop hfg
  obtain ⟨x, xs, hx⟩ := List.exists_cons_of_ne_nil (hh.ne_nil he)
  rw [hx] at hh
  rw [hx, slotByte_of_read hh.read_tail, RingBuf.bytes,
    unreleasedPop_eq_zero fun f hf hid hp => nomatch (hfg f hf hid).symm.trans hp]
  exact congrArg (x :: ·) (hh.pop he).live_eq.symm

end

section
variable {s t : State} {id : BufId} {i : Instr} {f : Progress}

theorem State.unanswered_of_quiet
    (h : ∀ f, s.fg = some f → microBuf f.op = id → f.op.isPush = true ∨ f.op.isPop = true → f.upc ≠ .u4) :
    s.unanswered id = (s.buf id).contents s.params id := by
  rw [State.unanswered, unreleasedBytes_eq_nil fun f hf hid hp => h f hf hid (.inr hp), RingBuf.bytes_of_quiet h,
    List.nil_append]

theorem unanswered_of_idle (h : s.fg = none) : s.unanswered id = (s.buf id).contents s.params id :=
  State.unanswered_of_quiet (by rw [h]; exact nofun)

theorem op_elsewhere (h : s.inProgressOn id = false) (f : Progress) (hf : s.fg = some f) : microBuf f.op ≠ id :=
  fun hid => by simp [State.inProgressOn, hf, hid] at h

theorem unanswered_of_not_inProgress (h : s.inProgressOn id = false) :
    s.unanswered id = (s.buf id).contents s.params id :=
  State.unanswered_of_quiet fun f hf hid _ => absurd hid (op_elsewhere h f hf)

theorem unanswered_congr (hp : t.params = s.params) (hfg : t.fg = s.fg) (hb : t.buf id = s.buf id) :
    t.unanswered id = s.unanswered id := by
  rw [State.unanswered, hp, hfg, hb, State.unanswered]

theorem unanswered_of_holds {w r : Nat} {xs : List Byte} (h : (s.buf id).Holds s.params id w r xs)
    (hw : pendingPush s.params.variant id s.fg = w) (hr : unreleasedPop s.params.variant id s.fg = r) :
    s.unanswered id = unreleasedBytes id s.fg ++ xs := by
  subst hw hr
  rw [State.unanswered, RingBuf.bytes, h.live_eq]

/-! ### Atomic operations -/

section
variable (hinv : s.Inv) (h : exec i s = .next t)
include h

theorem unanswered_of_leave (hu : touchOf id i s = .leave) : t.unanswered id = s.unanswered id := by
  obtain ⟨hp, hfg, -⟩ := exec_keeps h
  refine unanswered_congr hp hfg ?_
  have ht := exec_touches h id
  rw [hu] at ht
  generalize t.buf id = q at ht
  cases ht
  rfl

include hinv

/-- What the operation in progress does not clash with. -/
theorem op_of_touch {u : Touch} (hu : touchOf id i s = u) (f : Progress) (hf : s.fg = some f)
    (hid : microBuf f.op = id) : u.clashes f.op = false := by
  rw [← hu, ← hid]
  exact touchOf_clashes_eq_false (admissionRefusal_of_exec h) hf ((State.inv_iff.mp hinv).2.2 f hf)

/-- RB.INIT and SE.INIT start with the buffer empty, and on a buffer that nothing is in progress on. -/
theorem unanswered_of_build (hu : touchOf id i s = .build) :
    t.unanswered id = [] ∧ ∀ f, s.fg = some f → microBuf f.op ≠ id := by
  have hquiet (f : Progress) (hf : s.fg = some f) (hid : microBuf f.op = id) : False :=
    nomatch op_of_touch hinv h hu f hf hid
  obtain ⟨hp, hfg, -⟩ := exec_keeps h
  refine ⟨?_, hquiet⟩
  rw [State.unanswered_of_quiet fun f hf hid _ => (hquiet f (hfg ▸ hf) hid).elim, hp]
  have ht := exec_touches h id
  rw [hu] at ht
  have hq := ((State.inv_iff.mp hinv).1 id).sound
  generalize t.buf id = q at ht
  cases ht with
  | init c hc => exact (hq.holds_init hc).contents_eq
  | unbind => exact hq.holds_unbind.contents_eq
  | rebuild => exact (hq.holds_unbind.sound.holds_init (Nat.le_refl _)).contents_eq

theorem unanswered_of_push {b : Byte} (hu : touchOf id i s = .push b) :
    t.unanswered id = s.unanswered id ++ if (s.buf id).isFull s.params.variant then [] else [b] := by
  have hno := op_of_touch hinv h hu
  obtain ⟨hp, hfg, -⟩ := exec_keeps h
  have hq := (State.inv_iff.mp hinv).1 id
  have ht := exec_touches h id
  rw [hu] at ht
  rw [State.unanswered, State.unanswered, hp, hfg]
  generalize t.buf id = q at ht
  cases ht with
  | full _ hf => rw [if_pos hf, List.append_nil]
  | push _ hf => rw [hq.bytes_push hno hf, hf, List.append_assoc]; rfl

theorem unanswered_of_pop (hu : touchOf id i s = .pop) : s.unanswered id =
    (if (s.buf id).isEmpty s.params.variant then []
      else [slotByte id (s.buf id).slots (s.buf id).tail.toNat]) ++ t.unanswered id := by
  have hno (f : Progress) (hf : s.fg = some f) (hid : microBuf f.op = id) : f.op.isPop = false :=
    MicroOp.isPop_eq_false (op_of_touch hinv h hu f hf hid)
  obtain ⟨hp, hfg, -⟩ := exec_keeps h
  have hq := (State.inv_iff.mp hinv).1 id
  have ht := exec_touches h id
  rw [hu] at ht
  rw [State.unanswered, State.unanswered, hp, hfg,
    unreleasedBytes_eq_nil fun f hf hid hpop => nomatch (hno f hf hid).symm.trans hpop]
  generalize t.buf id = q at ht
  cases ht with
  | empty he => rw [if_pos he]; rfl
  | pop he => rw [hq.bytes_pop hno he, he]; rfl

end

/-! ### Micro-steps -/

theorem State.lastResult_finish (s : State) (f : Progress) (a b : Byte) : (s.finish f [a, b]).lastResult = b := by
  rw [State.lastResult, State.lastResponse_append (State.finish_responses s f [a, b])]
  rfl

theorem Took.fg_keeps (h : Took f s t) (f' : Progress) (hf' : t.fg = some f') :
    f'.op = f.op ∧ f'.port = f.port := by
  cases h with
  | pushTested | pushStored | pushAdvanced | popTested | popRead | popAdvanced | peekTested =>
    rw [State.withFg_fg] at hf'
    cases hf'
    exact ⟨rfl, rfl⟩
  | pushHeld | pushPublished | pushCounted | popEmpty | popReleased | popCounted | peekEmpty | peekRead |
    emptyAnswered | fullAnswered | occAnswered => cases hf'

section
variable (hinv : s.Inv) (hs : s.fg = some f)
include hinv hs

theorem unanswered_of_popping (hop : f.op = .pop ∨ f.op = .recv) (h : Took f s t) :
    s.unanswered (microBuf f.op) =
      (if f.upc ≠ .u1 ∧ t.fg = none then [t.lastResult] else []) ++ t.unanswered (microBuf f.op) := by
  have hno (op : MicroOp) (hop' : f.op = op) (hne : op ≠ .pop ∧ op ≠ .recv) : False :=
    hop.elim (fun hop => hne.1 (hop'.symm.trans hop)) fun hop => hne.2 (hop'.symm.trans hop)
  have hbefore (hu : f.upc ≠ .u4) : s.unanswered (microBuf f.op) =
      (s.buf (microBuf f.op)).bytes s.params (microBuf f.op) (some f) := by
    rw [State.unanswered, hs, unreleasedBytes_eq_nil (by rintro _ ⟨⟩ _ _; exact hu), List.nil_append]
  cases h with
  | popEmpty hop hu he =>
    rw [State.unanswered_of_quiet (by rw [hs]; rintro _ ⟨⟩ - -; rw [hu]; nofun), unanswered_of_idle rfl]
    simp [hu]
  | popTested hop hu he | popRead hop hu =>
    rw [State.unanswered_of_quiet (by rw [hs]; rintro _ ⟨⟩ - -; rw [hu]; nofun),
      State.unanswered_of_quiet (by rintro _ ⟨⟩ - -; nofun)]
    simp [hu]
  | popAdvanced hop hu hv =>
    obtain ⟨xs, hx, hh⟩ := hinv.popping_advanced hs hop hu
    rw [hbefore (by rw [hu]; nofun), hx, unanswered_of_holds (xs := xs) (by simpa using hh)
      (pendingPush_of_popping (f := { f with upc := .u4 }) hop _ _)
      (unreleasedPop_of_advanced (f := { f with upc := .u4 }) hop rfl),
      State.withFg_fg, unreleasedBytes_of_pop (f := { f with upc := .u4 }) hop rfl]
    simp
  | popReleased hop hu hv =>
    obtain ⟨xs, hx, hh⟩ := hinv.popping_advanced hs hop hu
    rw [hv, countLag] at hh
    rw [hbefore (by rw [hu]; nofun), hx, unanswered_of_holds (xs := xs) (by simpa using hh) pendingPush_none rfl,
      State.lastResult_finish]
    simp [hu]
  | popCounted hop hu hv =>
    have hh := hinv.popping_after hs hop hu
    have hc := hh.countDown
    rw [hv] at hc
    rw [unanswered_of_holds hh (by rw [hs]; exact pendingPush_of_popping hop _ _)
      (by rw [hs]; exact unreleasedPop_of_advanced hop hu), hs, unreleasedBytes_of_pop hop hu,
      unanswered_of_holds (by simpa using hc) pendingPush_none rfl, State.lastResult_finish]
    simp [hu]
  | pushHeld _ hop' | pushTested _ hop' | pushStored _ hop' | pushAdvanced _ hop' | pushPublished _ hop'
  | pushCounted _ hop' => exact (hno _ hop' ⟨nofun, nofun⟩).elim
  | peekEmpty hop' | peekTested hop' | peekRead hop' | emptyAnswered hop' | fullAnswered hop' | occAnswered hop' =>
    exact (hno _ hop' ⟨nofun, nofun⟩).elim

/-- A push takes its byte in at P3 and answers for it with its last micro-step. -/
theorem unanswered_of_pushing {b : Byte} (hop : f.op = .push b) (h : Took f s t) : ∃ d,
    t.unanswered .rb = s.unanswered .rb ++ d ∧ uncountedBytes s.fg ++ d =
      (if f.upc ≠ .u1 ∧ t.fg = none then [b] else []) ++ uncountedBytes t.fg := by
  have hbefore : s.unanswered .rb = s.rb.bytes s.params .rb (some f) := by
    rw [State.unanswered, hs, unreleasedBytes_of_push hop, List.nil_append]
    rfl
  cases h with
  | pushHeld _ _ hu =>
    have hne : f.upc ≠ .u4 := by rw [hu]; nofun
    refine ⟨[], ?_, by rw [hs, uncountedBytes_before hne, if_neg (by simp [hu])]; rfl⟩
    rw [hbefore, RingBuf.bytes_of_quiet (by rintro _ ⟨⟩ - -; exact hne), unanswered_of_idle rfl, List.append_nil]
    rfl
  | pushTested _ _ hu =>
    have hne : f.upc ≠ .u4 := by rw [hu]; nofun
    have hnew : uncountedBytes (some { f with flag := false, upc := .u2 }) = [] := uncountedBytes_before nofun
    refine ⟨[], ?_, by rw [hs, uncountedBytes_before hne, if_neg (by simp [hu]), State.withFg_fg, hnew]⟩
    rw [hbefore, RingBuf.bytes_of_quiet (by rintro _ ⟨⟩ - -; exact hne),
      State.unanswered_of_quiet (by rintro _ ⟨⟩ - -; nofun), List.append_nil]
    rfl
  | pushStored c hc hu =>
    obtain rfl : b = c := MicroOp.push.inj (hop.symm.trans hc)
    have hne : f.upc ≠ .u4 := by rw [hu]; nofun
    have hknows := (opKnows_of_pushing hop).mp (hinv.knows hs (microBuf_of_push hop))
    rw [hu] at hknows
    have hh := (hinv.own_before hs .rb hne).store hknows b
    have hnew : uncountedBytes (some { f with upc := .u3 }) = [] := uncountedBytes_before nofun
    refine ⟨[], ?_, by rw [hs, uncountedBytes_before hne, if_neg (by simp), State.withFg_fg, hnew]⟩
    rw [hbefore, unanswered_of_holds hh (pendingPush_eq_zero (by rintro _ ⟨⟩ - -; nofun))
      (unreleasedPop_of_pushing (f := { f with upc := .u3 }) hop), State.withFg_fg,
      unreleasedBytes_of_push (f := { f with upc := .u3 }) hop, List.append_nil, List.nil_append]
    rfl
  | pushAdvanced _ _ hu hv =>
    have hne : f.upc ≠ .u4 := by rw [hu]; nofun
    have hadv : uncountedBytes (some { f with upc := .u4 }) = [b] := uncountedBytes_of_push hop rfl
    refine ⟨[b], ?_, by rw [hs, uncountedBytes_before hne, if_neg (by simp), State.withFg_fg, hadv]⟩
    rw [hbefore, unanswered_of_holds (hinv.pushing_advanced hs hop hu)
      (pendingPush_of_advanced (f := { f with upc := .u4 }) hop rfl)
      (unreleasedPop_of_pushing (f := { f with upc := .u4 }) hop), State.withFg_fg,
      unreleasedBytes_of_push (f := { f with upc := .u4 }) hop, List.nil_append]
  | pushPublished _ _ hu hv =>
    have hne : f.upc ≠ .u4 := by rw [hu]; nofun
    have hh := hinv.pushing_advanced hs hop hu
    rw [hv, countLag] at hh
    refine ⟨[b], ?_, by rw [hs, uncountedBytes_before hne]; simp [hu]⟩
    rw [hbefore, unanswered_of_holds hh pendingPush_none rfl]
    rfl
  | pushCounted _ _ hu hv =>
    have hc := (hinv.pushing_after hs hop hu).countUp
    rw [hv] at hc
    refine ⟨[], ?_, by rw [hs, uncountedBytes_of_push hop hu]; simp [hu]⟩
    rw [hbefore, unanswered_of_holds hc pendingPush_none rfl, List.append_nil]
    rfl
  | popEmpty hop' | popTested hop' | popRead hop' | popAdvanced hop' | popReleased hop' | popCounted hop' =>
    obtain hop' | hop' := hop' <;> exact nomatch hop.symm.trans hop'
  | peekEmpty hop' | peekTested hop' | peekRead hop' | emptyAnswered hop' | fullAnswered hop' | occAnswered hop' =>
    exact nomatch hop.symm.trans hop'

omit hinv

/-- Where the operation neither pushes nor pops, its buffer and what is pending there stay. -/
theorem unanswered_of_asking (h : Took f s t)
    (hid : microBuf f.op = id → f.op.isPush = false ∧ f.op.isPop = false) : t.unanswered id = s.unanswered id := by
  have hno (g : Progress) (hg : g.op = f.op) (hgid : microBuf g.op = id)
      (hp : g.op.isPush = true ∨ g.op.isPop = true) : g.upc ≠ .u4 := by
    rw [hg] at hp hgid
    obtain ⟨hpush, hpop⟩ := hid hgid
    exact hp.elim (fun hp => nomatch hpush.symm.trans hp) fun hp => nomatch hpop.symm.trans hp
  have hbuf : t.buf id = s.buf id := by
    by_cases he : microBuf f.op = id
    · obtain ⟨hpush, hpop⟩ := hid he
      refine h.buf_of_asking (fun b hb => nomatch hpush.symm.trans (MicroOp.isPush_iff.mpr ⟨b, hb⟩)) ?_ id
      exact not_or.mp fun ho => nomatch hpop.symm.trans (MicroOp.isPop_iff.mpr ho)
    · exact h.other_buf he
  rw [State.unanswered_of_quiet fun g hg => hno g (h.fg_keeps g hg).1,
    State.unanswered_of_quiet fun g hg => hno g (by rw [hs] at hg; cases hg; rfl), h.keeps.1, hbuf]

theorem uncountedBytes_of_took (h : Took f s t) (hpush : f.op.isPush = false) :
    uncountedBytes s.fg = [] ∧ uncountedBytes t.fg = [] := by
  have hno (g : Progress) (hg : g.op = f.op) (hp : g.op.isPush = true) : g.upc ≠ .u4 :=
    (Bool.false_ne_true (hpush.symm.trans (hg ▸ hp))).elim
  exact ⟨uncountedBytes_eq_nil fun g hg => hno g (by rw [hs] at hg; cases hg; rfl),
    uncountedBytes_eq_nil fun g hg => hno g (h.fg_keeps g hg).1⟩

end

/-! ### The start -/

/-- The start of an operation finds the foreground idle and moves no byte. -/
theorem unanswered_of_start {op : MicroOp} (hfg : s.issue.agent = .fg) (h : beginMicro i op s = .next t) :
    t.unanswered id = s.unanswered id ∧ uncountedBytes t.fg = uncountedBytes s.fg := by
  obtain ⟨ha, -, rfl⟩ := beginMicro_eq_next.mp h
  obtain ⟨-, -, hidle, -⟩ := admissionRefusal_eq_none.mp ha
  rw [hidle hfg, unanswered_of_idle (hidle hfg), State.unanswered_of_quiet (by rintro _ ⟨⟩ - -; nofun),
    State.buf_withFg, State.withFg_fg, uncountedBytes_eq_nil (by rintro _ ⟨⟩ -; nofun)]
  exact ⟨rfl, rfl⟩

end

end Sys2Proof.Machine
end

section
/-! SUPPORT. Proofs about the reset state and about the RB unit over every run (rules R20, R27). -/

namespace Sys2Proof.Machine

open Sys2Proof.Config

/-! ### Reset -/

theorem sound_resetRingBuf (P : Params) (id : BufId) : resetRingBuf.Sound P id where
  canonical := Memory.wf_nil
  inside := nofun
  capFits := Nat.zero_le _
  indices := nofun
  degenerate _ := ⟨rfl, rfl⟩
  counted _ := Nat.zero_le _
  uncounted _ := rfl
  unboundReset _ := ⟨rfl, rfl, rfl, rfl⟩

/-- A buffer after reset is empty: unbinding it changes nothing. -/
theorem bufInv_resetRingBuf (P : Params) (id : BufId) : BufInv P id none resetRingBuf :=
  RingBuf.Holds.bufInv (sound_resetRingBuf P id).holds_unbind pendingPush_none rfl nofun

theorem engineSound_of_reset (P : Params) (xs : List Input) :
    EngineSound { State.reset with params := P, inputs := xs } where
  enabled := rfl
  idle _ := ⟨by cases P.variant <;> rfl, rfl⟩
  before _ := ⟨rfl, rfl, rfl, rfl, rfl, rfl, rfl, rfl⟩
  after := nofun
  usable := nofun

/-! ### Runs with a ledger -/

section
variable {α : Type} {enter : α → State → State → α}

/-- A property of the state and the ledger that every step keeps holds after every run. -/
theorem ledgerRun_keeps {J : α → State → Prop}
    (hstep : ∀ l s t, J l s → step s = .next t → J (enter l s t) t) :
    ∀ {n : Nat} {l m : α} {s t : State}, J l s → ledgerRun enter n l s = some (m, t) → J m t
  | 0, l, m, s, t, hJ, h => by
    obtain ⟨rfl, rfl⟩ := Prod.mk.inj (Option.some.inj h)
    exact hJ
  | n + 1, l, m, s, t, hJ, h => by
    rw [ledgerRun] at h
    cases hs : step s with
    | next u =>
      rw [hs] at h
      exact ledgerRun_keeps hstep (hstep l s u hJ hs) h
    | fault f => rw [hs] at h; cases h
    | refused r => rw [hs] at h; cases h

end

/-! ### The ledger of the RB unit -/

/-- The bytes pushed are the bytes popped and those still to be answered with, but for a byte in a push in progress. -/
def RbLedger.Balanced (l : RbLedger) (s : State) : Prop :=
  l.pushed ++ uncountedBytes s.fg = l.popped ++ s.unanswered .rb

section
variable {s t : State} {i : Instr} {f : Progress} {l : RbLedger}

theorem RbLedger.Balanced.of_leave (h : l.Balanced s) (hfg : uncountedBytes t.fg = uncountedBytes s.fg)
    (hu : t.unanswered .rb = s.unanswered .rb) : l.Balanced t := by
  rw [RbLedger.Balanced, hfg, hu]
  exact h

theorem RbLedger.enter_of_nothing (hp : s.performs = none) (hr : s.resumes = none) : l.enter s t = l := by
  simp only [RbLedger.enter, hp, hr]

section
variable (hp : s.performs = none) (hr : s.resumes = some f)
include hp hr

theorem RbLedger.enter_of_push {b : Byte} (hop : f.op = .push b) : l.enter s t =
    { l with pushed := l.pushed ++ if f.upc ≠ .u1 ∧ t.fg = none then [b] else [] } := by
  simp only [RbLedger.enter, hp, hr, hop]
  split <;> simp

theorem RbLedger.enter_of_pop (hop : f.op = .pop) : l.enter s t =
    { l with popped := l.popped ++ if f.upc ≠ .u1 ∧ t.fg = none then [t.lastResult] else [] } := by
  simp only [RbLedger.enter, hp, hr, hop]
  split <;> simp

theorem RbLedger.enter_of_asking (hpush : f.op.isPush = false) (hpop : f.op ≠ .pop) : l.enter s t = l := by
  cases hop : f.op
  case push => rw [hop] at hpush; cases hpush
  case pop => exact absurd hop hpop
  all_goals simp only [RbLedger.enter, hp, hr, hop, ite_self]

end

theorem RbLedger.enter_of_other (hp : s.performs = some i) (hr : s.resumes = none) (hu : touchOf .rb i s = .leave) :
    l.enter s t = l := by
  cases i
  case rbInit | rbPush | rbPop => cases hu
  all_goals simp only [RbLedger.enter, hp, hr]

/-- No push of the foreground's is in progress on the RB unit. -/
theorem uncountedBytes_of_no_push (h : ∀ f, s.fg = some f → microBuf f.op = .rb → f.op.isPush = false) :
    uncountedBytes s.fg = [] := by
  refine uncountedBytes_eq_nil fun f hf hp => ?_
  obtain ⟨b, hb⟩ := MicroOp.isPush_iff.mp hp
  exact nomatch (h f hf (microBuf_of_push hb)).symm.trans hp

theorem RbLedger.Balanced.atomic {x : Issue} {xs : List Input} (hinv : s.Inv) (hl : l.Balanced s)
    (h : exec i (s.fetched x xs) = .next t) (hp : s.performs = some i) (hr : s.resumes = none) :
    (l.enter s t).Balanced t := by
  have hinv' := inv_fetched hinv x xs
  have hfg : t.fg = s.fg := (exec_keeps h).2.1
  cases hu : touchOf .rb i (s.fetched x xs) with
  | leave =>
    rw [RbLedger.enter_of_other hp hr hu]
    exact hl.of_leave (by rw [hfg]) (unanswered_of_leave (s := s.fetched x xs) h hu)
  | build =>
    obtain ⟨c, rfl⟩ := touchOf_rb_eq_build.mp hu
    obtain ⟨hnil, hquiet⟩ := unanswered_of_build hinv' h hu
    rw [RbLedger.Balanced, hnil, hfg, uncountedBytes_of_no_push (s := s) fun f hf hid => absurd hid (hquiet f hf)]
    simp only [RbLedger.enter, hp]
  | push b =>
    obtain rfl := touchOf_rb_eq_push.mp hu
    have hno : uncountedBytes s.fg = [] := uncountedBytes_of_no_push (s := s) (op_of_touch hinv' h hu)
    have hq : t.unanswered .rb = s.unanswered .rb ++ if s.rb.isFull s.params.variant then [] else [b] :=
      unanswered_of_push hinv' h hu
    rw [RbLedger.Balanced, hno, List.append_nil] at hl
    rw [RbLedger.Balanced, hfg, hno, List.append_nil, hq]
    simp only [RbLedger.enter, hp]
    split <;> simp [hl]
  | pop =>
    obtain rfl := touchOf_rb_eq_pop.mp hu
    have hq : s.unanswered .rb = (if s.rb.isEmpty s.params.variant then []
        else [slotByte .rb s.rb.slots s.rb.tail.toNat]) ++ t.unanswered .rb :=
      unanswered_of_pop (s := s.fetched x xs) hinv' h hu
    obtain ⟨-, q, v, hpop, ht⟩ := exec_rbPop_eq_next.mp h
    rw [RbLedger.Balanced, hq] at hl
    rw [RbLedger.Balanced, hfg]
    simp only [RbLedger.enter, hp]
    obtain ⟨he, -, -⟩ | ⟨he, -, rfl⟩ := RingBuf.pop_cases hpop
    · replace he : s.rb.isEmpty s.params.variant = true := he
      rw [if_pos he] at hl ⊢
      exact hl
    · replace he : s.rb.isEmpty s.params.variant = false := he
      rw [he, if_neg Bool.false_ne_true] at hl ⊢
      rw [ht, State.lastResult_respond, ← ht]
      exact hl.trans (List.append_assoc ..).symm

theorem RbLedger.Balanced.took {xs : List Input} (hinv : s.Inv) (hs : s.fg = some f) (hl : l.Balanced s)
    (h : Took f (s.fetched s.issue xs) t) (hp : s.performs = none) (hr : s.resumes = some f) :
    (l.enter s t).Balanced t := by
  have hinv' := inv_fetched hinv s.issue xs
  cases hpush : f.op.isPush with
  | true =>
    obtain ⟨b, hop⟩ := MicroOp.isPush_iff.mp hpush
    obtain ⟨d, hq, hd⟩ := unanswered_of_pushing hinv' hs hop h
    rw [RbLedger.enter_of_push hp hr hop, RbLedger.Balanced, List.append_assoc, ← hd, ← List.append_assoc,
      hq, ← List.append_assoc]
    exact congrArg (· ++ d) hl
  | false =>
    obtain ⟨hu, hu'⟩ := uncountedBytes_of_took (s := s.fetched s.issue xs) hs h hpush
    by_cases hop : f.op = .pop
    · have hq := unanswered_of_popping hinv' hs (.inl hop) h
      rw [hop] at hq
      rw [RbLedger.Balanced, show uncountedBytes s.fg = [] from hu, show s.unanswered .rb = _ from hq] at hl
      rw [RbLedger.enter_of_pop hp hr hop, RbLedger.Balanced, hu', List.append_assoc]
      exact hl
    · rw [RbLedger.enter_of_asking hp hr hpush hop]
      refine hl.of_leave (hu'.trans hu.symm) (unanswered_of_asking (s := s.fetched s.issue xs) hs h
        fun hid => ⟨hpush, ?_⟩)
      refine Bool.eq_false_of_not_eq_true fun hpop => ?_
      obtain hop' | hop' := MicroOp.isPop_iff.mp hpop
      · exact hop hop'
      · rw [hop'] at hid
        cases hid

theorem RbLedger.Balanced.step (hinv : s.Inv) (hl : l.Balanced s) (h : Machine.step s = .next t) :
    (l.enter s t).Balanced t := by
  cases stepped_of_step h with
  | idle hp hr =>
    rw [RbLedger.enter_of_nothing hp hr]
    exact hl
  | atomic i x xs _ hp hr h => exact hl.atomic hinv h hp hr
  | start i op p xs _ hp hr hi h =>
    obtain ⟨hu, hfg⟩ := unanswered_of_start (id := .rb) (s := s.fetched { agent := .fg, port := p } xs) rfl h
    rw [RbLedger.enter_of_nothing hp hr]
    exact hl.of_leave hfg hu
  | micro f xs _ hp hr hs h => exact hl.took hinv hs h hp hr

end

end Sys2Proof.Machine

namespace Sys2Proof.Proofs

open Sys2Proof Sys2Proof.Machine

/-- Settles O7: empty buffers, and an engine whose registers R45 fixes. -/
theorem resetMeetsTheInvariant : Obligations.ResetMeetsTheInvariant := by
  unfold Obligations.ResetMeetsTheInvariant
  intro P xs
  refine State.inv_iff.mpr ⟨fun id => ?_, engineSound_of_reset P xs, nofun⟩
  cases id <;> exact bufInv_resetRingBuf P _

/-- Settles O12: the ledger stays balanced over every run, the bounds are the invariant's. -/
theorem contentsArePushedAndNotPopped : Obligations.ContentsArePushedAndNotPopped := by
  unfold Obligations.ContentsArePushedAndNotPopped
  intro n s t l m hinv hfg hl hrun
  have hstart : l.Balanced s := by
    rw [RbLedger.Balanced, hfg, unanswered_of_idle hfg]
    simpa using hl
  obtain ⟨hinv', hm⟩ : t.Inv ∧ m.Balanced t := ledgerRun_keeps (J := fun l s => s.Inv ∧ l.Balanced s)
    (fun l s t hJ h => ⟨inv_of_step hJ.1 h, hJ.2.step hJ.1 h⟩) ⟨hinv, hstart⟩ hrun
  have hq := hinv'.rbSound
  refine ⟨fun _ => ⟨hq.counted, hq.indices, hq.degenerate, hq.occ_le_usable⟩, fun hquiet => ⟨fun hv hc => ?_, ?_⟩⟩
  · have hh := hinv'.rb_holds hquiet
    have hlen := hh.length_eq_occ
    rw [hv, RingBuf.occ_explicit] at hlen
    rw [hh.head hc, hlen]
  · rw [RbLedger.Balanced, unanswered_of_not_inProgress hquiet,
      uncountedBytes_of_no_push fun f hf hid => absurd hid (op_elsewhere hquiet f hf), List.append_nil] at hm
    exact hm

end Sys2Proof.Proofs
end

section
/-! SUPPORT. Proofs about the engine's transmit side over every run (rule R47). -/

namespace Sys2Proof.Machine

open Sys2Proof.Config

/-- The bytes accepted are those sent on the line since `start`, the byte in flight and the queue, oldest first. -/
structure TxLedger.Balanced (l : TxLedger) (s : State) : Prop where
  start : l.start ≤ s.se.txLine.length
  sent  : l.sent = s.se.txLine.drop l.start ++ s.inFlight ++ s.se.txq.contents s.params .txq

section
variable {s t : State} {i : Instr} {l : TxLedger}

/-- The ledger reads the line, the output register and the queue. -/
theorem TxLedger.Balanced.congr (h : l.Balanced s) (hp : t.params = s.params) (hl : t.se.txLine = s.se.txLine)
    (hb : t.se.txBuf = s.se.txBuf) (hr : t.se.txReady = s.se.txReady) (hq : t.se.txq = s.se.txq) : l.Balanced t where
  start := hl ▸ h.start
  sent := by
    rw [State.inFlight, hp, hl, hb, hr, hq]
    exact h.sent

theorem txReady_afterInit (P : Params) (c : SerialConfig) (valid : Bool) (e : SerialEngine) :
    (e.afterInit P c valid).txReady = true := by cases valid <;> rfl

theorem State.unanswered_txq (s : State) : s.unanswered .txq = s.se.txq.contents s.params .txq :=
  unanswered_of_not_inProgress (inProgressOn_txq s)

theorem inFlight_of_ready (h : s.se.txReady = true) : s.inFlight = [] := if_pos h

theorem inFlight_of_not_ready (h : s.se.txReady = false) : s.inFlight = [s.se.txBuf] := by
  rw [State.inFlight, h]
  rfl

/-! ### The four operations on the transmit side -/

/-- A successful SE.INIT leaves nothing in flight and nothing queued. -/
theorem TxLedger.balanced_of_seInit {p0 p1 p2 p3 p4 p5 p6 p7 : Byte} (hinv : s.Inv)
    (h : exec (.seInit p0 p1 p2 p3 p4 p5 p6 p7) s = .next t) :
    ({ sent := [], start := t.se.txLine.length } : TxLedger).Balanced t := by
  have hnil := (unanswered_of_build (id := .txq) hinv h rfl).1
  obtain ⟨-, rfl⟩ := exec_seInit_eq_next.mp h
  refine ⟨Nat.le_refl _, ?_⟩
  rw [← State.unanswered_txq, hnil, List.drop_length, inFlight_of_ready]
  · rfl
  · exact txReady_afterInit ..

/-- SE.SEND accepts its byte into the output register from Idle, and else behind the queue. -/
theorem TxLedger.Balanced.seSend {b : Byte} (hinv : s.Inv) (hl : l.Balanced s) (h : exec (.seSend b) s = .next t) :
    (if t.lastResponse = [ccDone] then { l with sent := l.sent ++ [b] } else l).Balanced t := by
  obtain ⟨-, -, ⟨h0, hr, rfl⟩ | ⟨ht, hf, q, ok, hq, rfl⟩ | ⟨-, -, rfl⟩⟩ := exec_seSend_eq_next.mp h
  · have hnil := hinv.txq_holds.isEmpty_iff.mp (hinv.engine.idle h0).1
    rw [State.lastResponse_respond, if_pos rfl]
    refine ⟨hl.start, ?_⟩
    have hs := hl.sent
    rw [inFlight_of_ready hr, hnil] at hs
    simp [hs, State.inFlight, hnil]
  · have hpush := unanswered_of_push (id := .txq) hinv h (touchOf_txq_eq_push.mpr ⟨rfl, ht⟩)
    rw [State.unanswered_txq, State.unanswered_txq, if_neg (by simpa [State.buf] using hf)] at hpush
    rw [State.lastResponse_respond, if_pos rfl]
    refine ⟨hl.start, ?_⟩
    rw [hpush, ← List.append_assoc]
    exact congrArg (· ++ [b]) hl.sent
  · rw [State.lastResponse_respond, if_neg (by decide)]
    exact hl.congr rfl rfl rfl rfl rfl

/-- SE.TXISR moves the oldest queued byte into the output register. -/
theorem TxLedger.Balanced.seTxisr (hinv : s.Inv) (hl : l.Balanced s) (h : exec .seTxisr s = .next t) :
    l.Balanced t := by
  have hpop := unanswered_of_pop (id := .txq) hinv h rfl
  obtain ⟨-, -, -, hr, ⟨-, rfl⟩ | ⟨he, q, v, hq, rfl⟩⟩ := exec_seTxisr_eq_next.mp h
  · exact hl.congr rfl rfl rfl rfl rfl
  · rw [State.unanswered_txq, State.unanswered_txq, if_neg (by simpa [State.buf] using he)] at hpop
    obtain ⟨he', -⟩ | ⟨-, -, rfl⟩ := RingBuf.pop_cases hq
    · exact nomatch he.symm.trans he'
    · refine ⟨hl.start, ?_⟩
      have hs := hl.sent
      rw [inFlight_of_ready hr, List.append_nil, hpop, ← List.append_assoc] at hs
      exact hs

/-- LINE.TXDONE moves the byte in flight to the line. -/
theorem TxLedger.Balanced.lineTxdone (hl : l.Balanced s) (h : exec .lineTxdone s = .next t) : l.Balanced t := by
  obtain ⟨-, hr, rfl⟩ := exec_lineTxdone_eq_next.mp h
  obtain ⟨hstart, hs⟩ := hl
  refine ⟨?_, ?_⟩
  · simp only [State.withSe_se, List.length_append]
    omega
  · rw [inFlight_of_ready rfl, List.append_nil]
    simp only [State.withSe_se, State.withSe_params, List.drop_append_of_le_length hstart]
    rw [hs, inFlight_of_not_ready hr]

/-! ### Every step -/

theorem TxLedger.enter_of_nothing (hp : s.performs = none) : l.enter s t = l := by
  simp only [TxLedger.enter, hp]

theorem TxLedger.enter_of_other (hp : s.performs = some i) (hi : isTransmit i = false) : l.enter s t = l := by
  cases i
  case seInit | seSend => cases hi
  all_goals simp only [TxLedger.enter, hp]

theorem TxLedger.Balanced.exec {x : Issue} {xs : List Input} (hinv : s.Inv) (hp : s.performs = some i)
    (h : Machine.exec i (s.fetched x xs) = .next t) (hl : s.se.inited = true → l.Balanced s)
    (h1 : t.se.inited = true) : (l.enter s t).Balanced t := by
  have hinv' := inv_fetched hinv x xs
  by_cases hi : ∃ p0 p1 p2 p3 p4 p5 p6 p7, i = .seInit p0 p1 p2 p3 p4 p5 p6 p7
  · obtain ⟨p0, p1, p2, p3, p4, p5, p6, p7, rfl⟩ := hi
    simp only [TxLedger.enter, hp, h1, if_pos]
    exact TxLedger.balanced_of_seInit hinv' h
  · have hl := hl (h1 ▸ (exec_keeps_inited h fun p0 p1 p2 p3 p4 p5 p6 p7 hj => hi ⟨_, _, _, _, _, _, _, _, hj⟩).symm)
    have hl' : l.Balanced (s.fetched x xs) := ⟨hl.start, hl.sent⟩
    cases ht : isTransmit i with
    | false =>
      rw [TxLedger.enter_of_other hp ht]
      have hk := exec_keeps_transmit h ht
      exact hl'.congr (exec_keeps h).1 (by rw [hk]) (by rw [hk]) (by rw [hk]) (by rw [hk])
    | true =>
      cases i
      case seInit => exact absurd ⟨_, _, _, _, _, _, _, _, rfl⟩ hi
      case seSend b =>
        simp only [TxLedger.enter, hp]
        exact hl'.seSend hinv' h
      case seTxisr =>
        simp only [TxLedger.enter, hp]
        exact hl'.seTxisr hinv' h
      case lineTxdone =>
        simp only [TxLedger.enter, hp]
        exact hl'.lineTxdone h
      all_goals cases ht

theorem TxLedger.Balanced.step (hinv : s.Inv) (hl : s.se.inited = true → l.Balanced s)
    (h : Machine.step s = .next t) (h1 : t.se.inited = true) : (l.enter s t).Balanced t := by
  cases hp : s.performs with
  | none =>
    have hk := step_keeps_se h hp
    rw [TxLedger.enter_of_nothing hp]
    exact (hl (by rw [hk] at h1; exact h1)).congr (step_keeps_params h) (by rw [hk]) (by rw [hk]) (by rw [hk])
      (by rw [hk])
  | some i =>
    obtain ⟨x, xs, ht⟩ := exec_of_step h hp
    exact TxLedger.Balanced.exec hinv hp ht hl h1

end

end Sys2Proof.Machine

namespace Sys2Proof.Proofs

open Sys2Proof Sys2Proof.Machine

/-- Settles O53: the ledger stays balanced over every run on an inited engine. -/
theorem transmitOrder : Obligations.TransmitOrder := by
  unfold Obligations.TransmitOrder
  intro n s t l m hinv h0 hrun h1
  have hm : t.Inv ∧ (t.se.inited = true → m.Balanced t) :=
    ledgerRun_keeps (J := fun l s => s.Inv ∧ (s.se.inited = true → l.Balanced s))
      (fun l s t hJ h => ⟨inv_of_step hJ.1 h, TxLedger.Balanced.step hJ.1 hJ.2 h⟩)
      ⟨hinv, fun h1 => nomatch h0.symm.trans h1⟩ hrun
  exact (hm.2 h1).sent

end Sys2Proof.Proofs
end

section
/-! SUPPORT. Proofs about the engine's receive side over every run (rule R48). -/

namespace Sys2Proof.Machine

open Sys2Proof.Config

/-- The bytes returned, those of `rxq` not yet answered with, and the waiting byte are the arrivals since `start` but for
the overwritten and the dropped ones. -/
structure RxLedger.Balanced (l : RxLedger) (s : State) : Prop where
  start  : l.start ≤ s.se.rxLine.length
  order  : (l.got ++ s.unanswered .rxq ++ s.waiting).Sublist (s.se.rxLine.drop l.start)
  number : (l.got ++ s.unanswered .rxq ++ s.waiting).length + l.overwritten + l.dropped =
    (s.se.rxLine.drop l.start).length
  ovr    : s.se.rxOvr = true ↔ 0 < l.overwritten
  drop   : s.se.rxDrop.toNat = min 65535 l.dropped

section
variable {s t : State} {i : Instr} {l : RxLedger} {f : Progress}

/-- The ledger reads the line, the input register with its two flags, and what the queue has to answer with. -/
theorem RxLedger.Balanced.congr {bytes : List Byte} (h : l.Balanced s)
    (hu : s.unanswered .rxq = bytes ++ t.unanswered .rxq) (hl : t.se.rxLine = s.se.rxLine)
    (hb : t.se.rxBuf = s.se.rxBuf) (hf : t.se.rxFull = s.se.rxFull) (ho : t.se.rxOvr = s.se.rxOvr)
    (hd : t.se.rxDrop = s.se.rxDrop) : ({ l with got := l.got ++ bytes } : RxLedger).Balanced t := by
  obtain ⟨hstart, horder, hnumber, hovr, hdrop⟩ := h
  rw [State.waiting, ← hb, ← hf, ← hl, hu, ← List.append_assoc] at horder hnumber
  exact ⟨hl ▸ hstart, horder, hnumber, ho ▸ hovr, hd ▸ hdrop⟩

theorem RxLedger.Balanced.congr_leave (h : l.Balanced s) (hu : t.unanswered .rxq = s.unanswered .rxq)
    (hl : t.se.rxLine = s.se.rxLine) (hb : t.se.rxBuf = s.se.rxBuf) (hf : t.se.rxFull = s.se.rxFull)
    (ho : t.se.rxOvr = s.se.rxOvr) (hd : t.se.rxDrop = s.se.rxDrop) : l.Balanced t := by
  have hc := h.congr (bytes := []) hu.symm hl hb hf ho hd
  rwa [List.append_nil] at hc

theorem waiting_of_empty (h : s.se.rxFull = false) : s.waiting = [] := by
  rw [State.waiting, h]
  rfl

theorem waiting_of_full (h : s.se.rxFull = true) : s.waiting = [s.se.rxBuf] := if_pos h

/-! ### The four operations on the receive side -/

theorem receive_afterInit (P : Params) (c : SerialConfig) (valid : Bool) (e : SerialEngine) :
    (e.afterInit P c valid).rxFull = false ∧ (e.afterInit P c valid).rxOvr = false ∧
      (e.afterInit P c valid).rxDrop = 0 := by cases valid <;> exact ⟨rfl, rfl, rfl⟩

/-- A successful SE.INIT leaves nothing queued and nothing waiting. -/
theorem RxLedger.balanced_of_seInit {p0 p1 p2 p3 p4 p5 p6 p7 : Byte} (hinv : s.Inv)
    (h : exec (.seInit p0 p1 p2 p3 p4 p5 p6 p7) s = .next t) :
    ({ got := [], overwritten := 0, dropped := 0, start := t.se.rxLine.length } : RxLedger).Balanced t := by
  have hnil := (unanswered_of_build (id := .rxq) hinv h rfl).1
  obtain ⟨-, ht⟩ := exec_seInit_eq_next.mp h
  obtain ⟨hfull, hovr, hdrop⟩ : t.se.rxFull = false ∧ t.se.rxOvr = false ∧ t.se.rxDrop = 0 := by
    rw [ht]
    exact receive_afterInit ..
  refine ⟨Nat.le_refl _, ?_, ?_, ?_, ?_⟩
  · rw [hnil, waiting_of_empty hfull]
    exact List.nil_sublist _
  · rw [hnil, waiting_of_empty hfull, List.drop_length]
    rfl
  · rw [hovr]
    exact ⟨nofun, nofun⟩
  · rw [hdrop]
    rfl

/-- An arrival waits, in place of the byte waiting before it. -/
theorem RxLedger.Balanced.lineRxbyte {b : Byte} (hl : l.Balanced s) (h : exec (.lineRxbyte b) s = .next t) :
    (if s.se.inited && s.se.rxFull then { l with overwritten := l.overwritten + 1 } else l).Balanced t := by
  have hq := unanswered_of_leave (id := .rxq) h rfl
  obtain ⟨hstart, horder, hnumber, hovr, hdrop⟩ := hl
  obtain ⟨-, ⟨h0, rfl⟩ | ⟨h1, rfl⟩⟩ := exec_lineRxbyte_eq_next.mp h
  · rw [h0]
    exact ⟨hstart, horder, hnumber, hovr, hdrop⟩
  · have hline : (s.se.rxLine ++ [b]).drop l.start = s.se.rxLine.drop l.start ++ [b] :=
      List.drop_append_of_le_length hstart
    have hstart' : l.start ≤ (s.se.rxLine ++ [b]).length := by
      rw [List.length_append]
      omega
    obtain hf | hf := Bool.eq_false_or_eq_true s.se.rxFull
    · rw [waiting_of_full hf] at horder hnumber
      rw [if_pos (by simp [h1, hf])]
      refine ⟨hstart', ?_, ?_, by simp [hf], hdrop⟩
      · rw [hq, waiting_of_full rfl, State.withSe_se, hline]
        exact ((List.sublist_append_left _ _).trans horder).append (List.Sublist.refl _)
      · rw [hq, waiting_of_full rfl, State.withSe_se, hline]
        simp only [List.length_append, List.length_singleton] at hnumber ⊢
        omega
    · rw [waiting_of_empty hf, List.append_nil] at horder hnumber
      rw [if_neg (by simp [hf])]
      refine ⟨hstart', ?_, ?_, by simpa [hf] using hovr, hdrop⟩
      · rw [hq, waiting_of_full rfl, State.withSe_se, hline]
        exact horder.append (List.Sublist.refl _)
      · rw [hq, waiting_of_full rfl, State.withSe_se, hline]
        simp only [List.length_append, List.length_singleton] at hnumber ⊢
        omega

/-- SE.RXISR queues the waiting byte, or drops it where there is no room. -/
theorem RxLedger.Balanced.seRxisr (hinv : s.Inv) (hl : l.Balanced s) (h : exec .seRxisr s = .next t) :
    (if s.se.rxq.isFull s.params.variant then { l with dropped := l.dropped + 1 } else l).Balanced t := by
  have hq : t.unanswered .rxq = s.unanswered .rxq ++ if s.se.rxq.isFull s.params.variant then [] else [s.se.rxBuf] :=
    unanswered_of_push hinv h (touchOf_rxq_eq_push.mpr ⟨rfl, rfl⟩)
  obtain ⟨hstart, horder, hnumber, hovr, hdrop⟩ := hl
  obtain ⟨-, -, -, hfull, q, ok, hpush, rfl⟩ := exec_seRxisr_eq_next.mp h
  rw [waiting_of_full hfull] at horder hnumber
  obtain ⟨hf, -, rfl⟩ | ⟨hf, -, rfl⟩ := RingBuf.push_cases hpush
  · rw [hf, if_pos rfl, List.append_nil] at hq
    rw [hf, if_pos rfl]
    refine ⟨hstart, ?_, ?_, hovr, ?_⟩
    · rw [hq, waiting_of_empty rfl, List.append_nil]
      exact (List.sublist_append_left _ _).trans horder
    · rw [hq, waiting_of_empty rfl, List.append_nil, State.withSe_se, ← hnumber]
      simp only [List.length_append, List.length_singleton]
      omega
    · rw [State.withSe_se, if_neg Bool.false_ne_true, satAdd1_toNat, hdrop]
      show min 65535 (min 65535 l.dropped + 1) = min 65535 (l.dropped + 1)
      omega
  · rw [hf, if_neg Bool.false_ne_true] at hq
    rw [hf, if_neg Bool.false_ne_true]
    refine ⟨hstart, ?_, ?_, hovr, hdrop⟩
    · rw [hq, waiting_of_empty rfl, List.append_nil, ← List.append_assoc]
      exact horder
    · rw [hq, waiting_of_empty rfl, List.append_nil, ← List.append_assoc]
      exact hnumber

/-- SE.RECV returns the oldest queued byte. -/
theorem RxLedger.Balanced.seRecv (hinv : s.Inv) (hl : l.Balanced s) (h : exec .seRecv s = .next t) :
    (if s.se.rxq.isEmpty s.params.variant then l else { l with got := l.got ++ [t.lastResult] }).Balanced t := by
  have hpop : s.unanswered .rxq = (if s.se.rxq.isEmpty s.params.variant then []
    else [slotByte .rxq s.se.rxq.slots s.se.rxq.tail.toNat]) ++ t.unanswered .rxq := unanswered_of_pop hinv h rfl
  obtain ⟨-, -, q, v, hq, rfl⟩ := exec_seRecv_eq_next.mp h
  have hc := hl.congr hpop rfl rfl rfl rfl rfl
  obtain ⟨he, -, -⟩ | ⟨he, -, rfl⟩ := RingBuf.pop_cases hq <;> rw [he] at hc ⊢
  · rwa [if_pos rfl, List.append_nil] at hc
  · rwa [if_neg Bool.false_ne_true, State.lastResult_respond]

/-! ### Every step -/

theorem RxLedger.enter_of_nothing (hp : s.performs = none) (hr : s.resumes = none) : l.enter s t = l := by
  simp only [RxLedger.enter, hp, hr]

theorem RxLedger.enter_of_other (hp : s.performs = some i) (hr : s.resumes = none) (hi : isReceive i = false) :
    l.enter s t = l := by
  cases i
  case seInit | seRecv | lineRxbyte | seRxisr => cases hi
  all_goals simp only [RxLedger.enter, hp, hr]

theorem RxLedger.enter_of_resume (hp : s.performs = none) (hr : s.resumes = some f) : l.enter s t =
    if f.op = .recv ∧ f.upc ≠ .u1 ∧ t.fg = none then { l with got := l.got ++ [t.lastResult] } else l := by
  simp only [RxLedger.enter, hp, hr]

/-- Only SE.INIT, SE.RXISR and SE.RECV reach `rxq` (rule R33). -/
theorem touchOf_rxq_of_not_receive (hi : isReceive i = false) : touchOf .rxq i s = .leave := by
  cases i
  case seInit | seRecv | lineRxbyte | seRxisr => cases hi
  all_goals rfl

theorem RxLedger.Balanced.atomic {x : Issue} {xs : List Input} (hinv : s.Inv) (hp : s.performs = some i)
    (hr : s.resumes = none) (h : exec i (s.fetched x xs) = .next t) (hl : s.se.inited = true → l.Balanced s)
    (h1 : t.se.inited = true) : (l.enter s t).Balanced t := by
  have hinv' := inv_fetched hinv x xs
  by_cases hi : ∃ p0 p1 p2 p3 p4 p5 p6 p7, i = .seInit p0 p1 p2 p3 p4 p5 p6 p7
  · obtain ⟨p0, p1, p2, p3, p4, p5, p6, p7, rfl⟩ := hi
    simp only [RxLedger.enter, hp, h1, if_pos]
    exact RxLedger.balanced_of_seInit hinv' h
  · have hl := hl (h1 ▸ (exec_keeps_inited h fun p0 p1 p2 p3 p4 p5 p6 p7 hj => hi ⟨_, _, _, _, _, _, _, _, hj⟩).symm)
    have hl' : l.Balanced (s.fetched x xs) := ⟨hl.start, hl.order, hl.number, hl.ovr, hl.drop⟩
    cases ht : isReceive i with
    | false =>
      rw [RxLedger.enter_of_other hp hr ht]
      have hk := exec_keeps_receive h ht
      exact hl'.congr_leave (unanswered_of_leave (s := s.fetched x xs) h (touchOf_rxq_of_not_receive ht)) (by rw [hk])
        (by rw [hk]) (by rw [hk]) (by rw [hk]) (by rw [hk])
    | true =>
      cases i
      case seInit => exact absurd ⟨_, _, _, _, _, _, _, _, rfl⟩ hi
      case seRecv =>
        simp only [RxLedger.enter, hp]
        exact RxLedger.Balanced.seRecv (s := s.fetched x xs) hinv' hl' h
      case seRxisr =>
        simp only [RxLedger.enter, hp]
        exact RxLedger.Balanced.seRxisr (s := s.fetched x xs) hinv' hl' h
      case lineRxbyte b =>
        simp only [RxLedger.enter, hp]
        exact hl'.lineRxbyte h
      all_goals cases ht

theorem RxLedger.Balanced.took {xs : List Input} (hinv : s.Inv) (hs : s.fg = some f) (hl : l.Balanced s)
    (h : Took f (s.fetched s.issue xs) t) (hp : s.performs = none) (hr : s.resumes = some f) :
    (l.enter s t).Balanced t := by
  have hinv' := inv_fetched hinv s.issue xs
  have hk : t.se = { s.se with rxq := t.se.rxq } := h.keeps.2
  have hl' : l.Balanced (s.fetched s.issue xs) := ⟨hl.start, hl.order, hl.number, hl.ovr, hl.drop⟩
  rw [RxLedger.enter_of_resume hp hr]
  by_cases hop : f.op = .recv
  · have hq := unanswered_of_popping hinv' hs (.inr hop) h
    rw [hop] at hq
    have hc := hl'.congr hq (by rw [hk]; rfl) (by rw [hk]; rfl) (by rw [hk]; rfl) (by rw [hk]; rfl) (by rw [hk]; rfl)
    by_cases hlast : f.upc ≠ .u1 ∧ t.fg = none
    · rw [if_pos hlast] at hc
      rwa [if_pos ⟨hop, hlast⟩]
    · rw [if_neg hlast, List.append_nil] at hc
      rwa [if_neg fun h => hlast h.2]
  · have hq := unanswered_of_asking (id := .rxq) (s := s.fetched s.issue xs) hs h
      fun hid => nomatch (microBuf_of_ne_recv hop).symm.trans hid
    rw [if_neg fun h => hop h.1]
    exact hl'.congr_leave hq (by rw [hk]; rfl) (by rw [hk]; rfl) (by rw [hk]; rfl) (by rw [hk]; rfl) (by rw [hk]; rfl)

theorem RxLedger.Balanced.step (hinv : s.Inv) (hl : s.se.inited = true → l.Balanced s)
    (h : Machine.step s = .next t) (h1 : t.se.inited = true) : (l.enter s t).Balanced t := by
  cases stepped_of_step h with
  | idle hp hr =>
    rw [RxLedger.enter_of_nothing hp hr]
    exact hl h1
  | atomic i x xs _ hp hr h => exact RxLedger.Balanced.atomic hinv hp hr h hl h1
  | start i op p xs _ hp hr hi h =>
    have hq := (unanswered_of_start (id := .rxq) (s := s.fetched { agent := .fg, port := p } xs) rfl h).1
    obtain ⟨-, -, rfl⟩ := beginMicro_eq_next.mp h
    rw [RxLedger.enter_of_nothing hp hr]
    exact (hl h1).congr_leave hq rfl rfl rfl rfl rfl
  | micro f xs _ hp hr hs h =>
    have hk : t.se.inited = s.se.inited := by rw [h.keeps.2]; rfl
    exact (hl (hk ▸ h1)).took hinv hs h hp hr

end

end Sys2Proof.Machine

namespace Sys2Proof.Proofs

open Sys2Proof Sys2Proof.Machine

/-- Settles O54: the ledger stays balanced over every run on an inited engine. -/
theorem receiveOrder : Obligations.ReceiveOrder := by
  unfold Obligations.ReceiveOrder
  intro n s t l m hinv h0 _ hrun h1 hquiet
  have hm : t.Inv ∧ (t.se.inited = true → m.Balanced t) :=
    ledgerRun_keeps (J := fun l s => s.Inv ∧ (s.se.inited = true → l.Balanced s))
      (fun l s t hJ h => ⟨inv_of_step hJ.1 h, RxLedger.Balanced.step hJ.1 hJ.2 h⟩)
      ⟨hinv, fun h1 => nomatch h0.symm.trans h1⟩ hrun
  obtain ⟨-, horder, hnumber, hovr, hdrop⟩ := hm.2 h1
  rw [unanswered_of_not_inProgress hquiet] at horder hnumber
  exact ⟨horder, hnumber, hovr, hdrop⟩

end Sys2Proof.Proofs
end

section
/-! SUPPORT. Proofs that an operation in micro-steps with nothing between them is the atomic one (rule R113). -/

namespace Sys2Proof.Machine

open Sys2Proof.Config

/-! ### An operation with micro-steps, once admitted and ready -/

/-- What the atomic push answers on a bound buffer. -/
def pushBody (b : Byte) (s : State) : Result State :=
  if s.rb.isFull s.params.variant then .next (s.respond [ccDone, boolByte false])
  else andThen (memWrite s.params .rb s.rb s.rb.head b) fun q =>
    .next ((s.withRb (q.advanceHead.countUp s.params.variant)).respond [ccDone, boolByte true])

/-- What the atomic pop answers on a bound buffer. -/
def popBody (id : BufId) (s : State) : Result State :=
  if (s.buf id).isEmpty s.params.variant then .next (s.respond [ccDone, defaultByte])
  else andThen (memRead s.params id (s.buf id) (s.buf id).tail) fun v =>
    .next ((s.withBuf id ((s.buf id).advanceTail.countDown s.params.variant)).respond [ccDone, v])

/-- What RB.PEEK answers on a bound buffer. -/
def peekBody (s : State) : Result State :=
  if s.rb.isEmpty s.params.variant then .next (s.respond [ccDone, defaultByte])
  else andThen (memRead s.params .rb s.rb s.rb.tail) fun v => .next (s.respond [ccDone, v])

/-- What an operation with micro-steps answers as one atomic step, its port and its buffer being as it wants them. -/
def MicroOp.body : MicroOp → State → Result State
  | .push b, s => pushBody b s
  | .pop, s => popBody .rb s
  | .recv, s => popBody .rxq s
  | .peek, s => peekBody s
  | .empty, s => .next (s.respond [ccDone, boolByte (s.rb.isEmpty s.params.variant)])
  | .full, s => .next (s.respond [ccDone, boolByte (s.rb.isFull s.params.variant)])
  | .occ, s => .next (s.respond (ccDone :: idxBytes (BitVec.ofNat 16 (s.rb.occ s.params.variant))))

section
variable {s t : State} {i : Instr} {op : MicroOp} {f : Progress}

theorem andThen_requireBound {α β : Type} (q : RingBuf) (k : Result α) (g : α → Result β) :
    andThen (requireBound q k) g = requireBound q (andThen k g) := by
  unfold requireBound refuseIf
  split <;> rfl

theorem andThen_assoc {α β γ : Type} (r : Result α) (g : α → Result β) (h : β → Result γ) :
    andThen (andThen r g) h = andThen r fun a => andThen (g a) h := by cases r <;> rfl

theorem andThen_ite {α β : Type} {c : Bool} (r r' : Result α) (g : α → Result β) :
    andThen (if c then r else r') g = if c then andThen r g else andThen r' g := by cases c <;> rfl

theorem push_then_respond (b : Byte) : andThen (s.rb.push s.params .rb b)
    (fun r => .next ((s.withRb r.1).respond [ccDone, boolByte r.2])) = requireBound s.rb (pushBody b s) := by
  rw [RingBuf.push, andThen_requireBound, andThen_ite, andThen_assoc]
  rfl

theorem pop_then_respond (id : BufId) : andThen ((s.buf id).pop s.params id)
    (fun r => .next ((s.withBuf id r.1).respond [ccDone, r.2])) = requireBound (s.buf id) (popBody id s) := by
  rw [RingBuf.pop, andThen_requireBound, andThen_ite, andThen_assoc, andThen_next, State.withBuf_self]
  rfl

theorem peek_then_respond : andThen (s.rb.peek s.params .rb) (fun v => .next (s.respond [ccDone, v])) =
    requireBound s.rb (peekBody s) := by
  rw [RingBuf.peek, andThen_requireBound, andThen_ite, andThen_next]
  rfl

/-- An operation with micro-steps is admitted, finds its buffer ready, and answers. -/
theorem exec_eq_body (hi : microOpOf i = some op) :
    exec i s = whenAdmitted i s (requireReady op s (op.body s)) := by
  cases i <;> cases hi
  case rbPush b => exact congrArg (whenAdmitted (.rbPush b) s) (push_then_respond b)
  case rbPop => exact congrArg (whenAdmitted .rbPop s) (pop_then_respond .rb)
  case rbPeek => exact congrArg (whenAdmitted .rbPeek s) peek_then_respond
  case seRecv => exact congrArg (fun k => whenAdmitted .seRecv s (requireInited s k)) (pop_then_respond .rxq)
  all_goals rfl

/-! ### Its micro-steps one after another -/

theorem performAll_resume {xs : List Input} (h : microStep s = .next t) :
    performAll (.resume :: xs) s = performAll xs t := by
  show andThen (microStep s) (performAll xs) = _
  rw [h, andThen_next]

/-- An idle foreground answers in micro-steps what it answers at once. -/
theorem finish_eq_respond (hfg : s.fg = none) (hp : f.port = s.issue.port) (bytes : List Byte) :
    s.finish f bytes = s.respond bytes := by
  rw [State.finish, State.respond, hp, ← hfg]

@[simp] theorem State.withBuf_fg (s : State) (id : BufId) (q : RingBuf) : (s.withBuf id q).fg = s.fg := by
  cases id <;> rfl

@[simp] theorem State.withBuf_issue (s : State) (id : BufId) (q : RingBuf) : (s.withBuf id q).issue = s.issue := by
  cases id <;> rfl

theorem State.finish_withFg_withBuf (s : State) (fg : Option Progress) (id : BufId) (q : RingBuf) (f : Progress)
    (bytes : List Byte) : ((s.withFg fg).withBuf id q).finish f bytes = (s.withBuf id q).finish f bytes := by
  cases id <;> rfl

theorem State.finish_withBuf_withBuf (s : State) (fg fg' : Option Progress) (id : BufId) (q q' : RingBuf) (f : Progress)
    (bytes : List Byte) : ((((s.withFg fg).withBuf id q).withFg fg').withBuf id q').finish f bytes =
      (s.withBuf id q').finish f bytes := by
  cases id <;> rfl

theorem finish_withBuf_eq_respond (hfg : s.fg = none) (hp : f.port = s.issue.port) (id : BufId) (q : RingBuf)
    (bytes : List Byte) : (s.withBuf id q).finish f bytes = (s.withBuf id q).respond bytes :=
  finish_eq_respond ((State.withBuf_fg s id q).trans hfg)
    (hp.trans (congrArg Issue.port (State.withBuf_issue s id q)).symm) bytes

section
variable (hfg : s.fg = none) (hp : f.port = s.issue.port) (hu : f.upc = .u1)
include hfg hp hu

theorem resumes_push {b : Byte} (hop : f.op = .push b) :
    ∃ n ≤ 4, performAll (List.replicate n .resume) (s.withFg (some f)) = pushBody b s := by
  have hstep (t : State) (g : Progress) (hg : g.op = .push b) := microStep_of_push (s := t.withFg (some g)) rfl hg
  rw [pushBody]
  cases hf : s.rb.isFull s.params.variant with
  | true =>
    refine ⟨1, by decide, ?_⟩
    refine (performAll_resume ((hstep s f hop).trans (microPush_test_of_full hu hf))).trans ?_
    exact congrArg Host.Outcome.next (finish_eq_respond hfg hp _)
  | false =>
    have htested (xs : List Input) : performAll (.resume :: .resume :: xs) (s.withFg (some f)) =
        andThen (memWrite s.params .rb s.rb s.rb.head b) fun q =>
          performAll xs ((s.withRb q).withFg (some { f with flag := false, upc := .u3 })) :=
      (performAll_resume ((hstep s f hop).trans (microPush_test_of_room hu hf))).trans
        ((congrArg (andThen · (performAll xs)) (hstep s { f with flag := false, upc := .u2 } hop)).trans
          (andThen_assoc _ _ _))
    have hadv (q : RingBuf) := hstep (s.withRb q) { f with flag := false, upc := .u3 } hop
    cases hv : s.params.variant with
    | derived =>
      refine ⟨3, by decide, (htested [.resume]).trans (congrArg (andThen _) (funext fun q => ?_))⟩
      refine (performAll_resume ((hadv q).trans (microPush_advance_derived rfl hv))).trans ?_
      exact congrArg Host.Outcome.next (finish_eq_respond (s := s.withRb q.advanceHead) hfg hp _)
    | explicit =>
      refine ⟨4, by decide, (htested [.resume, .resume]).trans (congrArg (andThen _) (funext fun q => ?_))⟩
      refine (performAll_resume ((hadv q).trans (microPush_advance_explicit rfl hv))).trans ?_
      refine (performAll_resume ((hstep (s.withRb q.advanceHead) { f with flag := false, upc := .u4 } hop).trans
        (microPush_count rfl hv))).trans ?_
      exact congrArg Host.Outcome.next
        (finish_eq_respond (s := s.withRb (q.advanceHead.countUp .explicit)) hfg hp _)

theorem resumes_pop {id : BufId} (hop : f.op = .pop ∧ id = .rb ∨ f.op = .recv ∧ id = .rxq) :
    ∃ n ≤ 4, performAll (List.replicate n .resume) (s.withFg (some f)) = popBody id s := by
  have hstep (t : State) (g : Progress) (hg : g.op = f.op) :
      microStep (t.withFg (some g)) = microPop id g (t.withFg (some g)) := by
    obtain ⟨hop, rfl⟩ | ⟨hop, rfl⟩ := hop
    · exact microStep_of_pop (s := t.withFg (some g)) rfl (hg.trans hop)
    · exact microStep_of_recv (s := t.withFg (some g)) rfl (hg.trans hop)
  rw [popBody]
  cases he : (s.buf id).isEmpty s.params.variant with
  | true =>
    refine ⟨1, by decide, ?_⟩
    refine (performAll_resume ((hstep s f rfl).trans (microPop_test_of_empty id hu ?_))).trans ?_
    · rw [State.buf_withFg]
      exact he
    · exact congrArg Host.Outcome.next (finish_eq_respond hfg hp _)
  | false =>
    have htested (xs : List Input) : performAll (.resume :: .resume :: xs) (s.withFg (some f)) =
        andThen (memRead s.params id (s.buf id) (s.buf id).tail) fun v =>
          performAll xs (s.withFg (some { f with flag := false, val := v, upc := .u3 })) := by
      refine (performAll_resume ((hstep s f rfl).trans (microPop_test_of_nonempty id hu ?_))).trans ?_
      · rw [State.buf_withFg]
        exact he
      · refine (congrArg (andThen · (performAll xs)) (hstep s { f with flag := false, upc := .u2 } rfl)).trans ?_
        simp only [microPop, State.buf_withFg, andThen_assoc]
        rfl
    have hadv (v : Byte) := hstep s { f with flag := false, val := v, upc := .u3 } rfl
    cases hv : s.params.variant with
    | derived =>
      refine ⟨3, by decide, (htested [.resume]).trans (congrArg (andThen _) (funext fun v => ?_))⟩
      refine (performAll_resume ((hadv v).trans (microPop_advance_derived id rfl hv))).trans ?_
      rw [State.buf_withFg]
      exact congrArg Host.Outcome.next ((State.finish_withFg_withBuf ..).trans (finish_withBuf_eq_respond hfg hp id _ _))
    | explicit =>
      refine ⟨4, by decide, (htested [.resume, .resume]).trans (congrArg (andThen _) (funext fun v => ?_))⟩
      refine (performAll_resume ((hadv v).trans (microPop_advance_explicit id rfl hv))).trans ?_
      rw [State.buf_withFg]
      refine (performAll_resume ((hstep _ { f with flag := false, val := v, upc := .u4 } rfl).trans
        (microPop_count id rfl ?_))).trans ?_
      · rw [State.withFg_params, State.withBuf_params]
        exact hv
      · rw [State.buf_withFg, State.buf_withBuf_same]
        exact congrArg Host.Outcome.next
          ((State.finish_withBuf_withBuf ..).trans (finish_withBuf_eq_respond hfg hp id _ _))

theorem resumes_peek (hop : f.op = .peek) :
    ∃ n ≤ 4, performAll (List.replicate n .resume) (s.withFg (some f)) = peekBody s := by
  have hstep (g : Progress) (hg : g.op = f.op) := microStep_of_peek (s := s.withFg (some g)) rfl (hg.trans hop)
  rw [peekBody]
  cases he : s.rb.isEmpty s.params.variant with
  | true =>
    refine ⟨1, by decide, (performAll_resume ((hstep f rfl).trans (microPeek_test_of_empty hu he))).trans ?_⟩
    exact congrArg Host.Outcome.next (finish_eq_respond hfg hp _)
  | false =>
    refine ⟨2, by decide, (performAll_resume ((hstep f rfl).trans (microPeek_test_of_nonempty hu he))).trans ?_⟩
    refine (congrArg (andThen · (performAll [])) (hstep { f with flag := false, upc := .u2 } rfl)).trans ?_
    refine (andThen_assoc _ _ _).trans (congrArg (andThen _) (funext fun v => ?_))
    exact congrArg Host.Outcome.next (finish_eq_respond hfg hp _)

theorem resumes_query {bytes : List Byte}
    (hop : microStep (s.withFg (some f)) = microQuery bytes f (s.withFg (some f))) :
    ∃ n ≤ 4, performAll (List.replicate n .resume) (s.withFg (some f)) = .next (s.respond bytes) :=
  ⟨1, by decide, (performAll_resume (hop.trans (microQuery_answer hu bytes))).trans
    (congrArg Host.Outcome.next (finish_eq_respond hfg hp _))⟩

/-- The micro-steps of an operation, one after another, answer as its atomic step. -/
theorem resumes_eq_body :
    ∃ n ≤ 4, performAll (List.replicate n .resume) (s.withFg (some f)) = f.op.body s := by
  cases hop : f.op with
  | push b => exact resumes_push hfg hp hu hop
  | pop => exact resumes_pop hfg hp hu (.inl ⟨hop, rfl⟩)
  | recv => exact resumes_pop hfg hp hu (.inr ⟨hop, rfl⟩)
  | peek => exact resumes_peek hfg hp hu hop
  | empty => exact resumes_query hfg hp hu (microStep_of_empty rfl hop)
  | full => exact resumes_query hfg hp hu (microStep_of_full rfl hop)
  | occ => exact resumes_query hfg hp hu (microStep_of_occ rfl hop)

end

/-! ### The start -/

theorem whenAdmitted_cases (i : Instr) (s : State) :
    (∀ k, whenAdmitted i s k = k) ∨ ∃ r, ∀ k, whenAdmitted i s k = .refused r := by
  cases h : admissionRefusal i s with
  | none => exact .inl fun k => by rw [whenAdmitted, h]
  | some r => exact .inr ⟨r, fun k => by rw [whenAdmitted, h]⟩

theorem requireReady_cases (op : MicroOp) (s : State) :
    (∀ k : Result State, requireReady op s k = k) ∨ ∃ r, ∀ k : Result State, requireReady op s k = .refused r := by
  have hbound (q : RingBuf) :
      (∀ k : Result State, requireBound q k = k) ∨ ∀ k : Result State, requireBound q k = .refused .unbound := by
    cases h : q.bound
    · exact .inr (requireBound_of_unbound h)
    · exact .inl (requireBound_of_bound h)
  by_cases hop : op = .recv
  · subst hop
    cases h1 : s.se.inited with
    | false => exact .inr ⟨_, fun k => requireInited_of_uninited h1 _⟩
    | true =>
      have hready (k : Result State) := requireInited_of_inited h1 (requireBound s.se.rxq k)
      exact (hbound s.se.rxq).imp (fun h k => (hready k).trans (h k)) fun h => ⟨_, fun k => (hready k).trans (h k)⟩
  · simp only [requireReady_of_rb hop]
    exact (hbound s.rb).imp_right fun h => ⟨_, h⟩

/-- The start raises the atomic operation's refusals, and the micro-steps give its answer. -/
theorem start_resumes_eq_exec (hi : microOpOf i = some op) (hfg : s.fg = none) :
    ∃ n ≤ 4, andThen (beginMicro i op s) (performAll (List.replicate n .resume)) = exec i s := by
  rw [exec_eq_body hi, beginMicro]
  obtain hadm | ⟨r, hadm⟩ := whenAdmitted_cases i s
  · simp only [hadm]
    obtain hready | ⟨r, hready⟩ := requireReady_cases op s
    · simp only [hready, andThen_next]
      exact resumes_eq_body (f := { op := op, port := s.issue.port, upc := .u1, flag := false, val := defaultByte })
        hfg rfl rfl
    · simp only [hready, andThen_refused]
      exact ⟨0, by decide, trivial⟩
  · simp only [hadm, andThen_refused]
    exact ⟨0, by decide, trivial⟩

end

end Sys2Proof.Machine

namespace Sys2Proof.Proofs

open Sys2Proof Sys2Proof.Machine

/-- Settles O26: the start has the atomic operation's refusals, and each operation's micro-steps its answer. -/
theorem undisturbedMicroStepsAreAtomic : Obligations.UndisturbedMicroStepsAreAtomic := by
  unfold Obligations.UndisturbedMicroStepsAreAtomic
  intro i op p s hi hfg
  obtain ⟨n, hn, h⟩ := start_resumes_eq_exec (s := s.latch .fg p) hi hfg
  refine ⟨n, hn, ?_⟩
  rw [performAll, perform_start_encode, startInstr_of_micro hi, h, perform_commandOf]

end Sys2Proof.Proofs
end

section
/-! SUPPORT. Proofs that a preempted operation of the foreground is the atomic one at its last micro-step (rules R82,
R84): the machine with the operation under way is the serial machine with that operation's own buffer carried on. -/

namespace Sys2Proof.Machine

open Sys2Proof.Config

/-! ### The buffer of an operation under way -/

/-- The buffer `id` as far as the operation `f` in progress has carried it, from the one of the serial run. -/
def Progress.carried (f : Progress) (id : BufId) (q : RingBuf) : RingBuf :=
  if microBuf f.op = id then
    match f.op, f.upc with
    | .push b, .u3 => q.store b
    | .push b, .u4 => (q.store b).advanceHead
    | .pop, .u4 => q.advanceTail
    | .recv, .u4 => q.advanceTail
    | _, _ => q
  else q

section
variable {P : Params} {id : BufId} {f : Progress} {q r : RingBuf} {b v : Byte} {ok : Bool}

theorem Progress.carried_other (h : microBuf f.op ≠ id) (q : RingBuf) : f.carried id q = q := if_neg h

/-- Only P2, P3 and C3 carry the buffer on before the operation's last micro-step. -/
theorem Progress.carried_cases (f : Progress) (id : BufId) : (∀ q, f.carried id q = q) ∨
    ((f.op = .pop ∨ f.op = .recv) ∧ microBuf f.op = id ∧ f.upc = .u4 ∧ ∀ q, f.carried id q = q.advanceTail) ∨
    ∃ b, f.op = .push b ∧ id = .rb ∧ (f.upc = .u3 ∧ (∀ q, f.carried id q = q.store b) ∨
      f.upc = .u4 ∧ ∀ q, f.carried id q = (q.store b).advanceHead) := by
  by_cases hid : microBuf f.op = id
  · subst hid
    simp only [Progress.carried, if_pos]
    cases hop : f.op with
    | push b =>
      cases f.upc with
      | u1 | u2 => exact .inl fun _ => rfl
      | u3 => exact .inr (.inr ⟨b, rfl, rfl, .inl ⟨rfl, fun _ => rfl⟩⟩)
      | u4 => exact .inr (.inr ⟨b, rfl, rfl, .inr ⟨rfl, fun _ => rfl⟩⟩)
    | pop | recv =>
      cases f.upc with
      | u1 | u2 | u3 => exact .inl fun _ => rfl
      | u4 => exact .inr (.inl ⟨by simp, trivial, rfl, fun _ => rfl⟩)
    | peek | empty | full | occ => exact .inl fun _ => rfl
  · exact .inl (Progress.carried_other hid)

theorem Progress.carried_before (hu : f.upc = .u1 ∨ f.upc = .u2) (q : RingBuf) : f.carried id q = q := by
  obtain h | ⟨-, -, hu4, -⟩ | ⟨b, -, -, ⟨hu3, -⟩ | ⟨hu4, -⟩⟩ := f.carried_cases id
  · exact h q
  · simp [hu4] at hu
  · simp [hu3] at hu
  · simp [hu4] at hu

theorem Progress.carried_of_popping (hop : f.op = .pop ∨ f.op = .recv) (hu : f.upc = .u3) (q : RingBuf) :
    f.carried id q = q := by
  obtain h | ⟨-, -, hu4, -⟩ | ⟨b, hpush, -⟩ := f.carried_cases id
  · exact h q
  · exact nomatch hu.symm.trans hu4
  · obtain hop | hop := hop <;> exact nomatch hop.symm.trans hpush

theorem Progress.carried_of_stored (hop : f.op = .push b) (hu : f.upc = .u3) (q : RingBuf) :
    f.carried .rb q = q.store b := by
  simp only [Progress.carried, hop, hu, microBuf, if_pos]

theorem Progress.carried_of_advanced (hop : f.op = .push b) (hu : f.upc = .u4) (q : RingBuf) :
    f.carried .rb q = (q.store b).advanceHead := by
  simp only [Progress.carried, hop, hu, microBuf, if_pos]

theorem Progress.carried_of_released (hop : f.op = .pop ∨ f.op = .recv) (hu : f.upc = .u4) (q : RingBuf) :
    f.carried (microBuf f.op) q = q.advanceTail := by
  obtain hop | hop := hop <;> simp only [Progress.carried, hop, hu, if_pos]

theorem Progress.bound_carried : (f.carried id q).bound = q.bound := by
  obtain h | ⟨-, -, -, h⟩ | ⟨b, -, -, ⟨-, h⟩ | ⟨-, h⟩⟩ := f.carried_cases id <;> rw [h] <;> rfl

/-- What a pop reads and moves, the parts of a push leave apart. -/
theorem Progress.popped_carried {v : RbVariant} (hop : microBuf f.op = id → f.op.isPop = false) :
    (f.carried id q).tail = q.tail ∧ (f.carried id q).cap = q.cap ∧
      (f.carried id q).advanceTail.countDown v = f.carried id (q.advanceTail.countDown v) := by
  obtain h | ⟨hpop, hid, -, -⟩ | ⟨b, -, -, ⟨-, h⟩ | ⟨-, h⟩⟩ := f.carried_cases id
  · simp only [h, and_self]
  · exact nomatch (hop hid).symm.trans (MicroOp.isPop_iff.mpr hpop)
  · simp only [h]
    cases v <;> exact ⟨rfl, rfl, rfl⟩
  · simp only [h]
    cases v <;> exact ⟨rfl, rfl, rfl⟩

section
variable (hv : f.upc = .u4 → P.variant = .explicit)
include hv

/-- No test sees the parts of an operation before its last one. -/
theorem Progress.tests_carried : (f.carried id q).isEmpty P.variant = q.isEmpty P.variant ∧
    (f.carried id q).isFull P.variant = q.isFull P.variant ∧ (f.carried id q).occ P.variant = q.occ P.variant := by
  obtain h | ⟨-, -, hu, h⟩ | ⟨b, -, -, ⟨-, h⟩ | ⟨hu, h⟩⟩ := f.carried_cases id
  · rw [h]
    exact ⟨rfl, rfl, rfl⟩
  · rw [h, hv hu]
    exact ⟨rfl, rfl, rfl⟩
  · rw [h]
    exact ⟨RingBuf.isEmpty_store .., RingBuf.isFull_store .., RingBuf.occ_store ..⟩
  · rw [h, hv hu]
    exact ⟨rfl, rfl, rfl⟩

/-- A push of the other role answers the same before and after the parts of a pop. -/
theorem Progress.push_carried (hop : microBuf f.op = id → f.op.isPush = false)
    (h : (f.carried id q).push P id b = .next (r, ok)) :
    ∃ r', q.push P id b = .next (r', ok) ∧ r = f.carried id r' := by
  obtain hc | ⟨-, -, hu, hc⟩ | ⟨c, hpush, rfl, -⟩ := f.carried_cases id
  · rw [hc] at h
    exact ⟨r, h, (hc r).symm⟩
  · rw [hc] at h
    simp only [hc]
    rw [RingBuf.push_eq_next, hv hu] at h
    obtain ⟨hb, ⟨hf, rfl, rfl⟩ | ⟨hf, he, rfl, rfl⟩⟩ := h
    · exact ⟨q, RingBuf.push_eq_next.mpr ⟨hb, .inl ⟨hv hu ▸ hf, rfl, rfl⟩⟩, rfl⟩
    · exact ⟨_, RingBuf.push_eq_next.mpr ⟨hb, .inr ⟨hv hu ▸ hf, he, rfl, rfl⟩⟩, by rw [hv hu]; rfl⟩
  · have := hop (microBuf_of_push hpush)
    rw [hpush] at this
    cases this

/-- A pop of the other role answers the same before and after the parts of a push. -/
theorem Progress.pop_carried (hop : microBuf f.op = id → f.op.isPop = false)
    (hread : q.isEmpty P.variant = false →
      slotByte id (f.carried id q).slots q.tail.toNat = slotByte id q.slots q.tail.toNat)
    (h : (f.carried id q).pop P id = .next (r, v)) :
    ∃ r', q.pop P id = .next (r', v) ∧ r = f.carried id r' := by
  obtain ⟨htail, hcap, hcomm⟩ := Progress.popped_carried (q := q) (v := P.variant) hop
  obtain ⟨hempty, -, -⟩ := Progress.tests_carried (id := id) (q := q) hv
  obtain ⟨hb, h⟩ := RingBuf.pop_eq_next.mp h
  rw [Progress.bound_carried] at hb
  rw [hempty, htail, hcomm] at h
  obtain ⟨he, rfl, rfl⟩ | ⟨he, hslot, rfl, rfl⟩ := h
  · exact ⟨q, RingBuf.pop_eq_next.mpr ⟨hb, .inl ⟨he, rfl, rfl⟩⟩, rfl⟩
  · refine ⟨_, RingBuf.pop_eq_next.mpr ⟨hb, .inr ⟨he, ?_, hread he, rfl⟩⟩, rfl⟩
    rwa [slotExists, hcap] at hslot

/-- A peek of the same role sees nothing of the parts of a push. -/
theorem Progress.peek_carried (hop : microBuf f.op = id → f.op.isPop = false)
    (hread : q.isEmpty P.variant = false →
      slotByte id (f.carried id q).slots q.tail.toNat = slotByte id q.slots q.tail.toNat)
    (h : (f.carried id q).peek P id = .next v) : q.peek P id = .next v := by
  obtain ⟨htail, hcap, -⟩ := Progress.popped_carried (q := q) (v := P.variant) hop
  obtain ⟨hempty, -, -⟩ := Progress.tests_carried (id := id) (q := q) hv
  obtain ⟨hb, h⟩ := RingBuf.peek_eq_next.mp h
  rw [Progress.bound_carried] at hb
  rw [hempty, htail] at h
  obtain ⟨he, rfl⟩ | ⟨he, hslot, rfl⟩ := h
  · exact RingBuf.peek_eq_next.mpr ⟨hb, .inl ⟨he, rfl⟩⟩
  · refine RingBuf.peek_eq_next.mpr ⟨hb, .inr ⟨he, ?_, hread he⟩⟩
    rwa [slotExists, hcap] at hslot

end

end

/-! ### The machine with an operation under way -/

/-- The machine where the foreground has come as far as `f` with an operation and the responses are `R`, from the
machine of the serial run, in which that operation has not begun. -/
def State.behind (s : State) (f : Progress) (R : List Response) : State :=
  { s with
    rb := f.carried .rb s.rb, se := { s.se with rxq := f.carried .rxq s.se.rxq }, fg := some f, responses := R }

section
variable {s t : State} {f : Progress} {R : List Response} {i : Instr}

@[simp] theorem State.behind_responses : (s.behind f R).responses = R := rfl

theorem State.buf_behind (id : BufId) : (s.behind f R).buf id = f.carried id (s.buf id) := by
  cases id with
  | rb | rxq => rfl
  | txq => exact (Progress.carried_other (not_microBuf_txq f.op) _).symm

/-- P4 and C4 are the EXPLICIT variant's (rules R146, R150). -/
theorem State.Inv.explicit_of_u4 (hinv : s.Inv) (hs : s.fg = some f) (hu : f.upc = .u4) :
    s.params.variant = .explicit := by
  have hk := hinv.knows hs rfl
  unfold OpKnows at hk
  rw [hu] at hk
  cases hop : f.op with
  | push b => rw [hop] at hk; exact hk
  | pop | recv => rw [hop] at hk; exact hk
  | peek => rw [hop] at hk; simp at hk
  | empty | full | occ => rw [hop] at hk; cases hk

/-- A push that has stored its byte found room, and the room is still there. -/
theorem State.Inv.room_of_pushing {b : Byte} (hinv : s.Inv) (hs : s.fg = some f) (hop : f.op = .push b)
    (hu : f.upc = .u3 ∨ f.upc = .u4) : s.rb.isFull s.params.variant = false := by
  obtain hu | hu := hu
  · have hk := (opKnows_of_pushing hop).mp (hinv.knows hs (microBuf_of_push hop))
    rw [hu] at hk
    exact hk.1
  · have hv := hinv.explicit_of_u4 hs hu
    have hroom := (hinv.pushing_after hs hop hu).room hv
    rw [hv, countLag] at hroom
    rw [hinv.rbSound.isFull_eq_false_iff, hv, RingBuf.occ_explicit, RingBuf.usable_explicit]
    exact hroom.1

section
variable (hinv : s.Inv) (hidle : s.fg = none) (hbusy : (s.behind f R).Inv)
include hbusy

theorem explicit_of_behind (hu : f.upc = .u4) : s.params.variant = .explicit :=
  hbusy.explicit_of_u4 (s := s.behind f R) (f := f) rfl hu

include hinv hidle

/-- The parts of a push write behind the oldest byte. -/
theorem slotByte_tail_behind (hop : microBuf f.op = .rb → f.op.isPop = false)
    (he : s.rb.isEmpty s.params.variant = false) :
    slotByte .rb (f.carried .rb s.rb).slots s.rb.tail.toNat = slotByte .rb s.rb.slots s.rb.tail.toNat := by
  obtain h | ⟨hpop, hid, -⟩ | ⟨b, hpush, -, hc⟩ := f.carried_cases .rb
  · rw [h]
  · exact nomatch (hop hid).symm.trans (MicroOp.isPop_iff.mpr hpop)
  · have hf : s.rb.isFull s.params.variant = false := by
      rw [← (Progress.tests_carried (id := .rb) (explicit_of_behind hbusy)).2.1]
      exact hbusy.room_of_pushing (s := s.behind f R) rfl hpush (hc.imp And.left And.left)
    have hh := hinv.rb_holds (inProgressOn_of_idle hidle .rb)
    obtain ⟨x, xs, hx⟩ := List.exists_cons_of_ne_nil (hh.ne_nil he)
    rw [hx] at hh
    have hslots : (f.carried .rb s.rb).slots = (s.rb.store b).slots := by
      obtain ⟨-, hc⟩ | ⟨-, hc⟩ := hc
      · exact congrArg RingBuf.slots (hc s.rb)
      · exact (congrArg RingBuf.slots (hc s.rb)).trans rfl
    rw [hslots, slotByte_of_read hh.read_tail]
    exact slotByte_of_read (hh.store hf b).read_tail

end

/-! ### Steps of the other agents -/

/-- A command of another agent is admitted in the serial run as well. -/
theorem admitted_of_behind (hidle : s.fg = none) (ha : admissionRefusal i (s.behind f R) = none) :
    admissionRefusal i s = none := by
  obtain ⟨hmem, ho, -, -⟩ := admissionRefusal_eq_none.mp ha
  refine admissionRefusal_eq_none.mpr ⟨hmem, ho, fun _ => hidle, ?_⟩
  cases i
  case rbInit => exact inProgressOn_of_idle hidle .rb
  all_goals rfl

/-- The command `i` runs in the serial run's `s` as well, answers on its own port, and leaves the two runs together. -/
def RunsBeside (i : Instr) (f : Progress) (R : List Response) (s t : State) : Prop :=
  ∃ u A, exec i s = .next u ∧ u.responses = s.responses ++ A ∧ (∀ r ∈ A, r.port = s.issue.port) ∧
    t = u.behind f (R ++ A)

/-- A command that answers. -/
theorem runsBeside_of_respond {q : RingBuf} {bytes : List Byte}
    (h : exec i s = .next ((s.withRb q).respond bytes))
    (ht : t = ((s.withRb q).respond bytes).behind f (R ++ [{ port := s.issue.port, bytes := bytes }])) :
    RunsBeside i f R s t :=
  ⟨_, _, h, rfl, by simp, ht⟩

/-- A handler or a line event answers nothing. -/
theorem runsBeside_of_signal {u : State} (h : exec i s = .next u) (hu : u.responses = s.responses)
    (ht : t = u.behind f R) : RunsBeside i f R s t :=
  ⟨u, [], h, by rw [hu, List.append_nil], nofun, by rw [List.append_nil]; exact ht⟩

theorem clashes_of_behind (hbusy : (s.behind f R).Inv) (ha : admissionRefusal i (s.behind f R) = none) :
    (touchOf (microBuf f.op) i (s.behind f R)).clashes f.op = false :=
  touchOf_clashes_eq_false ha rfl ((State.inv_iff.mp hbusy).2.2 f rfl)

section
variable (hinv : s.Inv) (hidle : s.fg = none) (hbusy : (s.behind f R).Inv)
include hidle

theorem rbInit_behind {c : Idx} (h : exec (.rbInit c) (s.behind f R) = .next t) : RunsBeside (.rbInit c) f R s t := by
  obtain ⟨ha, hc, rfl⟩ := exec_rbInit_eq_next.mp h
  obtain ⟨-, -, -, hquiet⟩ := admissionRefusal_eq_none.mp ha
  have hother := Progress.carried_other (op_elsewhere (s := s.behind f R) hquiet f rfl)
  refine runsBeside_of_respond (exec_rbInit_eq_next.mpr ⟨admitted_of_behind hidle ha, hc, rfl⟩) ?_
  refine congrArg (fun q => ((s.behind f R).withRb q).respond [ccDone]) ?_
  exact (congrArg (RingBuf.init s.params.variant c) (hother s.rb)).trans (hother _).symm

theorem seTxisr_behind (h : exec .seTxisr (s.behind f R) = .next t) : RunsBeside .seTxisr f R s t := by
  obtain ⟨ha, h1, hie, hr, hcase⟩ := exec_seTxisr_eq_next.mp h
  have ha' := admitted_of_behind hidle ha
  obtain ⟨he, rfl⟩ | ⟨he, q, v, hq, rfl⟩ := hcase
  · exact runsBeside_of_signal (exec_seTxisr_eq_next.mpr ⟨ha', h1, hie, hr, .inl ⟨he, rfl⟩⟩) rfl rfl
  · exact runsBeside_of_signal (exec_seTxisr_eq_next.mpr ⟨ha', h1, hie, hr, .inr ⟨he, q, v, hq, rfl⟩⟩) rfl rfl

theorem lineRxbyte_behind {b : Byte} (h : exec (.lineRxbyte b) (s.behind f R) = .next t) :
    RunsBeside (.lineRxbyte b) f R s t := by
  obtain ⟨ha, hcase⟩ := exec_lineRxbyte_eq_next.mp h
  have ha' := admitted_of_behind hidle ha
  obtain ⟨h0, rfl⟩ | ⟨h1, rfl⟩ := hcase
  · exact runsBeside_of_signal (exec_lineRxbyte_eq_next.mpr ⟨ha', .inl ⟨h0, rfl⟩⟩) rfl rfl
  · exact runsBeside_of_signal (exec_lineRxbyte_eq_next.mpr ⟨ha', .inr ⟨h1, rfl⟩⟩) rfl rfl

include hbusy

theorem rbPush_behind {b : Byte} (h : exec (.rbPush b) (s.behind f R) = .next t) : RunsBeside (.rbPush b) f R s t := by
  obtain ⟨ha, q, ok, hq, rfl⟩ := exec_rbPush_eq_next.mp h
  have hclash := clashes_of_behind hbusy ha
  obtain ⟨r, hr, rfl⟩ := Progress.push_carried (explicit_of_behind hbusy)
    (fun hid => by rw [hid] at hclash; exact hclash) hq
  exact runsBeside_of_respond (exec_rbPush_eq_next.mpr ⟨admitted_of_behind hidle ha, r, ok, hr, rfl⟩) rfl

theorem seRxisr_behind (h : exec .seRxisr (s.behind f R) = .next t) : RunsBeside .seRxisr f R s t := by
  obtain ⟨ha, h1, hie, hr, q, ok, hq, rfl⟩ := exec_seRxisr_eq_next.mp h
  have hclash := clashes_of_behind hbusy ha
  obtain ⟨r, hr', rfl⟩ := Progress.push_carried (explicit_of_behind hbusy)
    (fun hid => by rw [hid] at hclash; exact hclash) hq
  exact runsBeside_of_signal (exec_seRxisr_eq_next.mpr ⟨admitted_of_behind hidle ha, h1, hie, hr, r, ok, hr', rfl⟩)
    rfl rfl

include hinv

theorem rbPop_behind (h : exec .rbPop (s.behind f R) = .next t) : RunsBeside .rbPop f R s t := by
  obtain ⟨ha, q, v, hq, rfl⟩ := exec_rbPop_eq_next.mp h
  have hclash := clashes_of_behind hbusy ha
  have hop (hid : microBuf f.op = .rb) : f.op.isPop = false := by
    rw [hid] at hclash
    exact MicroOp.isPop_eq_false hclash
  obtain ⟨r, hr, rfl⟩ := Progress.pop_carried (explicit_of_behind hbusy) hop
    (slotByte_tail_behind hinv hidle hbusy hop) hq
  exact runsBeside_of_respond (exec_rbPop_eq_next.mpr ⟨admitted_of_behind hidle ha, r, v, hr, rfl⟩) rfl

/-- The consumer that peeks is another agent, so no pop is under way. -/
theorem rbPeek_behind (h : exec .rbPeek (s.behind f R) = .next t) : RunsBeside .rbPeek f R s t := by
  obtain ⟨ha, v, hv, rfl⟩ := exec_rbPeek_eq_next.mp h
  have hadm := (State.inv_iff.mp hbusy).2.2 f rfl
  have hop (hid : microBuf f.op = .rb) : f.op.isPop = false := Bool.eq_false_of_not_eq_true fun hpop => by
    have hport := hadm.port
    obtain hop | hop := MicroOp.isPop_iff.mp hpop <;> rw [hop] at hport hid
    · exact port_ne_of_busy ha rfl hadm.owned ((port_of_mem_singleton ha rfl).trans hport.symm)
    · cases hid
  have hv' := Progress.peek_carried (explicit_of_behind hbusy) hop (slotByte_tail_behind hinv hidle hbusy hop) hv
  exact runsBeside_of_respond (q := s.rb)
    (exec_rbPeek_eq_next.mpr ⟨admitted_of_behind hidle ha, v, hv', rfl⟩) rfl

/-- What a command of another agent does, it does in the serial run as well. -/
theorem exec_behind (hagent : s.issue.agent ≠ .fg) (h : exec i (s.behind f R) = .next t) : RunsBeside i f R s t := by
  have ha' := admitted_of_behind hidle (admissionRefusal_of_exec h)
  have hforeground (hp : portsOf i = [.seForeground]) : False := by
    obtain ⟨hmem, ho, -, -⟩ := admissionRefusal_eq_none.mp ha'
    rw [hp] at hmem
    rw [List.mem_singleton.mp hmem] at ho
    exact hagent ho
  obtain ⟨hempty, hfull, hocc⟩ := Progress.tests_carried (id := .rb) (q := s.rb) (explicit_of_behind hbusy)
  have hbound : (f.carried .rb s.rb).bound = s.rb.bound := Progress.bound_carried
  cases i
  case seInit | seSend | seRecv | seEi | seDi | seRxempty | seStatus | seRxdrop | seCfgrd =>
    exact (hforeground rfl).elim
  case rbInit c => exact rbInit_behind hidle h
  case rbPush b => exact rbPush_behind hidle hbusy h
  case rbPop => exact rbPop_behind hinv hidle hbusy h
  case rbPeek => exact rbPeek_behind hinv hidle hbusy h
  case rbEmpty =>
    obtain ⟨-, hb, rfl⟩ := exec_rbEmpty_eq_next.mp h
    exact runsBeside_of_respond (q := s.rb) (exec_rbEmpty_eq_next.mpr ⟨ha', hbound ▸ hb, rfl⟩)
      (congrArg (fun x => (s.behind f R).respond [ccDone, boolByte x]) hempty)
  case rbFull =>
    obtain ⟨-, hb, rfl⟩ := exec_rbFull_eq_next.mp h
    exact runsBeside_of_respond (q := s.rb) (exec_rbFull_eq_next.mpr ⟨ha', hbound ▸ hb, rfl⟩)
      (congrArg (fun x => (s.behind f R).respond [ccDone, boolByte x]) hfull)
  case rbOcc =>
    obtain ⟨-, hb, rfl⟩ := exec_rbOcc_eq_next.mp h
    exact runsBeside_of_respond (q := s.rb) (exec_rbOcc_eq_next.mpr ⟨ha', hbound ▸ hb, rfl⟩)
      (congrArg (fun x => (s.behind f R).respond (ccDone :: idxBytes (BitVec.ofNat 16 x))) hocc)
  case seTxisr => exact seTxisr_behind hidle h
  case seRxisr => exact seRxisr_behind hidle hbusy h
  case lineTxdone =>
    obtain ⟨-, hr, rfl⟩ := exec_lineTxdone_eq_next.mp h
    exact runsBeside_of_signal (exec_lineTxdone_eq_next.mpr ⟨ha', hr, rfl⟩) rfl rfl
  case lineRxbyte b => exact lineRxbyte_behind hidle h

end

end

end Sys2Proof.Machine
end

section
/-! SUPPORT. Proofs about the serial run beside a preempted operation: the background, the micro-steps, and the last one
(rules R82, R83, R84). -/

namespace Sys2Proof.Machine

open Sys2Proof.Config

/-- `s` is the serial run's `u` with the operation under way as far as `f`, and the responses `R` given. -/
structure State.Under (f : Progress) (R : List Response) (s u : State) : Prop where
  busy   : s.Inv
  serial : u.Inv
  idle   : u.fg = none
  eq     : ∃ x, s = (u.behind f R).fetched x u.inputs
  read   : f.op.isPop = true → f.upc = .u4 → PopKnows u.params (u.buf (microBuf f.op)) f.val .u3

/-- What commands of other agents do in the serial run while `f` is under way: they answer on their own ports, and leave
the oldest byte of a consumer's buffer. -/
structure State.PassedBy (f : Progress) (u u' : State) (A : List Response) : Prop where
  params    : u'.params = u.params
  responses : u'.responses = u.responses ++ A
  ports     : ∀ r ∈ A, portOwner u.params r.port ≠ .fg
  oldest    : f.op.isConsumer = true → ∀ v, PopKnows u.params (u.buf (microBuf f.op)) v .u3 →
    PopKnows u.params (u'.buf (microBuf f.op)) v .u3

section
variable {f : Progress} {R A B : List Response} {s s' u u' u'' : State} {i : Instr} {a : Agent} {p : Port}

theorem State.PassedBy.refl (f : Progress) (u : State) : u.PassedBy f u [] where
  params := rfl
  responses := (List.append_nil _).symm
  ports := nofun
  oldest _ _ h := h

theorem State.PassedBy.trans (h : u.PassedBy f u' A) (h' : u'.PassedBy f u'' B) : u.PassedBy f u'' (A ++ B) where
  params := h'.params.trans h.params
  responses := by rw [h'.responses, h.responses, List.append_assoc]
  ports r hr := by
    obtain hr | hr := List.mem_append.mp hr
    · exact h.ports r hr
    · rw [← h.params]
      exact h'.ports r hr
  oldest hop v hk := by
    have hk' := h'.oldest hop v
    rw [h.params] at hk'
    exact hk' (h.oldest hop v hk)

/-! ### The background -/

theorem MicroOp.isConsumer_of_isPop {op : MicroOp} (h : op.isPop = true) : op.isConsumer = true := by
  obtain rfl | rfl := MicroOp.isPop_iff.mp h <;> rfl

/-- The oldest byte stays while the other role works (rule R83). -/
theorem popKnows_of_touched {P : Params} {id : BufId} {q q' : RingBuf} {xs : List Byte} {w : Touch} {op : MicroOp}
    {v : Byte} (h : q.Touched P id w q') (hh : q.Holds P id 0 0 xs) (hw : w.clashes op = false)
    (hop : op.isConsumer = true) (hk : PopKnows P q v .u3) : PopKnows P q' v .u3 := by
  cases h with
  | leave | full | empty => exact hk
  | init | unbind | rebuild => cases hw
  | push b hf => exact hk.push hh (fun _ => rfl) hf b
  | pop => exact nomatch hop.symm.trans hw

theorem touchOf_behind (id : BufId) (i : Instr) (s : State) (f : Progress) (R : List Response) :
    touchOf id i (s.behind f R) = touchOf id i s := by cases id <;> rfl

/-- A command of another agent runs in the serial run as well, and keeps the two runs together. -/
theorem State.Under.perform (h : s.Under f R u) (ha : a ≠ .fg)
    (hx : Machine.perform (commandOf a p i) s = .next s') : ∃ u' A, Machine.perform (commandOf a p i) u = .next u' ∧
      u.PassedBy f u' A ∧ s'.Under f (R ++ A) u' := by
  obtain ⟨hbusy, hserial, hidle, ⟨x, rfl⟩, hread⟩ := h
  have hbusy' : ((u.latch a p).behind f R).Inv := hbusy.congr rfl rfl rfl rfl
  have hserial' : (u.latch a p).Inv := hserial.congr rfl rfl rfl rfl
  have hinv := inv_of_perform hbusy hx
  rw [perform_commandOf] at hx
  obtain ⟨u', A, hu, hresp, hports, rfl⟩ := exec_behind hserial' hidle hbusy' ha hx
  obtain ⟨hp, hfg, -⟩ := exec_keeps hu
  have hpass : u.PassedBy f u' A := by
    refine ⟨hp, hresp, fun r hr => ?_, fun hop v hk => ?_⟩
    · obtain ⟨-, ho, -, -⟩ := admissionRefusal_eq_none.mp (admissionRefusal_of_exec hu)
      rw [hports r hr]
      exact ho ▸ ha
    · have hclash := touchOf_clashes_eq_false (s := (u.latch a p).behind f R) 
        (admissionRefusal_of_exec hx) rfl ((State.inv_iff.mp hbusy').2.2 f rfl)
      rw [touchOf_behind] at hclash
      have ht := exec_touches hu (microBuf f.op)
      have hh := hserial'.buf_holds (inProgressOn_of_idle hidle (microBuf f.op))
      have hbuf : (u.latch a p).buf (microBuf f.op) = u.buf (microBuf f.op) := by cases microBuf f.op <;> rfl
      rw [hbuf] at ht hh
      exact popKnows_of_touched ht hh hclash hop hk
  refine ⟨u', A, (perform_commandOf u a p i).trans hu, hpass, hinv, inv_of_exec hserial' hu, hfg.trans hidle,
    ⟨u'.issue, rfl⟩, fun hop hu4 => ?_⟩
  rw [hp]
  exact hpass.oldest (MicroOp.isConsumer_of_isPop hop) _ (hread hop hu4)

theorem State.Under.background {g : List (Bool × Port × Instr)} (h : s.Under f R u)
    (hx : performAll (background g) s = .next s') : ∃ u' A, performAll (background g) u = .next u' ∧
      u.PassedBy f u' A ∧ s'.Under f (R ++ A) u' := by
  induction g generalizing s R u with
  | nil =>
    obtain rfl := Host.Outcome.next.inj hx
    exact ⟨u, [], rfl, State.PassedBy.refl f u, by rw [List.append_nil]; exact h⟩
  | cons c g ih =>
    obtain ⟨s₁, hc, hg⟩ := performAll_cons_eq_next.mp hx
    obtain ⟨u₁, A, hu, hpass, h₁⟩ := h.perform (by cases c.1 <;> nofun) hc
    obtain ⟨u₂, B, hu₂, hpass₂, h₂⟩ := ih h₁ hg
    exact ⟨u₂, A ++ B, performAll_cons_eq_next.mpr ⟨u₁, hu, hu₂⟩, hpass.trans hpass₂,
      by rw [← List.append_assoc]; exact h₂⟩

/-! ### The micro-steps before the last -/

theorem took_behind {x : Issue} {xs : List Input} {f' : Progress} (h : Took f ((u.behind f R).fetched x xs) s')
    (hf' : s'.fg = some f') : s' = (u.behind f' R).fetched x xs := by
  obtain ⟨op, port, upc, flag, val⟩ := f
  cases h with
  | pushTested _ hop hu | pushStored _ hop hu | pushAdvanced _ hop hu | peekTested hop hu =>
    obtain rfl : op = _ := hop
    obtain rfl : upc = _ := hu
    cases hf'
    rfl
  | popTested hop hu | popRead hop hu | popAdvanced hop hu =>
    obtain rfl : upc = _ := hu
    cases hf'
    obtain hop | hop := hop
    · obtain rfl : op = _ := hop
      rfl
    · obtain rfl : op = _ := hop
      rfl
  | pushHeld | pushPublished | pushCounted | popEmpty | popReleased | popCounted | peekEmpty | peekRead |
    emptyAnswered | fullAnswered | occAnswered => cases hf'

/-- C4 follows C3. -/
theorem Took.before_release {f' : Progress} (h : Took f s s') (hf' : s'.fg = some f') (hu : f'.upc = .u4)
    (hop : f'.op.isPop = true) : f.upc = .u3 ∧ f'.val = f.val := by
  cases h with
  | popAdvanced _ hu3 =>
    cases hf'
    exact ⟨hu3, rfl⟩
  | pushAdvanced b hpush =>
    cases hf'
    exact nomatch (congrArg MicroOp.isPop hpush).symm.trans hop
  | pushTested | pushStored | popTested | popRead | peekTested =>
    cases hf'
    cases hu
  | pushHeld | pushPublished | pushCounted | popEmpty | popReleased | popCounted | peekEmpty | peekRead |
    emptyAnswered | fullAnswered | occAnswered => cases hf'

/-- A micro-step that is not the last moves nothing in the serial run. -/
theorem State.Under.took {f' : Progress} (h : s.Under f R u) (hm : microStep s = .next s') (hf' : s'.fg = some f') :
    s'.Under f' R u ∧ f'.op = f.op ∧ f'.port = f.port := by
  obtain ⟨hbusy, hserial, hidle, ⟨x, rfl⟩, hread⟩ := h
  have ht := took_of_microStep rfl hm
  obtain ⟨hop, hport⟩ := ht.fg_keeps f' hf'
  refine ⟨⟨inv_of_took hbusy rfl ht, hserial, hidle, ⟨x, took_behind ht hf'⟩, fun hpop hu4 => ?_⟩, hop, hport⟩
  obtain ⟨hu3, hval⟩ := ht.before_release hf' hu4 hpop
  have hpop' := MicroOp.isPop_iff.mp (hop ▸ hpop)
  have hk := (opKnows_of_popping hpop').mp (hbusy.knows (f := f) rfl rfl)
  rw [State.fetched_buf, State.buf_behind, Progress.carried_of_popping hpop' hu3, hu3] at hk
  rw [hop, hval]
  exact hk

/-! ### The last micro-step -/

/-- The two runs agree but for their latch, their inputs and their responses. -/
structure State.SameUnits (s u : State) : Prop where
  params : s.params = u.params
  rb     : s.rb = u.rb
  se     : s.se = u.se
  fg     : s.fg = u.fg

section
variable {x : Issue} {xs : List Input} {bytes bytes' : List Byte}

/-- An operation that has only asked has carried nothing. -/
theorem sameUnits_of_asking (hidle : u.fg = none) (hu : f.upc = .u1 ∨ f.upc = .u2) :
    (((u.behind f R).fetched x xs).finish f bytes).SameUnits ((u.latch .fg p).respond bytes') where
  params := rfl
  rb := Progress.carried_before hu u.rb
  se := congrArg (fun q => ({ u.se with rxq := q } : SerialEngine)) (Progress.carried_before hu u.se.rxq)
  fg := hidle.symm

theorem sameUnits_of_pushing {b : Byte} (hidle : u.fg = none) (hop : f.op = .push b) (q : RingBuf) :
    ((((u.behind f R).fetched x xs).withRb q).finish f bytes).SameUnits
      (((u.latch .fg p).withRb q).respond bytes') where
  params := rfl
  rb := rfl
  se := congrArg (fun q => ({ u.se with rxq := q } : SerialEngine))
    (Progress.carried_other (by rw [hop]; nofun) u.se.rxq)
  fg := hidle.symm

theorem sameUnits_of_popping (hidle : u.fg = none) (hop : f.op = .pop ∨ f.op = .recv) (q : RingBuf) :
    ((((u.behind f R).fetched x xs).withBuf (microBuf f.op) q).finish f bytes).SameUnits
      (((u.latch .fg p).withBuf (microBuf f.op) q).respond bytes') := by
  obtain ⟨op, port, upc, flag, val⟩ := f
  obtain hop | hop := hop <;> obtain rfl : op = _ := hop <;> exact ⟨rfl, rfl, rfl, hidle.symm⟩

end

/-! What the atomic operations answer. -/

theorem pushBody_of_full {b : Byte} (hf : s.rb.isFull s.params.variant = true) :
    pushBody b s = .next (s.respond [ccDone, boolByte false]) := if_pos hf

theorem pushBody_of_room {b : Byte} (hq : s.rb.Sound s.params .rb) (hf : s.rb.isFull s.params.variant = false) :
    pushBody b s = .next ((s.withRb ((s.rb.store b).advanceHead.countUp s.params.variant)).respond
      [ccDone, boolByte true]) := by
  rw [pushBody, hf, if_neg Bool.false_ne_true, memWrite_eq_next.mpr ⟨hq.head_exists hf, rfl⟩, andThen_next]
  rfl

theorem popBody_of_empty {id : BufId} (he : (s.buf id).isEmpty s.params.variant = true) :
    popBody id s = .next (s.respond [ccDone, defaultByte]) := if_pos he

theorem popBody_of_known {id : BufId} {v : Byte} (hq : (s.buf id).Sound s.params id)
    (hk : PopKnows s.params (s.buf id) v .u3) : popBody id s =
      .next ((s.withBuf id ((s.buf id).advanceTail.countDown s.params.variant)).respond [ccDone, v]) := by
  obtain ⟨he, hv⟩ := hk
  rw [popBody, he, if_neg Bool.false_ne_true, memRead_eq_next.mpr ⟨hq.tail_exists he, slotByte_of_read hv⟩,
    andThen_next]

theorem peekBody_of_empty (he : s.rb.isEmpty s.params.variant = true) :
    peekBody s = .next (s.respond [ccDone, defaultByte]) := if_pos he

theorem peekBody_of_nonempty (hq : s.rb.Sound s.params .rb) (he : s.rb.isEmpty s.params.variant = false) :
    peekBody s = .next (s.respond [ccDone, slotByte .rb s.rb.slots s.rb.tail.toNat]) := by
  rw [peekBody, he, if_neg Bool.false_ne_true, memRead_eq_next.mpr ⟨hq.tail_exists he, rfl⟩, andThen_next]

theorem body_of_popping {op : MicroOp} (h : op = .pop ∨ op = .recv) (s : State) :
    op.body s = popBody (microBuf op) s := by obtain rfl | rfl := h <;> rfl

theorem State.buf_latch (s : State) (a : Agent) (p : Port) (id : BufId) : (s.latch a p).buf id = s.buf id := by
  cases id <;> rfl

@[simp] theorem State.withBuf_responses (s : State) (id : BufId) (q : RingBuf) :
    (s.withBuf id q).responses = s.responses := by cases id <;> rfl

/-- K1 of RB.PEEK went on only where it found a byte. -/
theorem State.Under.peek_nonempty (h : s.Under f R u) (hop : f.op = .peek) (hu : f.upc = .u2) :
    u.rb.isEmpty u.params.variant = false := by
  obtain ⟨hbusy, -, -, ⟨x, rfl⟩, -⟩ := h
  have hk := hbusy.knows (f := f) rfl (microBuf_of_peek hop)
  simp only [OpKnows, hop, hu, reduceCtorEq, false_or, true_and, State.fetched_buf, State.buf_behind,
    Progress.carried_before (.inr hu)] at hk
  exact hk

/-- A push that has stored its byte finds room in the serial run. -/
theorem State.Under.pushBody_eq {b : Byte} (h : s.Under f R u) (hop : f.op = .push b)
    (hu : f.upc = .u3 ∨ f.upc = .u4) : pushBody b (u.latch .fg f.port) = .next (((u.latch .fg f.port).withRb
      ((u.rb.store b).advanceHead.countUp u.params.variant)).respond [ccDone, boolByte true]) := by
  obtain ⟨hbusy, hserial, -, ⟨x, rfl⟩, -⟩ := h
  have hbusy' : (u.behind f R).Inv := hbusy.congr rfl rfl rfl rfl
  refine pushBody_of_room hserial.rbSound ?_
  rw [State.latch_rb, State.latch_params, ← (Progress.tests_carried (id := .rb) (explicit_of_behind hbusy')).2.1]
  exact hbusy'.room_of_pushing (s := u.behind f R) rfl hop hu

/-- A pop that knows its byte finds it in the serial run. -/
theorem State.Under.popBody_eq (h : s.Under f R u) (hop : f.op = .pop ∨ f.op = .recv)
    (hk : PopKnows u.params (u.buf (microBuf f.op)) f.val .u3) : f.op.body (u.latch .fg f.port) =
      .next (((u.latch .fg f.port).withBuf (microBuf f.op) ((u.buf (microBuf f.op)).advanceTail.countDown
        u.params.variant)).respond [ccDone, f.val]) := by
  rw [body_of_popping hop, popBody_of_known (v := f.val), State.buf_latch, State.latch_params]
  · rw [State.buf_latch]
    exact ((State.inv_iff.mp h.serial).1 _).sound
  · rwa [State.buf_latch]

/-- The last micro-step leaves what the atomic operation leaves in the serial run. -/
theorem State.Under.last (h : s.Under f R u) (hm : microStep s = .next s') (hf' : s'.fg = none) :
    ∃ u' bytes, f.op.body (u.latch .fg f.port) = .next u' ∧ s'.SameUnits u' ∧
      s'.responses = R ++ [{ port := f.port, bytes := bytes }] ∧
      u'.responses = u.responses ++ [{ port := f.port, bytes := bytes }] := by
  have hunder := h
  obtain ⟨hbusy, hserial, hidle, ⟨x, rfl⟩, hread⟩ := h
  have ht := took_of_microStep rfl hm
  have hbusy' : (u.behind f R).Inv := hbusy.congr rfl rfl rfl rfl
  cases ht with
  | pushHeld b hop hu hf =>
    rw [State.fetched_rb, State.behind, Progress.carried_before (.inl hu)] at hf
    exact ⟨_, _, by rw [hop]; exact pushBody_of_full hf, sameUnits_of_asking hidle (.inl hu), rfl, rfl⟩
  | pushPublished b hop hu hv =>
    refine ⟨_, _, by rw [hop]; exact hunder.pushBody_eq hop (.inl hu), ?_, rfl, rfl⟩
    have hc : ((u.behind f R).fetched x u.inputs).rb = u.rb.store b := Progress.carried_of_stored hop hu u.rb
    rw [hc, show u.params.variant = .derived from hv]
    exact sameUnits_of_pushing hidle hop _
  | pushCounted b hop hu hv =>
    refine ⟨_, _, by rw [hop]; exact hunder.pushBody_eq hop (.inr hu), ?_, rfl, rfl⟩
    have hc : ((u.behind f R).fetched x u.inputs).rb = (u.rb.store b).advanceHead :=
      Progress.carried_of_advanced hop hu u.rb
    rw [hc, show u.params.variant = .explicit from hv]
    exact sameUnits_of_pushing hidle hop _
  | popEmpty hop hu he =>
    rw [State.fetched_buf, State.buf_behind, Progress.carried_before (.inl hu)] at he
    refine ⟨_, _, (body_of_popping hop _).trans (popBody_of_empty ?_), sameUnits_of_asking hidle (.inl hu), rfl, rfl⟩
    rw [State.buf_latch]
    exact he
  | popReleased hop hu hv =>
    have hk := (opKnows_of_popping hop).mp (hbusy'.knows (s := u.behind f R) (f := f) rfl rfl)
    rw [State.buf_behind, Progress.carried_of_popping hop hu, hu] at hk
    refine ⟨_, [ccDone, f.val], hunder.popBody_eq hop hk, ?_, by simp, by simp⟩
    rw [State.fetched_buf, State.buf_behind, Progress.carried_of_popping hop hu,
      show u.params.variant = .derived from hv]
    exact sameUnits_of_popping hidle hop _
  | popCounted hop hu hv =>
    refine ⟨_, [ccDone, f.val], hunder.popBody_eq hop (hread (MicroOp.isPop_iff.mpr hop) hu), ?_, by simp, by simp⟩
    rw [State.fetched_buf, State.buf_behind, Progress.carried_of_released hop hu,
      show u.params.variant = .explicit from hv]
    exact sameUnits_of_popping hidle hop _
  | peekEmpty hop hu he =>
    rw [State.fetched_rb, State.behind, Progress.carried_before (.inl hu)] at he
    exact ⟨_, _, by rw [hop]; exact peekBody_of_empty he, sameUnits_of_asking hidle (.inl hu), rfl, rfl⟩
  | peekRead hop hu =>
    have he : u.rb.isEmpty u.params.variant = false := hunder.peek_nonempty hop hu
    refine ⟨_, _, by rw [hop]; exact peekBody_of_nonempty hserial.rbSound he,
      sameUnits_of_asking hidle (.inr hu), ?_, rfl⟩
    rw [State.finish_responses, State.fetched_rb, State.behind, Progress.carried_before (.inr hu)]
    rfl
  | emptyAnswered hop hu | fullAnswered hop hu | occAnswered hop hu =>
    refine ⟨_, _, by rw [hop]; rfl, sameUnits_of_asking hidle (.inl hu), ?_, rfl⟩
    rw [State.fetched_rb, State.behind, Progress.carried_before (.inl hu)]
    rfl
  | pushTested | pushStored | pushAdvanced | popTested | popRead | popAdvanced | peekTested => cases hf'

end

end Sys2Proof.Machine
end

section
/-! SUPPORT. Proof that a preempted operation of the foreground is the serial one (rule R84), from the lemmas on one
part of its run. -/

namespace Sys2Proof.Machine

open Sys2Proof.Config

section
variable {f : Progress} {R : List Response} {s t u : State} {i : Instr} {op : MicroOp} {p : Port}

/-! ### The atomic operation in the serial run -/

/-- The operation under way is admitted and ready in the serial run. -/
theorem State.Under.perform_foreground (h : s.Under f R u) (hi : microOpOf i = some f.op) (hp : f.port ∈ portsOf i) :
    Machine.perform (commandOf .fg f.port i) u = f.op.body (u.latch .fg f.port) := by
  obtain ⟨hbusy, hserial, hidle, ⟨x, rfl⟩, -⟩ := h
  obtain ⟨howned, -, hbound, hinited⟩ := (State.inv_iff.mp hbusy).2.2 f rfl
  have hpres : (u.latch .fg f.port).Presented f.port := u.presented_latch (Eq.symm howned) fun _ => hidle
  rw [perform_commandOf, exec_eq_body hi, hpres.whenAdmitted_eq hp (initDuringOperation_of_micro hi _)]
  by_cases hop : f.op = .recv
  · have h1 : u.se.inited = true := hinited hop
    obtain ⟨-, -, hq, -⟩ := hserial.engine.after h1
    rw [hop]
    exact (requireInited_of_inited h1 _).trans (requireBound_of_bound hq _)
  · have hb : u.rb.bound = true := Progress.bound_carried.symm.trans (hbound hop)
    rw [requireReady_of_rb hop]
    exact requireBound_of_bound hb _

/-- The start moves nothing in the serial run. -/
theorem under_of_start (hinv : s.Inv) (hfg : s.fg = none) (hi : microOpOf i = some op)
    (h : Machine.perform (.start p (encode i)) s = .next t) :
    t.Under { op := op, port := p, upc := .u1, flag := false, val := defaultByte } s.responses s ∧
      p ∈ portsOf i := by
  have htinv := inv_of_perform hinv h
  rw [perform_start_encode, startInstr_of_micro hi] at h
  obtain ⟨ha, -, rfl⟩ := beginMicro_eq_next.mp h
  refine ⟨⟨htinv, hinv, hfg, ⟨{ agent := .fg, port := p }, ?_⟩, nofun⟩, (admissionRefusal_eq_none.mp ha).1⟩
  rw [State.behind, Progress.carried_before (.inl rfl), Progress.carried_before (.inl rfl)]
  rfl

/-! ### The gaps -/

theorem background_append (g h : List (Bool × Port × Instr)) : background (g ++ h) = background g ++ background h :=
  List.map_append

theorem background_keeps_fg {g : List (Bool × Port × Instr)} (h : performAll (background g) s = .next t) :
    t.fg = s.fg := by
  induction g generalizing s with
  | nil =>
    obtain rfl := Host.Outcome.next.inj h
    rfl
  | cons c g ih =>
    obtain ⟨s₁, hc, hg⟩ := performAll_cons_eq_next.mp h
    rw [perform_commandOf] at hc
    exact (ih hg).trans (exec_keeps hc).2.1

theorem performAll_singleton (x : Input) (s : State) : performAll [x] s = perform x s := by
  show andThen (perform x s) (performAll []) = perform x s
  cases perform x s <;> rfl

theorem performAll_preempted {g : List (Bool × Port × Instr)} {gs : List (List (Bool × Port × Instr))} :
    performAll (preempted (g :: gs)) s = .next t ↔ ∃ s₁ s₂, performAll (background g) s = .next s₁ ∧
      microStep s₁ = .next s₂ ∧ performAll (preempted gs) s₂ = .next t := by
  rw [show preempted (g :: gs) = background g ++ .resume :: preempted gs from List.append_assoc _ [_] _,
    performAll_append_eq_next]
  simp only [performAll_cons_eq_next, ← exists_and_left]
  exact Iff.rfl

/-- With the foreground idle there is no micro-step to take. -/
theorem not_preempted_of_idle {g : List (Bool × Port × Instr)} {gs : List (List (Bool × Port × Instr))}
    (hs : s.fg = none) : performAll (preempted (g :: gs)) s ≠ .next t := fun h => by
  obtain ⟨s₁, s₂, hg, hm, -⟩ := performAll_preempted.mp h
  have hs₁ := (background_keeps_fg hg).trans hs
  simp [microStep, hs₁] at hm

/-! ### The preempted run -/

/-- A preempted operation ends as the serial run with the operation behind all the gaps. -/
theorem serial_of_preempted {gaps : List (List (Bool × Port × Instr))} (h : s.Under f u.responses u)
    (hi : microOpOf i = some f.op) (hp : f.port ∈ portsOf i) (hx : performAll (preempted gaps) s = .next t)
    (ht : t.fg = none) : ∃ u', performAll (background gaps.flatten ++ [commandOf .fg f.port i]) u = .next u' ∧
      t.SameUnits u' ∧ t.responses = u'.responses := by
  induction gaps generalizing f s u with
  | nil =>
    obtain rfl := Host.Outcome.next.inj hx
    obtain ⟨-, -, -, ⟨x, rfl⟩, -⟩ := h
    cases ht
  | cons g gs ih =>
    obtain ⟨s₁, s₂, hg, hm, hgs⟩ := performAll_preempted.mp hx
    obtain ⟨u₁, A, hu₁, hpass, h₁⟩ := h.background hg
    rw [← hpass.responses] at h₁
    cases hs₂ : s₂.fg with
    | some f' =>
      obtain ⟨h₂, hop, hport⟩ := h₁.took hm hs₂
      obtain ⟨u', hu', hsame⟩ := ih h₂ (hop ▸ hi) (hport ▸ hp) hgs
      refine ⟨u', ?_, hsame⟩
      rw [List.flatten_cons, background_append, List.append_assoc, ← hport]
      exact performAll_append_eq_next.mpr ⟨u₁, hu₁, hu'⟩
    | none =>
      cases gs with
      | cons g' gs => exact absurd hgs (not_preempted_of_idle hs₂)
      | nil =>
        obtain rfl := Host.Outcome.next.inj hgs
        obtain ⟨u', bytes, hbody, hsame, hresp, hresp'⟩ := h₁.last hm hs₂
        refine ⟨u', ?_, hsame, hresp.trans hresp'.symm⟩
        rw [← h₁.perform_foreground hi hp, ← performAll_singleton] at hbody
        rw [List.flatten_cons, List.flatten_nil, List.append_nil]
        exact performAll_append_eq_next.mpr ⟨u₁, hu₁, hbody⟩

/-! ### RB.PEEK at its first micro-step -/

/-- Responses of other ports do not mix with those of one port. -/
theorem filter_port_comm {A : List Response} {r : Response} (R : List Response) (hA : ∀ a ∈ A, a.port ≠ r.port)
    (q : Port) : ((R ++ A ++ [r]).filter fun x => x.port = q) = (R ++ [r] ++ A).filter fun x => x.port = q := by
  simp only [List.filter_append]
  by_cases hq : r.port = q
  · have hnil : (A.filter fun x => x.port = q) = [] :=
      List.filter_eq_nil_iff.mpr fun a ha => by simpa using fun h => hA a ha (h.trans hq.symm)
    rw [hnil, List.append_nil, List.append_nil]
  · have hnil : (([r] : List Response).filter fun x => x.port = q) = [] := by simp [hq]
    rw [hnil, List.append_nil, List.append_nil]

/-- K1 that goes on has found a byte. -/
theorem microStep_of_peek_first {f' : Progress} (hs : s.fg = some f) (hop : f.op = .peek) (hu : f.upc = .u1)
    (h : microStep s = .next t) (ht : t.fg = some f') : f' = { f with flag := false, upc := .u2 } := by
  rw [microStep_of_peek hs hop] at h
  cases he : s.rb.isEmpty s.params.variant with
  | true =>
    obtain rfl := Host.Outcome.next.inj ((microPeek_test_of_empty hu he).symm.trans h)
    cases ht
  | false =>
    obtain rfl := Host.Outcome.next.inj ((microPeek_test_of_nonempty hu he).symm.trans h)
    exact (Option.some.inj ht).symm

/-- K2 reads the byte at `tail` and ends the operation. -/
theorem microStep_of_peek_last (hs : s.fg = some f) (hop : f.op = .peek) (hu : f.upc = .u2)
    (h : microStep s = .next t) : t = s.finish f [ccDone, slotByte .rb s.rb.slots s.rb.tail.toNat] := by
  rw [microStep_of_peek hs hop] at h
  simp only [microPeek, hu, andThen_eq_next, memRead_eq_next] at h
  obtain ⟨v, ⟨-, rfl⟩, h⟩ := h
  exact (Host.Outcome.next.inj h).symm

/-- The peek happens in the serial run, and the preempted run goes on beside the state it leaves. -/
theorem State.Under.after_peek (h : s.Under f R u) (hop : f.op = .peek) (hu : f.upc = .u2) :
    ∃ w x, peekBody (u.latch .fg f.port) = .next w ∧ s.Under f R w ∧ w.params = u.params ∧
      w.responses = u.responses ++ [{ port := f.port, bytes := [ccDone, x] }] ∧ PopKnows w.params w.rb x .u3 := by
  have he := h.peek_nonempty hop hu
  obtain ⟨hbusy, hserial, hidle, ⟨y, rfl⟩, hread⟩ := h
  have hh := hserial.rb_holds (inProgressOn_of_idle hidle .rb)
  obtain ⟨x, xs, hx⟩ := List.exists_cons_of_ne_nil (hh.ne_nil he)
  rw [hx] at hh
  refine ⟨_, x, peekBody_of_nonempty hserial.rbSound he, ?_, rfl, ?_, he, hh.read_tail⟩
  · exact ⟨hbusy, hserial.congr rfl rfl rfl rfl, hidle, ⟨y, rfl⟩, by rw [hop]; nofun⟩
  · rw [State.respond_responses, State.latch_rb, slotByte_of_read hh.read_tail]
    rfl

theorem State.Under.fg_eq (h : s.Under f R u) : s.fg = some f := by
  obtain ⟨-, -, -, ⟨x, rfl⟩, -⟩ := h
  rfl

/-- What K2 reads after the last gap is the byte of the peek before it. -/
theorem serial_of_preempted_peek {g : List (Bool × Port × Instr)} (h : s.Under f u.responses u) (hop : f.op = .peek)
    (hu : f.upc = .u2) (hx : performAll (preempted [g]) s = .next t) : ∃ w w',
      peekBody (u.latch .fg f.port) = .next w ∧ performAll (background g) w = .next w' ∧ SameButSchedule t w' := by
  obtain ⟨w, x, hw, hbeside, -, hresp, hk⟩ := h.after_peek hop hu
  obtain ⟨s₁, s₂, hg, hm, hend⟩ := performAll_preempted.mp hx
  obtain rfl := Host.Outcome.next.inj hend
  obtain ⟨w', A, hw', hpass, h₁⟩ := hbeside.background hg
  have hs₂ := microStep_of_peek_last h₁.fg_eq hop hu hm
  obtain ⟨hbusy, -, hidle, ⟨y, rfl⟩, -⟩ := h₁
  have hrb : f.carried .rb w'.rb = w'.rb := Progress.carried_before (.inr hu) _
  have howned : portOwner w.params f.port = .fg :=
    (congrArg (portOwner · f.port) hpass.params).symm.trans ((State.inv_iff.mp hbusy).2.2 f rfl).owned
  have hread : slotByte .rb w'.rb.slots w'.rb.tail.toNat = x := by
    have hk' := hpass.oldest (by rw [hop]; rfl) x
    rw [microBuf_of_peek hop] at hk'
    exact slotByte_of_read (hk' hk).2
  refine ⟨w, w', hw, hw', ?_⟩
  subst hs₂
  obtain ⟨hparams, hrb', hse, hfg⟩ := sameUnits_of_asking (R := u.responses ++ A) (x := y) (xs := w'.inputs)
    (p := f.port) (bytes := []) (bytes' := []) hidle (.inr hu)
  refine ⟨hparams, hrb', hse, hfg, fun q => ?_⟩
  rw [State.finish_responses, State.fetched_responses, State.behind_responses, State.fetched_rb, State.behind, hrb,
    hread, hpass.responses, hresp]
  exact filter_port_comm _ (fun r hr hport => hpass.ports r hr (hport ▸ howned)) q

end

end Sys2Proof.Machine

namespace Sys2Proof.Proofs

open Sys2Proof Sys2Proof.Machine

/-- Settles O27: the serial run is carried beside the preempted one; RB.PEEK is answered by K2 with the byte that K1
found. -/
theorem preemptedOperationIsAtomicAtItsPoint : Obligations.PreemptedOperationIsAtomicAtItsPoint := by
  unfold Obligations.PreemptedOperationIsAtomicAtItsPoint
  refine ⟨fun s t i op p gaps hinv hfg hi hx ht => ?_, fun s t p g h hinv hfg hx => ?_⟩
  · obtain ⟨s₀, hs₀, hgaps⟩ := performAll_cons_eq_next.mp hx
    obtain ⟨hunder, hp⟩ := under_of_start hinv hfg hi hs₀
    obtain ⟨u, hu, ⟨hparams, hrb, hse, hfgs⟩, hresp⟩ := serial_of_preempted hunder hi hp hgaps ht
    exact ⟨u, hu, hparams, hrb, hse, hfgs, fun q => by rw [hresp]⟩
  · obtain ⟨s₀, hs₀, hgaps⟩ := performAll_cons_eq_next.mp hx
    obtain ⟨hunder, hp⟩ := under_of_start (op := .peek) hinv hfg rfl hs₀
    obtain ⟨s₁, s₂, hg, hm, hlast⟩ := performAll_preempted.mp hgaps
    obtain ⟨u₁, A, hu₁, hpass, h₁⟩ := hunder.background hg
    rw [← hpass.responses] at h₁
    cases hs₂ : s₂.fg with
    | none => exact absurd hlast (not_preempted_of_idle hs₂)
    | some f' =>
      obtain ⟨h₂, -, -⟩ := h₁.took hm hs₂
      obtain rfl := microStep_of_peek_first h₁.fg_eq rfl rfl hm hs₂
      obtain ⟨w, w', hw, hw', hsame⟩ := serial_of_preempted_peek h₂ rfl rfl hlast
      have hpeek : performAll [commandOf .fg p .rbPeek] u₁ = .next w :=
        (performAll_singleton _ _).trans ((h₁.perform_foreground (i := .rbPeek) rfl hp).trans hw)
      exact ⟨w', performAll_append_eq_next.mpr ⟨w, performAll_append_eq_next.mpr ⟨u₁, hu₁, hpeek⟩, hw'⟩, hsame⟩

end Sys2Proof.Proofs
end
